-- ==== Sys2Proof/Word.lean ====
section
/-! DEFINITION. The one word of MRB: the byte (20_memory.md R51). Cursors, counts and lengths are plain
naturals (00_scope.md R8 allows it, and R25 keeps them in range). -/

namespace Sys2Proof

/-- A byte, the unit of both address spaces and of every value MRB moves (20_memory.md R51). -/
abbrev Byte := BitVec 8

end Sys2Proof
end

