-- ==== Sys2Proof/Config.lean ====
section
/-! DEFINITION. What is fixed before reset: the parameters of 00_scope.md section 4, and the free values, which
are constants with no body, so that nothing can be proved of the value they hold. -/

namespace Sys2Proof

/-- A mark: a Morse symbol other than the space (00_scope.md, glossary). -/
inductive Mark where
  | dot
  | dash
  deriving DecidableEq, Repr, Inhabited

/-- The value of `N`, the capacity of the ring buffer in bytes, for this hardware: 30 (00_scope.md R5). The model takes
`N` as a parameter, `State.capacity`; this is its value in `State.reset`. -/
def Config.capacity : Nat := 30

/-- `LMAX`, the length of the longest sequence of the ROM, separator included (00_scope.md R6). -/
def Config.longest : Nat := 8

/-- The values `N` may have: `1 <= N <= 255` and `LMAX <= N` (00_scope.md R5, R6). -/
abbrev Config.LegalCapacity (n : Nat) : Prop := 1 ≤ n ∧ n ≤ 255 ∧ Config.longest ≤ n

/-- FREE VALUE (log 1). What a storage cell holds before any TRYWR has written it: R38 leaves it unspecified. -/
opaque Config.unwrittenByte : Nat → Byte

/-- FREE VALUE (log 2). One less than the number of marks of a ROM entry (numbered as 40_rom_translate.md R120
numbers them) that the source does not spell out. R113 and R119 bound the length by LMAX and R115 makes `@` the
single longest entry, so every other entry has 1 to 6 marks. -/
opaque Config.romExtraMarks : Nat → Fin 6

/-- FREE VALUE (log 2). The marks of such an entry, in order (40_rom_translate.md R113, R118). -/
opaque Config.romMark : Nat → Nat → Mark

/-- FREE VALUE (log 2). `ROM_AT`: the seven marks of `@` (40_rom_translate.md R115). -/
opaque Config.romAtMark : Nat → Mark

/-- FREE VALUE (log 4). Which of the ports that can step does so, for the k-th choice that the script leaves
open (20_memory.md R60, 60_exceptions.md R199). -/
opaque Config.scheduleChoice : Nat → Nat

end Sys2Proof
end

