-- ==== Sys2Proof/Syntax.lean ====
section
/-! DEFINITION. The command ports and the seven operations of MRB (00_scope.md R2, 30_encoding.md R80, R82). -/

namespace Sys2Proof

/-- The command ports (30_encoding.md R80): `P`, `C` and the internal bus `I`. -/
inductive Port where
  /-- Port `P`, the producer's. -/
  | producer
  /-- Port `C`, the consumer's. -/
  | consumer
  /-- Port `I`, the bus between the encoder sequencer and the ring buffer. -/
  | bus
  deriving DecidableEq, Repr

/-- The operations, one constructor per row of spec/opcode_table.json. Operands are the abstract ones of the
source: any byte sequence, any count; which of them a command can carry is `Instr.wellFormed`. -/
inductive Instr where
  /-- `OPEN` (42_encoder_service.md R160). -/
  | openService
  /-- `CLOSE` (42_encoder_service.md R161). -/
  | closeService
  /-- `XLATE c` (40_rom_translate.md R110). -/
  | xlate (c : Byte)
  /-- `WRITE input` (42_encoder_service.md R162). -/
  | write (input : List Byte)
  /-- `READ maxCount` (42_encoder_service.md R166). -/
  | read (maxCount : Nat)
  /-- `TRYWR seq` (41_ring_buffer.md R130). -/
  | tryWr (seq : List Byte)
  /-- `RBRD maxCount` (41_ring_buffer.md R131). -/
  | rbRd (maxCount : Nat)
  deriving DecidableEq, Repr

end Sys2Proof
end

