-- ==== Sys2Proof/WellFormed.lean ====
section
/-! DEFINITION. Which operations a command can carry: the 8-bit operand fields of 30_encoding.md R81 and R83. -/

namespace Sys2Proof

/-- A value an 8-bit operand field (`imm8` or `len8`) can hold (30_encoding.md R83). -/
def fitsByte (n : Nat) : Bool := decide (n ≤ 255)

/-- The operands fit their fields: a payload has at most 255 bytes, a count is at most 255 (30_encoding.md R83). -/
def Instr.wellFormed : Instr → Bool
  | .openService => true
  | .closeService => true
  | .xlate _ => true
  | .write input => fitsByte input.length
  | .read maxCount => fitsByte maxCount
  | .tryWr seq => fitsByte seq.length
  | .rbRd maxCount => fitsByte maxCount

end Sys2Proof
end

