-- ==== Sys2Proof/Decode.lean ====
section
/-! DEFINITION. The command decoder and encoder (30_encoding.md R81 to R89), total on any bytes. -/

namespace Sys2Proof

/-- What the decoder makes of the bytes waiting at a port. -/
inductive Decoded where
  /-- A whole command, and the bytes after it. -/
  | command (i : Instr) (rest : List Byte)
  /-- A reserved opcode, one byte long, and the bytes after it (30_encoding.md R85). -/
  | reserved (opcode : Byte) (rest : List Byte)
  /-- The last byte of the command has not arrived (30_encoding.md R86). -/
  | incomplete
  deriving DecidableEq, Repr

/-- Format `B`: one operand byte `imm8` (30_encoding.md R81). -/
def decodeB (operation : Byte → Instr) : List Byte → Decoded
  | [] => .incomplete
  | imm :: rest => .command (operation imm) rest

/-- Format `S`: `len8`, then `len8` payload bytes (30_encoding.md R81). -/
def decodeS (operation : List Byte → Instr) : List Byte → Decoded
  | [] => .incomplete
  | len :: rest =>
    if rest.length < len.toNat then .incomplete
    else .command (operation (rest.take len.toNat)) (rest.drop len.toNat)

/-- The opcode map (30_encoding.md R82, R85). -/
def decode : List Byte → Decoded
  | [] => .incomplete
  | opcode :: rest =>
    if opcode = 0x01#8 then .command .openService rest
    else if opcode = 0x02#8 then .command .closeService rest
    else if opcode = 0x10#8 then decodeB .xlate rest
    else if opcode = 0x20#8 then decodeS .write rest
    else if opcode = 0x21#8 then decodeB (fun imm => .read imm.toNat) rest
    else if opcode = 0x30#8 then decodeS .tryWr rest
    else if opcode = 0x31#8 then decodeB (fun imm => .rbRd imm.toNat) rest
    else .reserved opcode rest

/-- The length of a command, from byte 0 and, in format `S`, byte 1 (30_encoding.md R89); none while those have
not arrived. -/
def commandLength : List Byte → Option Nat
  | [] => none
  | opcode :: rest =>
    if opcode = 0x01#8 ∨ opcode = 0x02#8 then some 1
    else if opcode = 0x10#8 ∨ opcode = 0x21#8 ∨ opcode = 0x31#8 then some 2
    else if opcode = 0x20#8 ∨ opcode = 0x30#8 then rest.head?.map fun len => 2 + len.toNat
    else some 1

/-- The bytes of a well-formed operation, first to arrive first (30_encoding.md R81 to R83). -/
def encode : Instr → List Byte
  | .openService => [0x01#8]
  | .closeService => [0x02#8]
  | .xlate c => [0x10#8, c]
  | .write input => 0x20#8 :: BitVec.ofNat 8 input.length :: input
  | .read maxCount => [0x21#8, BitVec.ofNat 8 maxCount]
  | .tryWr seq => 0x30#8 :: BitVec.ofNat 8 seq.length :: seq
  | .rbRd maxCount => [0x31#8, BitVec.ofNat 8 maxCount]

/-- The low `count` bytes of `w`, byte 0 first: bit 0 of a table word is bit 0 of the first byte to arrive. -/
def wordBytes (count w : Nat) : List Byte :=
  (List.range count).map fun j => BitVec.ofNat 8 (w >>> (8 * j))

/-- The bytes of a table word of `nbits` bits, every bit above them 0 up to the longest command (257 bytes). -/
def tableWordBytes (nbits w : Nat) : List Byte :=
  wordBytes ((nbits + 7) / 8) (w % 2 ^ nbits) ++ List.replicate (257 - (nbits + 7) / 8) 0#8

/-- The same bytes cut to the command's own length (30_encoding.md R89). -/
def tableCommand (nbits w : Nat) : List Byte :=
  (tableWordBytes nbits w).take ((commandLength (tableWordBytes nbits w)).getD 1)

/-- The instruction the decoder reads from a word numbered as spec/opcode_table.json numbers it. -/
def decodeTableWord (nbits w : Nat) : Option Instr :=
  match decode (tableWordBytes nbits w) with
  | .command i _ => some i
  | .reserved _ _ => none
  | .incomplete => none

end Sys2Proof
end

