-- ==== Sys2Proof/Machine/State.lean ====
section
/-! DEFINITION. The state of MRB as plain data, why a step can stop, and the state after reset. -/

namespace Sys2Proof.Machine

/-- The status byte of a response, by name (30_encoding.md R88). -/
inductive Status where
  | ok
  | unsupported
  | noProgress
  | illegal
  deriving DecidableEq, Repr

/-- One response: status, count and payload (30_encoding.md R87). Its bytes are `responseBytes`. -/
structure Response where
  status : Status
  count : Nat
  payload : List Byte
  deriving DecidableEq, Repr

/-- The two streams of a port (30_encoding.md R80): the bytes arrived and not yet decoded, first to arrive first, and
the responses given, oldest first. -/
structure PortStreams where
  inward : List Byte
  outward : List Response
  deriving DecidableEq, Repr

/-- A WRITE in progress: its input and the loop's input cursor `i` (10_state.md R32, 42_encoder_service.md R163). -/
structure WriteProgress where
  input : List Byte
  cursor : Nat
  deriving DecidableEq, Repr

/-- Which ports take commands from outside the block (30_encoding.md R84). Fixed for a run (log 7). -/
inductive Wiring where
  /-- Every port: the two agents of 00_scope.md R11 drive `I` with commands of their own too, the producer with TRYWR
  and the consumer with RBRD, so that each of the seven operations can come at any time, in any order
  (42_encoder_service.md R167, 70_reset_and_hazards.md R222). -/
  | everyPort
  /-- The block behind its two external ports: commands come to `P` and `C`, and the encoder sequencer alone drives `I`
  (00_scope.md R11, 30_encoding.md R80). -/
  | wholeBlock
  /-- The ring buffer without the ROM and the sequencer: `I` is its external interface, and there is no `P` and no
  `C`. -/
  | ringAlone
  deriving DecidableEq, Repr

/-- What happens next from outside the block: the schedule of 20_memory.md R60 and the host of 00_scope.md R11. -/
inductive Event where
  /-- The agent on a port is given one step. -/
  | turn (p : Port)
  /-- Command bytes arrive at a port (30_encoding.md R80). -/
  | arrive (p : Port) (bytes : List Byte)
  /-- The service is shut down (70_reset_and_hazards.md R223). -/
  | shutdown
  deriving DecidableEq, Repr

/-- The storage of the ring buffer: the cells TRYWR has written, by index. A cell that is not listed has no value
of its own (10_state.md R38; log 1). -/
abbrev Memory := List Host.Cell

/-- Why the machine stops with a fault: never. MRB has no fault: no access can fault (20_memory.md R55, R59, R67), no
operation fails to complete (41_ring_buffer.md R142, 70_reset_and_hazards.md R232), and every condition is an answer
(60_exceptions.md R197). Log 12. -/
inductive Fault where
  deriving DecidableEq, Repr

/-- Why a step has no meaning. -/
inductive Refusal where
  /-- Raised by `exec`'s arm of an instruction without a meaning: none in this model. Safe. -/
  | notModelled (mnemonic : String)
  /-- Raised by WRITE while another WRITE is in progress: a second producer, which the source excludes and for which
  it defines nothing (60_exceptions.md R204, 93_implementation_defined.md U3). No step reaches it. Safe. -/
  | secondProducer
  /-- Raised by a shutdown event while a command is in progress (70_reset_and_hazards.md R223, U5). Safe. -/
  | shutdownInProgress
  /-- Raised by every step after shutdown (70_reset_and_hazards.md R223, U5). Safe. -/
  | afterShutdown
  /-- Raised by an event that names a port to which the configuration brings no command: port `I` of the block behind
  its external ports (00_scope.md R11), `P` and `C` of the ring buffer alone, which has neither (30_encoding.md R84).
  Never raised in a run from `State.reset`, which reaches every port. Log 7. Safe. -/
  | unreachedPort
  deriving DecidableEq, Repr

/-- The machine's state: the record of 10_state.md R20 (`storage`, `readCursor`, `writeCursor`, `occupancy`), the
parameter `capacity` (00_scope.md R5), the WRITE in progress (R32), the ports' streams (30_encoding.md R80), the lifetime
(10_state.md R39), and the model's own `wiring`, `activePort`, `script` and `freeChoices` (logs 4, 7 and 8). -/
structure State where
  /-- `N`, how many bytes the ring buffer holds: a parameter that no step changes, never resized (00_scope.md R5,
  10_state.md R34; log 17). -/
  capacity : Nat
  /-- The ring buffer's bytes (10_state.md R21). -/
  storage : Memory
  /-- The index of the oldest unread byte (10_state.md R22). -/
  readCursor : Nat
  /-- The index at which the next admitted byte is stored (10_state.md R23). -/
  writeCursor : Nat
  /-- The count of unread bytes (10_state.md R24). -/
  occupancy : Nat
  /-- The WRITE in progress on port `P` (10_state.md R32). -/
  writing : Option WriteProgress
  portP : PortStreams
  portC : PortStreams
  portI : PortStreams
  /-- Whether the service is up (10_state.md R39, 70_reset_and_hazards.md R223). -/
  alive : Bool
  /-- MODEL's own: which ports take commands from outside, a parameter that no step changes (log 7). -/
  wiring : Wiring
  /-- MODEL's own: the port whose command the step runs (log 7). -/
  activePort : Port
  /-- MODEL's own: the events to come, next first (log 4). -/
  script : List Event
  /-- MODEL's own: how many scheduling choices a free value has settled (log 4). -/
  freeChoices : Nat
  deriving DecidableEq, Repr

/-- The state after reset of an MRB with a ring buffer of `n` bytes, in any configuration (10_state.md R38,
70_reset_and_hazards.md R220, R221; 00_scope.md R5). -/
def State.resetWith (w : Wiring) (n : Nat) : State where
  capacity := n
  storage := []
  readCursor := 0
  writeCursor := 0
  occupancy := 0
  writing := none
  portP := ⟨[], []⟩
  portC := ⟨[], []⟩
  portI := ⟨[], []⟩
  alive := true
  wiring := w
  activePort := .producer
  script := []
  freeChoices := 0

/-- The state after reset of this hardware: `N` is 30 (00_scope.md R5), and the first command may be any of the seven
(70_reset_and_hazards.md R222; log 7). -/
def State.reset : State := State.resetWith .everyPort Config.capacity

end Sys2Proof.Machine
end

