-- ==== Sys2Proof/Machine/Memory.lean ====
section
/-! DEFINITION. The address space STORAGE (20_memory.md R50, R67): the cells TRYWR has written, by strictly rising
index. A cell not listed has no value of its own, and reading it gives a free value. -/

namespace Sys2Proof.Machine

/-- The canonical form for `N = n`: indices strictly rising and below `n`. An unlisted cell has no value, so no entry can equal
it, and two memories in this form that hold the same cells are the same list. -/
def Memory.wf (n : Nat) (m : Memory) : Bool :=
  decide (m.Pairwise fun x y => x.1 < y.1) && m.all fun x => decide (x.1 < n)

/-- The byte written at an index, if any was. -/
def Memory.lookup : Memory → Nat → Option Byte
  | [], _ => none
  | (index, value) :: rest, a => if index = a then some value else Memory.lookup rest a

/-- `MemRead(a, 1)` (20_memory.md R67): it cannot fault; a cell no TRYWR has written gives a free value
(10_state.md R38, log 1). -/
def Memory.read (m : Memory) (a : Nat) : Byte :=
  (Memory.lookup m a).getD (Config.unwrittenByte a)

/-- `MemWrite(a, 1, v)` (20_memory.md R67). -/
def Memory.write : Memory → Nat → Byte → Memory
  | [], a, v => [(a, v)]
  | (index, value) :: rest, a, v =>
    if a < index then (a, v) :: (index, value) :: rest
    else if a = index then (a, v) :: rest
    else (index, value) :: Memory.write rest a v

/-- `MemWrite((a + j) mod N, 1, bytes[j])` for each `j` in order, with `N = n` (20_memory.md R53). -/
def Memory.store (n : Nat) : Memory → Nat → List Byte → Memory
  | m, _, [] => m
  | m, a, b :: rest => Memory.store n (Memory.write m (a % n) b) (a + 1) rest

/-- `[MemRead(a + j, 1) | j in 0 .. k-1]` (20_memory.md R54). -/
def Memory.fetch (m : Memory) (a k : Nat) : List Byte :=
  (List.range k).map fun j => Memory.read m (a + j)

end Sys2Proof.Machine
end

