-- ==== Sys2Proof/Machine/Rom.lean ====
section
/-! DEFINITION. The translation ROM (40_rom_translate.md): the supported set, the index function, the entries the
source fixes, and the free values of the others. Byte values are those of 30_encoding.md R92. -/

namespace Sys2Proof.Machine

/-- The byte of a mark: `'.'` or `'-'` (30_encoding.md R92). -/
def markByte : Mark → Byte
  | .dot => 0x2E#8
  | .dash => 0x2D#8

/-- The separator: the single space that ends a sequence (40_rom_translate.md R113). -/
def separator : Byte := 0x20#8

/-- A sequence: its marks, then one separator (40_rom_translate.md R113). -/
def sequenceOf (marks : List Mark) : List Byte := marks.map markByte ++ [separator]

/-- `SUP`, the supported set, by its byte ranges (40_rom_translate.md R111). -/
def supported (c : Byte) : Bool :=
  let n := c.toNat
  n == 0x22 || (0x27 ≤ n && n ≤ 0x2F) || (0x30 ≤ n && n ≤ 0x39) || n == 0x3A || n == 0x3D || n == 0x3F ||
    n == 0x40 || (0x41 ≤ n && n ≤ 0x5A) || (0x61 ≤ n && n ≤ 0x7A)

/-- `idx(c)`: which of the 50 entries a byte reaches (40_rom_translate.md R120); the two cases of a letter reach
the same one (R112). Range tests come before any subtraction. -/
def romIndex (c : Byte) : Option Nat :=
  let n := c.toNat
  if 0x30 ≤ n ∧ n ≤ 0x39 then some (n - 0x30)
  else if 0x41 ≤ n ∧ n ≤ 0x5A then some (n - 0x41 + 10)
  else if 0x61 ≤ n ∧ n ≤ 0x7A then some (n - 0x61 + 10)
  else if n = 0x22 then some 36
  else if 0x27 ≤ n ∧ n ≤ 0x2F then some (n - 0x27 + 37)
  else if n = 0x3A then some 46
  else if n = 0x3D then some 47
  else if n = 0x3F then some 48
  else if n = 0x40 then some 49
  else none

/-- The marks of an entry of MRB's ROM: `A`, `B`, `O`, `S` as the source spells them (40_rom_translate.md R114), `@`
seven free marks (R115), every other entry one to six free marks (R113, R115, R119; log 2). -/
def romMarks (entry : Nat) : List Mark :=
  if entry = 10 then [.dot, .dash]
  else if entry = 11 then [.dash, .dot, .dot, .dot]
  else if entry = 24 then [.dash, .dash, .dash]
  else if entry = 28 then [.dot, .dot, .dot]
  else if entry = 49 then (List.range 7).map Config.romAtMark
  else (List.range ((Config.romExtraMarks entry).val + 1)).map (Config.romMark entry)

/-- `ROM`, by entry number: the hardware's table (00_scope.md R7, 40_rom_translate.md R118). -/
def rom (entry : Nat) : List Byte := sequenceOf (romMarks entry)

/-- `ROM(c)` in a given table: the sequence, or none where the byte is unsupported (40_rom_translate.md R110, R116). -/
def translateIn (table : Nat → List Byte) (c : Byte) : Option (List Byte) := (romIndex c).map table

/-- `XLATE`, as every operation uses it: pure, total, the same answer always (40_rom_translate.md R110, R117). -/
def translateByte (c : Byte) : Option (List Byte) := translateIn rom c

/-- The marks of the reference entries of the digits, from general knowledge (40_rom_translate.md R118; log 3). -/
def referenceDigits : List (List Mark) :=
  [[.dash, .dash, .dash, .dash, .dash], [.dot, .dash, .dash, .dash, .dash], [.dot, .dot, .dash, .dash, .dash],
   [.dot, .dot, .dot, .dash, .dash], [.dot, .dot, .dot, .dot, .dash], [.dot, .dot, .dot, .dot, .dot],
   [.dash, .dot, .dot, .dot, .dot], [.dash, .dash, .dot, .dot, .dot], [.dash, .dash, .dash, .dot, .dot],
   [.dash, .dash, .dash, .dash, .dot]]

/-- The marks of the reference entries of the letters (40_rom_translate.md R118; log 3). -/
def referenceLetters : List (List Mark) :=
  [[.dot, .dash], [.dash, .dot, .dot, .dot], [.dash, .dot, .dash, .dot], [.dash, .dot, .dot], [.dot],
   [.dot, .dot, .dash, .dot], [.dash, .dash, .dot], [.dot, .dot, .dot, .dot], [.dot, .dot],
   [.dot, .dash, .dash, .dash], [.dash, .dot, .dash], [.dot, .dash, .dot, .dot], [.dash, .dash], [.dash, .dot],
   [.dash, .dash, .dash], [.dot, .dash, .dash, .dot], [.dash, .dash, .dot, .dash], [.dot, .dash, .dot],
   [.dot, .dot, .dot], [.dash], [.dot, .dot, .dash], [.dot, .dot, .dot, .dash], [.dot, .dash, .dash],
   [.dash, .dot, .dot, .dash], [.dash, .dot, .dash, .dash], [.dash, .dash, .dot, .dot]]

/-- The marks of the reference entries of the punctuation but `@` (40_rom_translate.md R118; log 3). -/
def referencePunctuation : List (List Mark) :=
  [[.dot, .dash, .dot, .dot, .dash, .dot], [.dot, .dash, .dash, .dash, .dash, .dot],
   [.dash, .dot, .dash, .dash, .dot], [.dash, .dot, .dash, .dash, .dot, .dash], [.dash, .dot, .dot, .dash],
   [.dot, .dash, .dot, .dash, .dot], [.dash, .dash, .dot, .dot, .dash, .dash],
   [.dash, .dot, .dot, .dot, .dot, .dash], [.dot, .dash, .dot, .dash, .dot, .dash],
   [.dash, .dot, .dot, .dash, .dot], [.dash, .dash, .dash, .dot, .dot, .dot], [.dash, .dot, .dot, .dot, .dash],
   [.dot, .dot, .dash, .dash, .dot, .dot]]

/-- The marks of the reference entries 0 to 48, in the order of 40_rom_translate.md R120. -/
def referenceMarks : List (List Mark) := referenceDigits ++ referenceLetters ++ referencePunctuation

/-- `ROM_REF(ROM_AT)`, the reference instance (40_rom_translate.md R118). It is not the machine's ROM: only its rows
marked with the source's section 8 are the hardware's (log 3). -/
def referenceRom (atMarks : List Mark) (entry : Nat) : List Byte :=
  sequenceOf (referenceMarks[entry]?.getD atMarks)

/-- A ring buffer of `n` bytes and a table that a well-formed configuration may hold: 00_scope.md R5 and R6, and
40_rom_translate.md R113, R114, R115 and R119 (R111, R112 and R116 are `romIndex`'s). R222 asks this of the configuration
before the first operation. -/
def RomWellFormed (n : Nat) (table : Nat → List Byte) : Prop :=
  (∀ entry < 50, ∃ marks : List Mark, marks ≠ [] ∧ table entry = sequenceOf marks ∧
    (table entry).length ≤ Config.longest) ∧
  table 10 = [0x2E#8, 0x2D#8, 0x20#8] ∧
  table 11 = [0x2D#8, 0x2E#8, 0x2E#8, 0x2E#8, 0x20#8] ∧
  table 24 = [0x2D#8, 0x2D#8, 0x2D#8, 0x20#8] ∧
  table 28 = [0x2E#8, 0x2E#8, 0x2E#8, 0x20#8] ∧
  (table 49).length = Config.longest ∧
  (∀ entry < 49, (table entry).length < (table 49).length) ∧
  Config.LegalCapacity n

end Sys2Proof.Machine
end

