-- ==== Sys2Proof/Machine/Operands.lean ====
section
/-! DEFINITION. What the operations compute from their operands and the registers: capacities, counts, storage
indices, and the ports that admit an operation. -/

namespace Sys2Proof.Machine

/-- The streams of a port (30_encoding.md R80). -/
def State.port (s : State) : Port → PortStreams
  | .producer => s.portP
  | .consumer => s.portC
  | .bus => s.portI

/-- Free capacity, `N - occupancy` (10_state.md R24, 41_ring_buffer.md R140). -/
def freeCapacity (s : State) : Nat := s.capacity - s.occupancy

/-- The index at which byte `j` of an admitted candidate is stored (20_memory.md R53). -/
def writeIndex (s : State) (j : Nat) : Nat := (s.writeCursor + j) % s.capacity

/-- The index from which byte `j` of a read is taken (20_memory.md R54). -/
def readIndex (s : State) (j : Nat) : Nat := s.readCursor + j

/-- `k`, how many bytes a read returns: exactly `min(maxCount, occupancy, N - readCursor)` (41_ring_buffer.md R131, R135). -/
def readCount (maxCount : Nat) (s : State) : Nat :=
  min maxCount (min s.occupancy (s.capacity - s.readCursor))

/-- `(cursor + moved) mod N`, with `N = n` (20_memory.md R53, R54). -/
def advanceCursor (n cursor moved : Nat) : Nat := (cursor + moved) % n

/-- Which ports admit an operation: the table of 30_encoding.md R82, R84. -/
def admits : Port → Instr → Bool
  | .producer, .openService => true
  | .producer, .closeService => true
  | .producer, .xlate _ => true
  | .producer, .write _ => true
  | .consumer, .openService => true
  | .consumer, .closeService => true
  | .consumer, .read _ => true
  | .bus, .tryWr _ => true
  | .bus, .rbRd _ => true
  | _, _ => false

/-- To which ports a configuration brings commands (00_scope.md R11, 30_encoding.md R84, 42_encoder_service.md R167; log 7). -/
def reaches : Wiring → Port → Bool
  | .everyPort, _ => true
  | .wholeBlock, p => decide (p ≠ .bus)
  | .ringAlone, p => decide (p = .bus)

/-- Whether commands come to a port from outside. -/
def reached (s : State) (p : Port) : Bool := reaches s.wiring p

/-- The bytes of a status (30_encoding.md R88). -/
def statusByte : Status → Byte
  | .ok => 0x00#8
  | .unsupported => 0x01#8
  | .noProgress => 0x04#8
  | .illegal => 0xFF#8

/-- The bytes of a response: `status8`, `count8`, payload (30_encoding.md R87). -/
def responseBytes (r : Response) : List Byte :=
  statusByte r.status :: BitVec.ofNat 8 r.count :: r.payload

/-- The outward byte stream of a port (30_encoding.md R80, R87). -/
def outwardBytes (p : PortStreams) : List Byte := p.outward.flatMap responseBytes

end Sys2Proof.Machine
end

