-- ==== Sys2Proof/Machine/Flags.lean ====
section
/-! DEFINITION. MRB stores no flag (10_state.md R33). Here are the predicates it derives, `EMPTY` and `FULL`, and the
conditions of 60_exceptions.md, each computed by the operation that meets it and carried in its response. -/

namespace Sys2Proof.Machine

/-- `EMPTY`: `occupancy = 0` (10_state.md R26). -/
def isEmpty (s : State) : Bool := s.occupancy == 0

/-- `FULL`: `occupancy = N` (10_state.md R26). -/
def isFull (s : State) : Bool := s.occupancy == s.capacity

/-- The conditions (60_exceptions.md R190). -/
inductive Condition where
  | unsupportedInput
  | bufferFull
  | bufferEmpty
  | noProgress
  /-- The Pulse Driver's; MRB never raises it (60_exceptions.md R195). -/
  | hardwareUnavailable
  | illegalCommand
  deriving DecidableEq, Repr

/-- The code of a condition; `0x00` is none (60_exceptions.md R190). -/
def conditionCode : Option Condition → Byte
  | none => 0x00#8
  | some .unsupportedInput => 0x01#8
  | some .bufferFull => 0x02#8
  | some .bufferEmpty => 0x03#8
  | some .noProgress => 0x04#8
  | some .hardwareUnavailable => 0x05#8
  | some .illegalCommand => 0xFF#8

/-- The status a condition gives its response: BufferFull and BufferEmpty are no errors and answer `OK`, and
HardwareUnavailable never appears (30_encoding.md R88, 60_exceptions.md R190). -/
def statusOf : Option Condition → Status
  | none => .ok
  | some .unsupportedInput => .unsupported
  | some .bufferFull => .ok
  | some .bufferEmpty => .ok
  | some .noProgress => .noProgress
  | some .hardwareUnavailable => .ok
  | some .illegalCommand => .illegal

/-- What XLATE of a byte raises (60_exceptions.md R191, 40_rom_translate.md R110). -/
def translateCondition (c : Byte) : Option Condition :=
  if supported c then none else some .unsupportedInput

/-- What admitting a candidate of a length raises (60_exceptions.md R192, 41_ring_buffer.md R130). -/
def admissionCondition (length : Nat) (s : State) : Option Condition :=
  if length > freeCapacity s then some .bufferFull else none

/-- What reading the ring buffer raises (60_exceptions.md R193, 41_ring_buffer.md R131). -/
def readCondition (s : State) : Option Condition :=
  if isEmpty s then some .bufferEmpty else none

/-- What a WRITE that consumed a number of bytes raises (60_exceptions.md R194, 42_encoder_service.md R165). -/
def writeCondition (consumed : Nat) : Option Condition :=
  if consumed = 0 then some .noProgress else none

end Sys2Proof.Machine
end

