-- ==== Sys2Proof/Machine/Ops.lean ====
section
/-! DEFINITION. The shared operations: giving a response, turning a command away, the two primitives of the ring
buffer (41_ring_buffer.md), and one iteration of a WRITE (42_encoder_service.md R162, R163). MRB has no trap entry and no
return (60_exceptions.md R197, R200): a condition is an answer, and `answer` is the one operation that gives it. -/

namespace Sys2Proof.Machine

/-- The outcome of a step of this machine. -/
abbrev StepOutcome : Type := Host.Outcome State Fault Refusal

/-- The state with a port's streams replaced. -/
def State.setPort (s : State) (p : Port) (streams : PortStreams) : State :=
  match p with
  | .producer => { s with portP := streams }
  | .consumer => { s with portC := streams }
  | .bus => { s with portI := streams }

/-- The state with another script of events to come. -/
def State.withScript (s : State) (events : List Event) : State := { s with script := events }

/-- The state with another port as the one whose command runs. -/
def State.withActivePort (s : State) (p : Port) : State := { s with activePort := p }

/-- The state with one more scheduling choice settled by a free value (log 4). -/
def State.choiceTaken (s : State) : State := { s with freeChoices := s.freeChoices + 1 }

/-- A response leaves on a port (30_encoding.md R80, R87). -/
def respondOn (p : Port) (r : Response) (s : State) : State :=
  s.setPort p { s.port p with outward := (s.port p).outward ++ [r] }

/-- The command being run is answered on its port: the condition it met gives the status (60_exceptions.md R190,
30_encoding.md R88); nothing is saved and control goes nowhere (60_exceptions.md R197). -/
def answer (raised : Option Condition) (count : Nat) (payload : List Byte) (s : State) : State :=
  respondOn s.activePort ⟨statusOf raised, count, payload⟩ s

/-- IllegalCommand: no state change, status `0xFF`, count 0 (30_encoding.md R85, 60_exceptions.md R196). -/
def answerIllegal (s : State) : State := answer (some .illegalCommand) 0 [] s

/-- An operation runs only on a port that admits it; elsewhere it is an illegal command (30_encoding.md R84, R85). -/
def onAdmittingPort (i : Instr) (s : State) (effect : State → StepOutcome) : StepOutcome :=
  if admits s.activePort i then effect s else .next (answerIllegal s)

/-- The admission of a candidate that fits (41_ring_buffer.md R130, 20_memory.md R53). -/
def admitBytes (seq : List Byte) (s : State) : State :=
  { s with
    storage := Memory.store s.capacity s.storage s.writeCursor seq
    writeCursor := advanceCursor s.capacity s.writeCursor seq.length
    occupancy := s.occupancy + seq.length }

/-- `TRYWR seq` without its response: the written count and the state, all or nothing (41_ring_buffer.md R130, R132). -/
def tryWrite (seq : List Byte) (s : State) : Nat × State :=
  if seq.length > freeCapacity s then (0, s) else (seq.length, admitBytes seq s)

/-- The cursor and count updates of a read of `k` bytes; storage keeps its bytes (41_ring_buffer.md R131, R139). -/
def consume (k : Nat) (s : State) : State :=
  { s with
    readCursor := advanceCursor s.capacity s.readCursor k
    occupancy := s.occupancy - k }

/-- `RBRD maxCount` without its response: the bytes returned and the state (41_ring_buffer.md R131). -/
def ringRead (maxCount : Nat) (s : State) : List Byte × State :=
  (Memory.fetch s.storage s.readCursor (readCount maxCount s), consume (readCount maxCount s) s)

/-- `TRYWR` on the internal bus, issued by the producer side (30_encoding.md R84): the written count, and the state with
the operation's response on port `I` (41_ring_buffer.md R130, 30_encoding.md R87). -/
def busTryWr (seq : List Byte) (s : State) : Nat × State :=
  ((tryWrite seq s).1,
    respondOn .bus ⟨statusOf (admissionCondition seq.length s), (tryWrite seq s).1, []⟩ (tryWrite seq s).2)

/-- `RBRD` on the internal bus, issued by the consumer side (30_encoding.md R84): the bytes returned, and the state with
the operation's response on port `I` (41_ring_buffer.md R131, 30_encoding.md R87). -/
def busRbRd (maxCount : Nat) (s : State) : List Byte × State :=
  ((ringRead maxCount s).1,
    respondOn .bus ⟨statusOf (readCondition s), readCount maxCount s, (ringRead maxCount s).1⟩ (ringRead maxCount s).2)

/-- The end of a WRITE that consumed a number of bytes: it is answered on port `P` (42_encoder_service.md R162, R164, R165). -/
def finishWrite (consumed : Nat) (s : State) : State :=
  respondOn .producer ⟨statusOf (writeCondition consumed), consumed, []⟩ { s with writing := none }

/-- A WRITE whose cursor has just moved to `cursor`: it goes on if bytes are left, else it ends by exhaustion
(42_encoder_service.md R162, R168). -/
def continueWrite (input : List Byte) (cursor : Nat) (s : State) : State :=
  if cursor < input.length then { s with writing := some ⟨input, cursor⟩ } else finishWrite cursor s

/-- One iteration of a WRITE, one atomic step: a skip, an admission, or the rejection that ends it
(42_encoder_service.md R162, R163). Translation comes before admission (60_exceptions.md R199); the TRYWR goes over
port `I` (30_encoding.md R84). -/
def writeIteration (w : WriteProgress) (s : State) : State :=
  match w.input[w.cursor]? with
  | none => finishWrite w.cursor s
  | some c =>
    match translateByte c with
    | none => continueWrite w.input (w.cursor + 1) s
    | some seq =>
      if (busTryWr seq s).1 = 0 then finishWrite w.cursor (busTryWr seq s).2
      else continueWrite w.input (w.cursor + 1) (busTryWr seq s).2

/-- The whole loop of a WRITE on the record of 10_state.md R20, with no step of the consumer inside it and no response:
the input cursor at the end and the state (42_encoder_service.md R162, R168). -/
def writeLoop : List Byte → Nat → State → Nat × State
  | [], i, s => (i, s)
  | c :: rest, i, s =>
    match translateByte c with
    | none => writeLoop rest (i + 1) s
    | some seq =>
      if (tryWrite seq s).1 = 0 then (i, s) else writeLoop rest (i + 1) (tryWrite seq s).2

/-- The pseudo-instruction `DRAIN` (30_encoding.md R91) cut after `fuel` reads: `READ 255` until one returns nothing. -/
def drain : Nat → State → List Byte × State
  | 0, s => ([], s)
  | fuel + 1, s =>
    if readCount 255 s = 0 then ringRead 255 s
    else ((ringRead 255 s).1 ++ (drain fuel (ringRead 255 s).2).1, (drain fuel (ringRead 255 s).2).2)

end Sys2Proof.Machine
end

