-- ==== Sys2Proof/Machine/Lifecycle.lean ====
section
/-! DEFINITION. OPEN and CLOSE (42_encoder_service.md R160, R161): lifecycle hooks with no effect on the buffer. -/

namespace Sys2Proof.Machine

/-- `OPEN` (42_encoder_service.md R160): answers `OK 0` and changes nothing. -/
def execOpen (s : State) : StepOutcome :=
  onAdmittingPort .openService s fun s => .next (answer none 0 [] s)

/-- `CLOSE` (42_encoder_service.md R161): answers `OK 0` and changes nothing; unread bytes stay. -/
def execClose (s : State) : StepOutcome :=
  onAdmittingPort .closeService s fun s => .next (answer none 0 [] s)

end Sys2Proof.Machine
end

