-- ==== Sys2Proof/Machine/Ring.lean ====
section
/-! DEFINITION. TRYWR and RBRD, the primitives of the ring buffer on the internal bus (41_ring_buffer.md R130, R131). -/

namespace Sys2Proof.Machine

/-- `TRYWR seq` (41_ring_buffer.md R130): the whole candidate or nothing; the answer is the written count. -/
def execTryWr (seq : List Byte) (s : State) : StepOutcome :=
  onAdmittingPort (.tryWr seq) s fun s =>
    .next (busTryWr seq s).2

/-- `RBRD maxCount` (41_ring_buffer.md R131): the bytes up to the count, the occupancy and the end of storage. -/
def execRbRd (maxCount : Nat) (s : State) : StepOutcome :=
  onAdmittingPort (.rbRd maxCount) s fun s =>
    .next (busRbRd maxCount s).2

end Sys2Proof.Machine
end

