-- ==== Sys2Proof/Machine/Service.lean ====
section
/-! DEFINITION. WRITE and READ, the encoder service (42_encoder_service.md R162, R166). -/

namespace Sys2Proof.Machine

/-- `WRITE input` (42_encoder_service.md R162): its first iteration, which is one atomic step (R163); the later ones
are `writeIteration` in the producer's next steps. That the step which decodes the command is its first iteration is the
MODEL's choice (log 6). An empty input has no iteration: its WRITE is answered by `settled`, without a step of the
producer, before any turn could come to it (70_reset_and_hazards.md R232); the answer this meaning gives is the same. A
second WRITE inside a first has no meaning (60_exceptions.md R204). -/
def execWrite (input : List Byte) (s : State) : StepOutcome :=
  onAdmittingPort (.write input) s fun s =>
    match s.writing with
    | none => .next (writeIteration ⟨input, 0⟩ s)
    | some _ => .refused .secondProducer

/-- `READ maxCount` (42_encoder_service.md R166): the consumer side's RBRD over port `I`
(30_encoding.md R84), handed through to port `C`. -/
def execRead (maxCount : Nat) (s : State) : StepOutcome :=
  onAdmittingPort (.read maxCount) s fun s =>
    .next (answer (readCondition s) (readCount maxCount s) (busRbRd maxCount s).1 (busRbRd maxCount s).2)

end Sys2Proof.Machine
end

