-- ==== Sys2Proof/Machine/Translation.lean ====
section
/-! DEFINITION. XLATE (40_rom_translate.md R110). -/

namespace Sys2Proof.Machine

/-- `XLATE c` (40_rom_translate.md R110): answers the character's sequence, or `UNSUPPORTED` and no byte. -/
def execXlate (c : Byte) (s : State) : StepOutcome :=
  onAdmittingPort (.xlate c) s fun s =>
    .next (answer (translateCondition c) ((translateByte c).getD []).length ((translateByte c).getD []) s)

end Sys2Proof.Machine
end

