-- ==== Sys2Proof/Machine/Dispatch.lean ====
section
/-! DEFINITION. The dispatch from instructions to their meanings. -/

namespace Sys2Proof.Machine

def exec (i : Instr) (s : State) : Host.Outcome State Fault Refusal :=
  match i with
  | .openService => Sys2Proof.Machine.execOpen s
  | .closeService => Sys2Proof.Machine.execClose s
  | .xlate c => Sys2Proof.Machine.execXlate c s
  | .write input => Sys2Proof.Machine.execWrite input s
  | .read maxCount => Sys2Proof.Machine.execRead maxCount s
  | .tryWr seq => Sys2Proof.Machine.execTryWr seq s
  | .rbRd maxCount => Sys2Proof.Machine.execRbRd maxCount s

end Sys2Proof.Machine
end

