-- ==== Sys2Proof/Machine/Schedule.lean ====
section
/-! DEFINITION. How the ports' commands come to run: readiness, one turn of a port, the choice between ports, and the
events from outside (20_memory.md R60, 30_encoding.md R80 to R86, 70_reset_and_hazards.md R223, R235). -/

namespace Sys2Proof.Machine

/-- The bytes waiting at a port are taken up to `rest`, and the port's command is the one that runs. -/
def fetched (p : Port) (rest : List Byte) (s : State) : State :=
  (s.setPort p { s.port p with inward := rest }).withActivePort p

/-- Whether the command next on port `I` is a TRYWR that waits for the WRITE in progress on `P`: both are the producer's,
and the producer, one context, runs one at a time (00_scope.md R11, 42_encoder_service.md R163, 60_exceptions.md R204; the
MODEL's choice, log 7). -/
def heldBack (p : Port) (s : State) : Bool :=
  match p, decode (s.port p).inward with
  | .bus, .command (.tryWr _) _ => s.writing.isSome
  | _, _ => false

/-- A port's next command, decoded, is run; a reserved opcode is consumed and answered as illegal; an incomplete
command waits and nothing happens (30_encoding.md R80, R85, R86), and so with one that is held back. The MODEL's choice
(log 18): consuming and answering an illegal command is one whole turn of its port, a step that 20_memory.md R60 does not
list. -/
def runNextCommand (p : Port) (s : State) : StepOutcome :=
  if heldBack p s then .next s
  else
    match decode (s.port p).inward with
    | .command i rest => exec i (fetched p rest s)
    | .reserved _ rest => .next (answerIllegal (fetched p rest s))
    | .incomplete => .next s

/-- The step of the agent on a port: a WRITE in progress on `P` takes its next iteration (42_encoder_service.md R163), and
no other command of that port starts before it is answered (30_encoding.md R80). -/
def runTurn (p : Port) (s : State) : StepOutcome :=
  match p with
  | .producer =>
    match s.writing with
    | some w => .next (writeIteration w (s.withActivePort .producer))
    | none => runNextCommand .producer s
  | .consumer => runNextCommand .consumer s
  | .bus => runNextCommand .bus s

/-- The empty WRITEs, at most `fuel`, that stand whole at the head of port `P`'s stream with no WRITE in progress: each is
taken and answered. The loop of an empty input does not run (42_encoder_service.md R162), so it takes none of the
producer's steps (70_reset_and_hazards.md R232). -/
def answerEmptyWrites : Nat → State → State
  | 0, s => s
  | fuel + 1, s =>
    match s.writing, decode s.portP.inward with
    | none, .command (.write []) rest =>
      answerEmptyWrites fuel (finishWrite 0 (s.setPort .producer { s.portP with inward := rest }))
    | _, _ => s

/-- What an event at a port leaves once every empty WRITE that can be answered is: one is answered in the step in which its
last byte arrives (30_encoding.md R86), or, where another command of `P` comes before it, in the step that answers that
one (R80). Which step that is, is the MODEL's choice (log 6). Every other command waits for its turn. -/
def settled (p : Port) (s : State) : State :=
  match p with
  | .producer => answerEmptyWrites s.portP.inward.length s
  | .consumer => s
  | .bus => s

/-- The same of an outcome. -/
def settleOutcome (p : Port) : StepOutcome → StepOutcome
  | .next t => .next (settled p t)
  | .fault r => .fault r
  | .refused r => .refused r

/-- One turn of a port. -/
def takeTurn (p : Port) (s : State) : StepOutcome := settleOutcome p (runTurn p s)

/-- Whether a port has a whole command waiting. -/
def commandWaiting (s : State) (p : Port) : Bool :=
  match decode (s.port p).inward with
  | .command _ _ => true
  | .reserved _ _ => true
  | .incomplete => false

/-- Whether a command of a port that the outside reaches is in progress or waits whole: received and not yet answered
(70_reset_and_hazards.md R235). -/
def commandInProgress (s : State) (p : Port) : Bool :=
  reached s p && (commandWaiting s p || (decide (p = .producer) && s.writing.isSome))

/-- Whether a turn of a port would do anything. -/
def portReady (s : State) (p : Port) : Bool := commandInProgress s p && !heldBack p s

/-- The ports that can step. -/
def readyPorts (s : State) : List Port := [Port.producer, Port.consumer, Port.bus].filter (portReady s)

/-- No command is in progress on any port: every command received has been answered (70_reset_and_hazards.md R235). -/
def quiescent (s : State) : Bool :=
  !commandInProgress s .producer && !commandInProgress s .consumer && !commandInProgress s .bus

/-- Command bytes arrive at a port, after those already waiting (30_encoding.md R80). -/
def arriveAt (p : Port) (bytes : List Byte) (s : State) : State :=
  s.setPort p { s.port p with inward := (s.port p).inward ++ bytes }

/-- One event. Nothing but the host on the ports it reaches can touch the state (00_scope.md R11; log 7). Shutdown ends
the run, and is admitted only where no command is in progress (70_reset_and_hazards.md R223; log 10). -/
def runEvent (e : Event) (s : State) : StepOutcome :=
  match e with
  | .turn p => if reached s p then takeTurn p s else .refused .unreachedPort
  | .arrive p bytes => if reached s p then .next (settled p (arriveAt p bytes s)) else .refused .unreachedPort
  | .shutdown => if quiescent s then .next { s with alive := false } else .refused .shutdownInProgress

/-- A step that no event directs: the one port that can step does, of several a free value picks one
(60_exceptions.md R199; log 4), and where none can the machine waits for commands. -/
def undirectedStep (s : State) : StepOutcome :=
  match readyPorts s with
  | [] => .next s
  | [p] => takeTurn p s
  | p :: q :: more =>
    takeTurn (((p :: q :: more)[Config.scheduleChoice s.freeChoices % (more.length + 2)]?).getD p) s.choiceTaken

/-- The port on which a command is sent: the first that admits it, in the order `P`, `C`, `I` (30_encoding.md R82, R90). -/
def portFor (bytes : List Byte) : Port :=
  match decode bytes with
  | .command i _ => if admits .producer i then .producer else if admits .consumer i then .consumer else .bus
  | .reserved _ _ => .producer
  | .incomplete => .producer

/-- The state whose next step runs the command that `bytes` are: the bytes stand first at the port that admits it, that
port has the next turn, no WRITE is in progress, and the service is up; the configuration stays where it reaches that
port, and else is the one that reaches every port (log 11). -/
def withCommand (bytes : List Byte) (s : State) : State :=
  { s.setPort (portFor bytes)
      { s.port (portFor bytes) with inward := bytes ++ (s.port (portFor bytes)).inward } with
    script := .turn (portFor bytes) :: s.script
    writing := none
    alive := true
    wiring := if reached s (portFor bytes) then s.wiring else .everyPort }

end Sys2Proof.Machine
end

