-- ==== Sys2Proof/Machine/Step.lean ====
section
/-! DEFINITION. One step of MRB, and the state whose next step runs a given word. -/

namespace Sys2Proof.Machine

/-- One step: the next event of the script, or, where the script is empty, a step of a port that can take one
(20_memory.md R60). After shutdown nothing has a meaning (70_reset_and_hazards.md R223). -/
def step (s : State) : Host.Outcome State Fault Refusal :=
  if s.alive then
    match s.script with
    | [] => undirectedStep s
    | e :: events => runEvent e (s.withScript events)
  else .refused .afterShutdown

/-- The state whose next step fetches and runs the instruction of a table word. -/
def State.withFetchWord (s : State) (nbits w : Nat) : State := withCommand (tableCommand nbits w) s

end Sys2Proof.Machine
end

