-- ==== Sys2Proof/Machine/Counters.lean ====
section
/-! DEFINITION. The alternative representation of the occupancy (10_state.md R37, 20_memory.md R64): two counters, each
with a single writer. It is not the machine's state (R37 keeps the record of R20); it is here so that a statement can
say that no operation result differs. `n` stands for `N`. -/

namespace Sys2Proof.Machine

/-- The ring buffer with `totalWritten` and `totalRead` in place of `occupancy` and the cursors (10_state.md R37). -/
structure CounterRing where
  storage : Memory
  totalWritten : Nat
  totalRead : Nat
  deriving DecidableEq, Repr

/-- `occupancy = totalWritten - totalRead` (10_state.md R37). -/
def counterOccupancy (b : CounterRing) : Nat := b.totalWritten - b.totalRead

/-- The occupancy as counters of `width` bits give it: subtraction modulo `2 ^ width` (10_state.md R37). -/
def wrappedOccupancy (width : Nat) (b : CounterRing) : Nat :=
  (BitVec.ofNat width b.totalWritten - BitVec.ofNat width b.totalRead).toNat

/-- The record of 10_state.md R20 that the counters stand for, in a state whose other fields are those of `s`. -/
def counterView (b : CounterRing) (s : State) : State :=
  { s with
    storage := b.storage
    readCursor := b.totalRead % s.capacity
    writeCursor := b.totalWritten % s.capacity
    occupancy := counterOccupancy b }

/-- `TRYWR` on the counters: the producer alone writes `totalWritten` (10_state.md R37). -/
def counterTryWrite (n : Nat) (seq : List Byte) (b : CounterRing) : Nat × CounterRing :=
  if seq.length > n - counterOccupancy b then (0, b)
  else (seq.length,
    { b with
      storage := Memory.store n b.storage (b.totalWritten % n) seq
      totalWritten := b.totalWritten + seq.length })

/-- How many bytes `RBRD` returns on the counters (41_ring_buffer.md R131). -/
def counterReadCount (n maxCount : Nat) (b : CounterRing) : Nat :=
  min maxCount (min (counterOccupancy b) (n - b.totalRead % n))

/-- `RBRD` on the counters: the consumer alone writes `totalRead` (10_state.md R37). -/
def counterRead (n maxCount : Nat) (b : CounterRing) : List Byte × CounterRing :=
  (Memory.fetch b.storage (b.totalRead % n) (counterReadCount n maxCount b),
    { b with totalRead := b.totalRead + counterReadCount n maxCount b })

/-! ### Counters of a finite width

`totalWritten mod N` and `totalRead mod N` are the cursors of counters that wrap only where `2 ^ W` is a multiple of `N`,
so a ring with counters of `W` bits keeps the cursors as registers of their own (10_state.md R37). -/

/-- The ring buffer with two counters of `width` bits and separate cursors (10_state.md R37). -/
structure WrappedRing (width : Nat) where
  storage : Memory
  readCursor : Nat
  writeCursor : Nat
  totalWritten : BitVec width
  totalRead : BitVec width
  deriving DecidableEq, Repr

/-- `totalWritten - totalRead`, the subtraction taken modulo `2 ^ W` (10_state.md R37). -/
def WrappedRing.occupancy {width : Nat} (b : WrappedRing width) : Nat := (b.totalWritten - b.totalRead).toNat

/-- The record of 10_state.md R20 that such a ring stands for, in a state whose other fields are those of `s`. -/
def wrappedView {width : Nat} (b : WrappedRing width) (s : State) : State :=
  { s with
    storage := b.storage
    readCursor := b.readCursor
    writeCursor := b.writeCursor
    occupancy := b.occupancy }

/-- `TRYWR` on counters of a finite width: `totalWritten` and `writeCursor` move (10_state.md R37, R30). -/
def wrappedTryWrite {width : Nat} (n : Nat) (seq : List Byte) (b : WrappedRing width) : Nat × WrappedRing width :=
  if seq.length > n - b.occupancy then (0, b)
  else (seq.length,
    { b with
      storage := Memory.store n b.storage b.writeCursor seq
      writeCursor := advanceCursor n b.writeCursor seq.length
      totalWritten := b.totalWritten + BitVec.ofNat width seq.length })

/-- How many bytes `RBRD` returns on counters of a finite width (41_ring_buffer.md R131). -/
def wrappedReadCount {width : Nat} (n maxCount : Nat) (b : WrappedRing width) : Nat :=
  min maxCount (min b.occupancy (n - b.readCursor))

/-- `RBRD` on counters of a finite width: `totalRead` and `readCursor` move (10_state.md R37, R30). -/
def wrappedRead {width : Nat} (n maxCount : Nat) (b : WrappedRing width) : List Byte × WrappedRing width :=
  (Memory.fetch b.storage b.readCursor (wrappedReadCount n maxCount b),
    { b with
      readCursor := advanceCursor n b.readCursor (wrappedReadCount n maxCount b)
      totalRead := b.totalRead + BitVec.ofNat width (wrappedReadCount n maxCount b) })

end Sys2Proof.Machine
end

