-- ==== Sys2Proof/Safety.lean ====
section
/-! DEFINITION. What the statements speak of: the abstract queue, the invariants of 10_state.md section 3, the Morse
stream, sequences of ring operations, and a WRITE run alone. -/

namespace Sys2Proof.Machine

/-- `Q`, the abstract queue: the unread bytes, oldest first (10_state.md R28). -/
def queue (s : State) : List Byte :=
  (List.range s.occupancy).map fun j => Memory.read s.storage ((s.readCursor + j) % s.capacity)

/-- The range invariant (10_state.md R25). -/
def RegistersInRange (s : State) : Prop :=
  s.readCursor < s.capacity ∧ s.writeCursor < s.capacity ∧ s.occupancy ≤ s.capacity

/-- Cursor consistency (10_state.md R27). -/
def CursorsConsistent (s : State) : Prop :=
  s.writeCursor = (s.readCursor + s.occupancy) % s.capacity

/-- Every cell of the valid region has been written: no unread byte is a free value (10_state.md R21, R28). -/
def UnreadBytesWritten (s : State) : Prop :=
  ∀ j < s.occupancy, (Memory.lookup s.storage ((s.readCursor + j) % s.capacity)).isSome

/-- A WRITE in progress has a byte left to look at, and its input fits a command (42_encoder_service.md R162, R163;
30_encoding.md R83). -/
def WriteInProgressFits (s : State) : Prop :=
  ∀ w, s.writing = some w → w.cursor < w.input.length ∧ w.input.length ≤ 255

/-- Every response given so far fits its encoding: `count8` is the count, and a payload has `count8` bytes
(30_encoding.md R87). -/
def ResponsesFit (s : State) : Prop :=
  ∀ p, ∀ r ∈ (s.port p).outward, r.count ≤ 255 ∧ (r.payload = [] ∨ r.payload.length = r.count)

/-- No byte waits at a port the outside does not reach, and a WRITE is in progress only where there is a port `P`
(00_scope.md R11, 30_encoding.md R84; log 7). -/
def WiringRespected (s : State) : Prop :=
  (∀ p, reached s p = false → (s.port p).inward = []) ∧ (s.writing.isSome = true → reached s .producer = true)

/-- No empty WRITE waits for a turn: while no WRITE is in progress, none stands at the head of port `P`'s stream
(70_reset_and_hazards.md R232, log 6). -/
def EmptyWritesAnswered (s : State) : Prop :=
  s.writing = none → ∀ rest, decode (s.port .producer).inward ≠ .command (.write []) rest

/-- The invariant of the machine. -/
structure Inv (s : State) : Prop where
  legal : Config.LegalCapacity s.capacity
  storage_wf : Memory.wf s.capacity s.storage = true
  in_range : RegistersInRange s
  consistent : CursorsConsistent s
  written : UnreadBytesWritten s
  writing_fits : WriteInProgressFits s
  responses_fit : ResponsesFit s
  wiring_respected : WiringRespected s
  empty_writes_answered : EmptyWritesAnswered s

/-- The sequence of a byte; empty where the byte is unsupported (40_rom_translate.md R110, R116). -/
def sequenceFor (c : Byte) : List Byte := (translateByte c).getD []

/-- The bytes a whole input stands for: the sequences of its supported bytes, in order (42_encoder_service.md R170). -/
def encodeText (input : List Byte) : List Byte := input.flatMap sequenceFor

/-- A suffix of a concatenation of whole sequences, cut inside the first or nowhere (10_state.md R29). -/
def IsMorseTail (q : List Byte) : Prop :=
  q = [] ∨ ∃ c chars d, (∀ x ∈ c :: chars, supported x = true) ∧ d < (sequenceFor c).length ∧
    q = (encodeText (c :: chars)).drop d

/-- An operation of the ring buffer (41_ring_buffer.md). -/
inductive RingOp where
  | tryWr (seq : List Byte)
  | rbRd (maxCount : Nat)
  deriving DecidableEq, Repr

/-- The bytes a ring operation admits (41_ring_buffer.md R130). -/
def admittedBy : RingOp → State → List Byte
  | .tryWr seq, s => if (tryWrite seq s).1 = seq.length then seq else []
  | .rbRd _, _ => []

/-- The bytes a ring operation returns (41_ring_buffer.md R131). -/
def returnedBy : RingOp → State → List Byte
  | .tryWr _, _ => []
  | .rbRd maxCount, s => (ringRead maxCount s).1

/-- The state a ring operation leaves. -/
def afterRingOp : RingOp → State → State
  | .tryWr seq, s => (tryWrite seq s).2
  | .rbRd maxCount, s => (ringRead maxCount s).2

/-- A sequence of ring operations: all bytes admitted, all bytes returned, and the state at the end (20_memory.md R62). -/
def ringRun : List RingOp → State → List Byte × List Byte × State
  | [], s => ([], [], s)
  | o :: rest, s =>
    (admittedBy o s ++ (ringRun rest (afterRingOp o s)).1,
      returnedBy o s ++ (ringRun rest (afterRingOp o s)).2.1,
      (ringRun rest (afterRingOp o s)).2.2)

/-- `n` steps, stopping at the first fault or refusal (70_reset_and_hazards.md R235); the host's run of this machine. -/
def runSteps : Nat → State → StepOutcome
  | 0, s => .next s
  | n + 1, s =>
    match step s with
    | .next t => runSteps n t
    | .fault r => .fault r
    | .refused r => .refused r

/-- The same state with a script of `n` turns of port `P`: the producer runs alone (42_encoder_service.md R162). -/
def producerTurns (n : Nat) (s : State) : State := s.withScript (List.replicate n (.turn .producer))

/-! ### Effects, as the statements say them -/

/-- The registers are unchanged. -/
def SameRegisters (s t : State) : Prop :=
  t.readCursor = s.readCursor ∧ t.writeCursor = s.writeCursor ∧ t.occupancy = s.occupancy

/-- Every byte of storage reads as before. -/
def SameBytes (s t : State) : Prop := ∀ a, Memory.read t.storage a = Memory.read s.storage a

/-- The capacity, the lifetime, the configuration, the running port, the script and the count of free choices are unchanged. -/
def SameSurroundings (s t : State) : Prop :=
  t.capacity = s.capacity ∧ t.alive = s.alive ∧ t.wiring = s.wiring ∧ t.activePort = s.activePort ∧
  t.script = s.script ∧ t.freeChoices = s.freeChoices

/-- What an event at port `p` that leaves `u` comes to in the end, `t`: with no WRITE in progress, the empty WRITEs, if any,
at the head of `P`'s stream are taken and answered NOPROGRESS 0 each, and nothing else changes (42_encoder_service.md R162,
R165; log 6). -/
def EmptyWritesLeave (p : Port) (u t : State) : Prop :=
  ∃ k rest, (u.port p).inward = (List.replicate k [0x20#8, 0x00#8]).flatten ++ rest ∧
    t = u.setPort p ⟨rest, (u.port p).outward ++ List.replicate k ⟨.noProgress, 0, []⟩⟩ ∧
    (k ≠ 0 → p = .producer ∧ u.writing = none) ∧ (p = .producer → EmptyWritesAnswered t)

/-- One response leaves on one port, and no other stream changes. -/
def OnlyAnswered (p : Port) (r : Response) (s t : State) : Prop :=
  ∀ q, (t.port q).inward = (s.port q).inward ∧
    (t.port q).outward = if q = p then (s.port q).outward ++ [r] else (s.port q).outward

/-- The responses that leave on the three ports, none of which loses or gains a waiting byte. -/
def Answered (onP onC onI : List Response) (s t : State) : Prop :=
  ∀ q, (t.port q).inward = (s.port q).inward ∧
    (t.port q).outward = (s.port q).outward ++
      match q with
      | .producer => onP
      | .consumer => onC
      | .bus => onI

/-- The effect of admitting a candidate: its bytes in order from `writeCursor` on, wrapping, every other byte as before
(41_ring_buffer.md R130, 20_memory.md R53). -/
def AdmissionEffect (seq : List Byte) (s t : State) : Prop :=
  t.writeCursor = (s.writeCursor + seq.length) % s.capacity ∧
  t.occupancy = s.occupancy + seq.length ∧
  t.readCursor = s.readCursor ∧
  (∀ j (h : j < seq.length), Memory.read t.storage (writeIndex s j) = seq[j]) ∧
  ∀ a, (∀ j < seq.length, writeIndex s j ≠ a) → Memory.read t.storage a = Memory.read s.storage a

/-- The effect of a read of `k` bytes: `readCursor` and `occupancy` only (41_ring_buffer.md R131, R139). -/
def ReadEffect (k : Nat) (s t : State) : Prop :=
  t.readCursor = (s.readCursor + k) % s.capacity ∧
  t.occupancy = s.occupancy - k ∧
  t.writeCursor = s.writeCursor ∧
  SameBytes s t

/-- The `k` bytes from `readCursor` on, in order (20_memory.md R54). -/
def bytesFromCursor (k : Nat) (s : State) : List Byte :=
  (List.range k).map fun j => Memory.read s.storage (readIndex s j)

/-- What TRYWR of a candidate answers on port `I` (41_ring_buffer.md R130, 30_encoding.md R84). -/
def tryWrAnswer (written : Nat) : Response := ⟨.ok, written, []⟩

/-- The responses on port `I` of a whole WRITE with no step of the consumer inside it: one for each TRYWR, the rejected
one the last (42_encoder_service.md R162, 30_encoding.md R84). -/
def loopBusAnswers : List Byte → State → List Response
  | [], _ => []
  | c :: rest, s =>
    match translateByte c with
    | none => loopBusAnswers rest s
    | some seq =>
      if (tryWrite seq s).1 = 0 then [tryWrAnswer 0]
      else tryWrAnswer (tryWrite seq s).1 :: loopBusAnswers rest (tryWrite seq s).2

/-- A WRITE ends having consumed `n` bytes: it is answered on port `P` (42_encoder_service.md R162, R165), after what its
last TRYWR, if any, answered on port `I`. -/
def WriteEnds (n : Nat) (onI : List Response) (s t : State) : Prop :=
  t.writing = none ∧ Answered [⟨if n = 0 then .noProgress else .ok, n, []⟩] [] onI s t

/-- A WRITE has consumed the byte before `cursor`: it goes on if bytes are left, and ends otherwise
(42_encoder_service.md R162, R168). -/
def WriteAdvances (input : List Byte) (cursor : Nat) (onI : List Response) (s t : State) : Prop :=
  if cursor < input.length then t.writing = some ⟨input, cursor⟩ ∧ Answered [] [] onI s t
  else WriteEnds cursor onI s t

/-- What a WRITE that ran alone, all its steps taken, has done: all its loop does, one response on `P`, and those of its
TRYWRs on `I` (42_encoder_service.md R162, 30_encoding.md R84). -/
def WroteAlone (input : List Byte) (s t : State) : Prop :=
  t.storage = (writeLoop input 0 s).2.storage ∧ t.readCursor = s.readCursor ∧
  t.writeCursor = (writeLoop input 0 s).2.writeCursor ∧ t.occupancy = (writeLoop input 0 s).2.occupancy ∧
  t.writing = none ∧ t.capacity = s.capacity ∧ t.alive = true ∧ t.wiring = s.wiring ∧ t.script = [] ∧
  t.freeChoices = s.freeChoices ∧ t.portP.inward = [] ∧
  t.portP.outward = s.portP.outward ++
    [⟨if (writeLoop input 0 s).1 = 0 then .noProgress else .ok, (writeLoop input 0 s).1, []⟩] ∧
  t.portC = s.portC ∧ t.portI.inward = s.portI.inward ∧
  t.portI.outward = s.portI.outward ++ loopBusAnswers input s

/-- What one iteration of a WRITE does (42_encoder_service.md R162, R163): nothing left, end; an unsupported byte, skip
it; a sequence that fits, admit it whole; a sequence that does not fit, end before it. Its TRYWR, if it comes to one, is
answered on port `I` (30_encoding.md R84). -/
def IterationEffect (w : WriteProgress) (s t : State) : Prop :=
  SameSurroundings s t ∧
  match w.input[w.cursor]? with
  | none => SameRegisters s t ∧ SameBytes s t ∧ WriteEnds w.cursor [] s t
  | some c =>
    if supported c = false then
      SameRegisters s t ∧ SameBytes s t ∧ WriteAdvances w.input (w.cursor + 1) [] s t
    else if (sequenceFor c).length ≤ s.capacity - s.occupancy then
      AdmissionEffect (sequenceFor c) s t ∧
        WriteAdvances w.input (w.cursor + 1) [tryWrAnswer (sequenceFor c).length] s t
    else
      SameRegisters s t ∧ SameBytes s t ∧ WriteEnds w.cursor [tryWrAnswer 0] s t

end Sys2Proof.Machine
end

