-- ==== Sys2Proof/Certificates/Slice0/Obligations.lean ====
section
/-! DEFINITION. The statements for the provers. Each docstring names the rules it formalises; OBLIGATIONS.json lists them. -/

open Sys2Proof Sys2Proof.Machine

/-! ### Encoding -/

/-- 30_encoding.md R81 to R83: every well-formed operation's command decodes to it, whatever follows. -/
def Obligations.DecodeOfEncodeIsTheInstruction : Prop :=
  ∀ (i : Instr) (rest : List Byte), i.wellFormed = true → decode (encode i ++ rest) = .command i rest

/-- 30_encoding.md R85: no encoding executes as another; bytes that decode to an operation begin with exactly its
encoding. -/
def Obligations.DecodedBytesAreTheEncoding : Prop :=
  ∀ (bytes : List Byte) (i : Instr) (rest : List Byte), decode bytes = .command i rest →
    i.wellFormed = true ∧ bytes = encode i ++ rest

/-- 30_encoding.md R82: one written-out command of every opcode decodes to its operation. -/
def Obligations.WrittenOutCommandsDecode : Prop :=
  decode [0x01#8] = .command .openService [] ∧
  decode [0x02#8] = .command .closeService [] ∧
  decode [0x10#8, 0x53#8] = .command (.xlate 0x53#8) [] ∧
  decode [0x20#8, 0x03#8, 0x53#8, 0x4F#8, 0x53#8] = .command (.write [0x53#8, 0x4F#8, 0x53#8]) [] ∧
  decode [0x21#8, 0x1E#8] = .command (.read 30) [] ∧
  decode [0x30#8, 0x04#8, 0x2E#8, 0x2E#8, 0x2E#8, 0x20#8] = .command (.tryWr [0x2E#8, 0x2E#8, 0x2E#8, 0x20#8]) [] ∧
  decode [0x31#8, 0x1E#8] = .command (.rbRd 30) []

/-- 30_encoding.md R85: on a port whose turn it is, a reserved opcode (every byte but the seven) is consumed alone, an
assigned opcode the port does not admit is consumed with its whole encoding, and either changes no state and is
answered `0xFF`, count 0, no payload. That this is one whole turn of the port (log 18), and that the step also answers the
empty WRITEs that stand right behind the command on `P` (log 6), are the MODEL's choices. -/
def Obligations.IllegalCommandsAreConsumedAndAnswered : Prop :=
  responseBytes ⟨.illegal, 0, []⟩ = [0xFF#8, 0x00#8] ∧
  ∀ (s : State) (p : Port) (events : List Event) (rest : List Byte),
    s.alive = true → s.script = .turn p :: events → reached s p = true → (p = .producer → s.writing = none) →
    ((∃ opcode, opcode ∉ [0x01#8, 0x02#8, 0x10#8, 0x20#8, 0x21#8, 0x30#8, 0x31#8] ∧
        (s.port p).inward = opcode :: rest) ∨
      (∃ i : Instr, i.wellFormed = true ∧ admits p i = false ∧ (s.port p).inward = encode i ++ rest)) →
    ∃ u t, step s = .next t ∧ EmptyWritesLeave p u t ∧
      SameRegisters s u ∧ SameBytes s u ∧ u.writing = s.writing ∧ u.alive = s.alive ∧
      u.capacity = s.capacity ∧ u.wiring = s.wiring ∧ u.script = events ∧ u.freeChoices = s.freeChoices ∧
      (u.port p).inward = rest ∧ (u.port p).outward = (s.port p).outward ++ [⟨.illegal, 0, []⟩] ∧
      ∀ q, q ≠ p → u.port q = s.port q

/-- 30_encoding.md R82 and R84: the ports that admit each operation, and the answer of an operation on any other. Which
ports the outside reaches: every port, so that each of the seven has one (42_encoder_service.md R167,
70_reset_and_hazards.md R222), from this hardware's reset on; the two external ones (00_scope.md R11); or port `I` of the
ring buffer alone. The three configurations are the MODEL's form (log 7). -/
def Obligations.OperationsRunOnlyOnTheirPorts : Prop :=
  (∀ p, admits p .openService = true ↔ p = .producer ∨ p = .consumer) ∧
  (∀ p, admits p .closeService = true ↔ p = .producer ∨ p = .consumer) ∧
  (∀ p c, admits p (.xlate c) = true ↔ p = .producer) ∧
  (∀ p input, admits p (.write input) = true ↔ p = .producer) ∧
  (∀ p m, admits p (.read m) = true ↔ p = .consumer) ∧
  (∀ p seq, admits p (.tryWr seq) = true ↔ p = .bus) ∧
  (∀ p m, admits p (.rbRd m) = true ↔ p = .bus) ∧
  (∀ p, reaches .everyPort p = true) ∧ State.reset.wiring = .everyPort ∧
  (∀ p, reaches .wholeBlock p = true ↔ p = .producer ∨ p = .consumer) ∧
  (∀ p, reaches .ringAlone p = true ↔ p = .bus) ∧
  ∀ (i : Instr) (s : State), admits s.activePort i = false →
    ∃ t, exec i s = .next t ∧ SameRegisters s t ∧ SameBytes s t ∧ t.writing = s.writing ∧ SameSurroundings s t ∧
      OnlyAnswered s.activePort ⟨.illegal, 0, []⟩ s t

/-- 30_encoding.md R86: a command whose last byte has not arrived is incomplete, and a turn of its port changes nothing
but the turn. -/
def Obligations.IncompleteCommandWaits : Prop :=
  (∀ (i : Instr) (n : Nat), i.wellFormed = true → n < (encode i).length → decode ((encode i).take n) = .incomplete) ∧
  ∀ (s : State) (p : Port) (events : List Event), s.alive = true → s.script = .turn p :: events →
    reached s p = true → (p = .producer → s.writing = none) → decode (s.port p).inward = .incomplete →
    step s = .next (s.withScript events)

/-- 30_encoding.md R80 and R82: a turn of a port runs the operation its waiting bytes decode to, on that port, with those
bytes taken from its stream. That a TRYWR of the producer's own does not run inside its WRITE (log 7; what happens then
says `SecondProducerIsRefused`), and that the step also answers the empty WRITEs right behind a command on `P` (log 6), are
the MODEL's choices. -/
def Obligations.StepRunsTheDecodedInstruction : Prop :=
  ∀ (s : State) (p : Port) (events : List Event) (i : Instr) (rest : List Byte),
    s.alive = true → s.script = .turn p :: events → reached s p = true → (p = .producer → s.writing = none) →
    decode (s.port p).inward = .command i rest → (∀ seq, i = .tryWr seq → p = .bus → s.writing = none) →
    step s = settleOutcome p (exec i (fetched p rest (s.withScript events))) ∧
    (∀ u, exec i (fetched p rest (s.withScript events)) = .next u → ∃ t, step s = .next t ∧ EmptyWritesLeave p u t) ∧
    (fetched p rest (s.withScript events)).activePort = p ∧
    ((fetched p rest (s.withScript events)).port p).inward = rest ∧
    ((fetched p rest (s.withScript events)).port p).outward = (s.port p).outward ∧
    (∀ q, q ≠ p → (fetched p rest (s.withScript events)).port q = s.port q) ∧
    SameRegisters s (fetched p rest (s.withScript events)) ∧
    SameBytes s (fetched p rest (s.withScript events)) ∧
    (fetched p rest (s.withScript events)).writing = s.writing ∧
    (fetched p rest (s.withScript events)).alive = s.alive ∧
    (fetched p rest (s.withScript events)).capacity = s.capacity ∧
    (fetched p rest (s.withScript events)).wiring = s.wiring ∧
    (fetched p rest (s.withScript events)).script = events ∧
    (fetched p rest (s.withScript events)).freeChoices = s.freeChoices

/-- The host's word: the next step of `withFetchWord` runs exactly the instruction the decoder reads from it, on a port
that admits it and that the outside reaches, and nothing of the word is left in the stream; like every turn, the step also
answers the empty WRITEs that then stand first on `P` (the MODEL's conventions, logs 6, 7 and 11). -/
def Obligations.FetchedWordIsTheNextInstruction : Prop :=
  ∀ (s : State) (nbits w : Nat) (i : Instr), decodeTableWord nbits w = some i →
    ∃ p wiring, admits p i = true ∧ reaches wiring p = true ∧ (reached s p = true → wiring = s.wiring) ∧
      step (s.withFetchWord nbits w) =
        settleOutcome p (exec i { s with activePort := p, writing := none, alive := true, wiring := wiring }) ∧
      ∀ u, exec i { s with activePort := p, writing := none, alive := true, wiring := wiring } = .next u →
        ∃ t, step (s.withFetchWord nbits w) = .next t ∧ EmptyWritesLeave p u t

/-- 30_encoding.md R89: the length of a command is known from its first two bytes, and is what the decoder consumes. -/
def Obligations.LengthIsKnownFromTheFirstTwoBytes : Prop :=
  (∀ bytes : List Byte, 2 ≤ bytes.length → commandLength bytes = commandLength (bytes.take 2)) ∧
  (∀ (bytes : List Byte) (i : Instr) (rest : List Byte), decode bytes = .command i rest →
    commandLength bytes = some (bytes.length - rest.length)) ∧
  (∀ (bytes : List Byte) (opcode : Byte) (rest : List Byte), decode bytes = .reserved opcode rest →
    bytes = opcode :: rest ∧ commandLength bytes = some 1) ∧
  ∀ (bytes : List Byte) (n : Nat), decode bytes = .incomplete → commandLength bytes = some n → bytes.length < n

/-- 30_encoding.md R87: an operation is answered once, on the port it runs on, with `count` payload bytes for XLATE, READ
and RBRD and none for the others; only a WRITE with bytes left is not answered yet. The one other response is that of
the TRYWR or RBRD which a WRITE or READ issues on port `I` (R84; the MODEL's form, log 7). -/
def Obligations.EveryCommandIsAnsweredOnce : Prop :=
  ∀ (i : Instr) (s t : State), exec i s = .next t →
    ∃ onI : List Response, onI.length ≤ 1 ∧
      (onI ≠ [] → s.activePort ≠ .bus ∧ ((∃ input, i = .write input) ∨ ∃ m, i = .read m)) ∧
      ((∃ input, i = .write input ∧ t.writing.isSome = true ∧ Answered [] [] onI s t) ∨
      ∃ r : Response,
        (∀ q, (t.port q).inward = (s.port q).inward ∧
          (t.port q).outward = (s.port q).outward ++
            if q = s.activePort then [r] else if q = .bus then onI else []) ∧
        match i with
        | .xlate _ => r.payload.length = r.count
        | .read _ => r.payload.length = r.count
        | .rbRd _ => r.payload.length = r.count
        | .openService => r.payload = []
        | .closeService => r.payload = []
        | .write _ => r.payload = []
        | .tryWr _ => r.payload = [])

/-- 30_encoding.md R83: every count of 255 or more reads as 255 does, for every legal capacity. -/
def Obligations.CountsAboveTheFieldReadAsTheLargest : Prop :=
  ∀ (m : Nat) (s : State), Config.LegalCapacity s.capacity → 255 ≤ m →
    exec (.read m) s = exec (.read 255) s ∧ exec (.rbRd m) s = exec (.rbRd 255) s

/-- 30_encoding.md R88 and 60_exceptions.md R190: the status bytes and the condition codes. -/
def Obligations.ConditionCodesAndStatuses : Prop :=
  conditionCode none = 0x00#8 ∧ conditionCode (some .unsupportedInput) = 0x01#8 ∧
  conditionCode (some .bufferFull) = 0x02#8 ∧ conditionCode (some .bufferEmpty) = 0x03#8 ∧
  conditionCode (some .noProgress) = 0x04#8 ∧ conditionCode (some .hardwareUnavailable) = 0x05#8 ∧
  conditionCode (some .illegalCommand) = 0xFF#8 ∧
  (∀ c, c ∈ [none, some .unsupportedInput, some .noProgress, some .illegalCommand] →
    statusByte (statusOf c) = conditionCode c) ∧
  (∀ c, c ∈ [some Condition.bufferFull, some .bufferEmpty] → statusByte (statusOf c) = 0x00#8)

/-! ### The translation ROM -/

/-- 40_rom_translate.md R111: a byte has a sequence exactly when it is in one of the listed ranges; there are 76 such
bytes, and 50 characters once the cases of a letter, which answer the same, are merged. -/
def Obligations.SupportedSetIsExact : Prop :=
  (∀ c : Byte, (translateByte c).isSome = true ↔
    c.toNat = 0x22 ∨ (0x27 ≤ c.toNat ∧ c.toNat ≤ 0x2F) ∨ (0x30 ≤ c.toNat ∧ c.toNat ≤ 0x39) ∨ c.toNat = 0x3A ∨
    c.toNat = 0x3D ∨ c.toNat = 0x3F ∨ c.toNat = 0x40 ∨ (0x41 ≤ c.toNat ∧ c.toNat ≤ 0x5A) ∨
    (0x61 ≤ c.toNat ∧ c.toNat ≤ 0x7A)) ∧
  ((List.range 256).filter fun n => supported (BitVec.ofNat 8 n)).length = 76 ∧
  (∀ e < 50, ∃ c : Byte, romIndex c = some e) ∧
  (∀ c : Byte, ∀ e, romIndex c = some e → e < 50) ∧
  ∀ c : Byte, 0x61 ≤ c.toNat → c.toNat ≤ 0x7A →
    romIndex c = romIndex (c - 0x20#8) ∧ translateByte c = translateByte (c - 0x20#8)

/-- 40_rom_translate.md R112: the two cases of a letter have the same sequence. -/
def Obligations.LettersAreCaseInsensitive : Prop :=
  ∀ c : Byte, 0x61 ≤ c.toNat → c.toNat ≤ 0x7A → translateByte c = translateByte (c - 0x20#8)

/-- 40_rom_translate.md R113 and R119: every sequence is a non-empty run of dots and dashes and one space, of 2 to LMAX
bytes, and LMAX, so every sequence, fits a ring buffer of any legal capacity (00_scope.md R5, R6). -/
def Obligations.SequencesAreMarksAndOneSeparator : Prop :=
  (∀ c : Byte, supported c = true → ∃ marks : List Byte, marks ≠ [] ∧ (∀ b ∈ marks, b = 0x2E#8 ∨ b = 0x2D#8) ∧
    translateByte c = some (marks ++ [0x20#8]) ∧ 2 ≤ (marks ++ [0x20#8]).length ∧
    (marks ++ [0x20#8]).length ≤ Config.longest) ∧
  ∀ n, Config.LegalCapacity n → Config.longest ≤ n ∧ ∀ c : Byte, (sequenceFor c).length ≤ n

/-- 40_rom_translate.md R114: the four sequences the source spells out, in both cases. -/
def Obligations.SourceGivenSequences : Prop :=
  translateByte 0x53#8 = some [0x2E#8, 0x2E#8, 0x2E#8, 0x20#8] ∧ translateByte 0x73#8 = translateByte 0x53#8 ∧
  translateByte 0x4F#8 = some [0x2D#8, 0x2D#8, 0x2D#8, 0x20#8] ∧ translateByte 0x6F#8 = translateByte 0x4F#8 ∧
  translateByte 0x41#8 = some [0x2E#8, 0x2D#8, 0x20#8] ∧ translateByte 0x61#8 = translateByte 0x41#8 ∧
  translateByte 0x42#8 = some [0x2D#8, 0x2E#8, 0x2E#8, 0x2E#8, 0x20#8] ∧ translateByte 0x62#8 = translateByte 0x42#8

/-- 40_rom_translate.md R115: `@` has seven marks and a space, 8 bytes, and no sequence is longer. -/
def Obligations.AtSignHasTheLongestSequence : Prop :=
  (sequenceFor 0x40#8).length = 8 ∧ Config.longest = 8 ∧
  (∃ marks : List Byte, marks.length = 7 ∧ (∀ b ∈ marks, b = 0x2E#8 ∨ b = 0x2D#8) ∧
    translateByte 0x40#8 = some (marks ++ [0x20#8])) ∧
  ∀ c : Byte, (sequenceFor c).length ≤ (sequenceFor 0x40#8).length

/-- The MODEL's reading (log 2) of "the single longest" in 40_rom_translate.md R115: every other sequence is shorter. -/
def Obligations.OtherSequencesAreShorterThanAtSign : Prop :=
  ∀ c : Byte, c ≠ 0x40#8 → (sequenceFor c).length < (sequenceFor 0x40#8).length

/-- 70_reset_and_hazards.md R222: with any legal capacity (00_scope.md R5), the machine's table, and the reference table of R118 with any seven marks for `@`
(general knowledge, log 3), are tables a well-formed configuration may hold. That `RomWellFormed` asks every other entry
to be shorter than that of `@` is the MODEL's reading of "the single longest" (log 2). -/
def Obligations.BothTablesAreWellFormed : Prop :=
  ∀ n, Config.LegalCapacity n →
    RomWellFormed n rom ∧ ∀ atMarks : List Mark, atMarks.length = 7 → RomWellFormed n (referenceRom atMarks)

/-! ### The operations -/

/-- 42_encoder_service.md R160. -/
def Obligations.OpenSucceedsAndChangesNothing : Prop :=
  (∀ rest, decode (0x01#8 :: rest) = .command .openService rest) ∧
  (∀ p, admits p .openService = true ↔ p = .producer ∨ p = .consumer) ∧
  responseBytes ⟨.ok, 0, []⟩ = [0x00#8, 0x00#8] ∧
  ∀ s : State, s.activePort = .producer ∨ s.activePort = .consumer →
    ∃ t, exec .openService s = .next t ∧ SameRegisters s t ∧ SameBytes s t ∧ t.writing = s.writing ∧
      SameSurroundings s t ∧ OnlyAnswered s.activePort ⟨.ok, 0, []⟩ s t

/-- 42_encoder_service.md R161. -/
def Obligations.CloseSucceedsAndChangesNothing : Prop :=
  (∀ rest, decode (0x02#8 :: rest) = .command .closeService rest) ∧
  (∀ p, admits p .closeService = true ↔ p = .producer ∨ p = .consumer) ∧
  responseBytes ⟨.ok, 0, []⟩ = [0x00#8, 0x00#8] ∧
  ∀ s : State, s.activePort = .producer ∨ s.activePort = .consumer →
    ∃ t, exec .closeService s = .next t ∧ SameRegisters s t ∧ SameBytes s t ∧ t.writing = s.writing ∧
      SameSurroundings s t ∧ OnlyAnswered s.activePort ⟨.ok, 0, []⟩ s t

/-- 40_rom_translate.md R110: XLATE answers the sequence of a supported byte, or UNSUPPORTED, and changes nothing. -/
def Obligations.XlateAnswersTheSequence : Prop :=
  (∀ c rest, decode (0x10#8 :: c :: rest) = .command (.xlate c) rest) ∧
  (∀ p c, admits p (.xlate c) = true ↔ p = .producer) ∧
  statusByte .ok = 0x00#8 ∧ statusByte .unsupported = 0x01#8 ∧
  ∀ (c : Byte) (s : State), s.activePort = .producer →
    ∃ t, exec (.xlate c) s = .next t ∧ SameRegisters s t ∧ SameBytes s t ∧ t.writing = s.writing ∧
      SameSurroundings s t ∧
      OnlyAnswered .producer
        (if supported c then ⟨.ok, (sequenceFor c).length, sequenceFor c⟩ else ⟨.unsupported, 0, []⟩) s t

/-- 41_ring_buffer.md R130: TRYWR admits the whole candidate if it fits, at `(writeCursor + j) mod N`, else nothing. -/
def Obligations.TryWriteAdmitsAllOrNothing : Prop :=
  (∀ (seq rest : List Byte), seq.length ≤ 255 →
    decode (0x30#8 :: BitVec.ofNat 8 seq.length :: (seq ++ rest)) = .command (.tryWr seq) rest) ∧
  (∀ p seq, admits p (.tryWr seq) = true ↔ p = .bus) ∧
  ∀ (seq : List Byte) (s : State), s.activePort = .bus →
    ∃ t, exec (.tryWr seq) s = .next t ∧ t.writing = s.writing ∧ SameSurroundings s t ∧
      if seq.length ≤ s.capacity - s.occupancy then
        AdmissionEffect seq s t ∧ OnlyAnswered .bus ⟨.ok, seq.length, []⟩ s t
      else SameRegisters s t ∧ SameBytes s t ∧ OnlyAnswered .bus ⟨.ok, 0, []⟩ s t

/-- 41_ring_buffer.md R133: an empty candidate changes nothing and is answered 0, one longer than `N` likewise, in every
state; no sequence of the ROM is either. -/
def Obligations.DegenerateCandidatesChangeNothing : Prop :=
  (∀ (seq : List Byte) (s : State), s.activePort = .bus → RegistersInRange s →
    seq = [] ∨ s.capacity < seq.length →
    ∃ t, exec (.tryWr seq) s = .next t ∧ SameRegisters s t ∧ SameBytes s t ∧ t.writing = s.writing ∧
      SameSurroundings s t ∧ OnlyAnswered .bus ⟨.ok, 0, []⟩ s t) ∧
  ∀ (n : Nat) (c : Byte) (seq : List Byte), Config.LegalCapacity n → translateByte c = some seq →
    2 ≤ seq.length ∧ seq.length ≤ n

/-- 41_ring_buffer.md R134: TRYWR appends the candidate to `Q` or leaves `Q`, and never moves `readCursor`. -/
def Obligations.TryWriteAppendsToTheQueue : Prop :=
  ∀ (seq : List Byte) (s : State), s.activePort = .bus → RegistersInRange s → CursorsConsistent s →
    ∃ t, exec (.tryWr seq) s = .next t ∧ t.readCursor = s.readCursor ∧
      queue t = if seq.length ≤ s.capacity - s.occupancy then queue s ++ seq else queue s

/-- 41_ring_buffer.md R131 and R135: RBRD returns exactly `min(maxCount, occupancy, N - readCursor)` bytes from
`readCursor` on, and changes `readCursor` and `occupancy` only. -/
def Obligations.RingReadReturnsTheContiguousRun : Prop :=
  (∀ (m : Byte) (rest : List Byte), decode (0x31#8 :: m :: rest) = .command (.rbRd m.toNat) rest) ∧
  (∀ p m, admits p (.rbRd m) = true ↔ p = .bus) ∧
  ∀ (m : Nat) (s : State), s.activePort = .bus →
    ∃ t k, exec (.rbRd m) s = .next t ∧ k = min m (min s.occupancy (s.capacity - s.readCursor)) ∧
      ReadEffect k s t ∧ t.writing = s.writing ∧ SameSurroundings s t ∧
      OnlyAnswered .bus ⟨.ok, k, bytesFromCursor k s⟩ s t

/-- 42_encoder_service.md R166: READ is the ring buffer's read, answered on port `C` with no transformation. That its
RBRD is answered on port `I` in the same step is the MODEL's form of 30_encoding.md R84 (log 7). -/
def Obligations.ReadDelegatesToTheRing : Prop :=
  (∀ (m : Byte) (rest : List Byte), decode (0x21#8 :: m :: rest) = .command (.read m.toNat) rest) ∧
  (∀ p m, admits p (.read m) = true ↔ p = .consumer) ∧
  ∀ (m : Nat) (s : State), s.activePort = .consumer →
    ∃ t k, exec (.read m) s = .next t ∧ k = min m (min s.occupancy (s.capacity - s.readCursor)) ∧
      ReadEffect k s t ∧ t.writing = s.writing ∧ SameSurroundings s t ∧
      Answered [] [⟨.ok, k, bytesFromCursor k s⟩] [⟨.ok, k, bytesFromCursor k s⟩] s t ∧
      ∃ u, exec (.rbRd m) (s.withActivePort .bus) = .next u ∧ SameRegisters u t ∧ SameBytes u t ∧
        OnlyAnswered .bus ⟨.ok, k, bytesFromCursor k s⟩ s u

/-- 41_ring_buffer.md R136: the bytes returned are `take(k, Q)`, `Q` becomes `drop(k, Q)`, `writeCursor` stays; and the
same `Q` at another `readCursor` can answer another count. -/
def Obligations.RingReadTakesFromTheQueue : Prop :=
  (∀ (m : Nat) (s : State), s.activePort = .bus → RegistersInRange s →
    ∃ t k, exec (.rbRd m) s = .next t ∧ k = min m (min s.occupancy (s.capacity - s.readCursor)) ∧
      OnlyAnswered .bus ⟨.ok, k, (queue s).take k⟩ s t ∧ queue t = (queue s).drop k ∧
      t.writeCursor = s.writeCursor) ∧
  ∃ s₁ s₂ : State, Inv s₁ ∧ Inv s₂ ∧ queue s₁ = queue s₂ ∧ readCount 30 s₁ ≠ readCount 30 s₂

/-- 41_ring_buffer.md R137: with nothing held or nothing asked for, a read returns no byte, is no error, and changes no
state. -/
def Obligations.EmptyReadIsNoError : Prop :=
  ∀ (m : Nat) (s : State), s.activePort = .bus → RegistersInRange s → s.occupancy = 0 ∨ m = 0 →
    ∃ t, exec (.rbRd m) s = .next t ∧ SameRegisters s t ∧ SameBytes s t ∧ t.writing = s.writing ∧
      SameSurroundings s t ∧ OnlyAnswered .bus ⟨.ok, 0, []⟩ s t

/-- 41_ring_buffer.md R138: the short read at the end of storage, the progress of every read, and how many reads empty
the buffer. -/
def Obligations.TwoReadsEmptyTheBuffer : Prop :=
  ∀ s : State, s.activePort = .bus → RegistersInRange s →
    (∀ m, s.occupancy ≤ m → s.capacity - s.readCursor < s.occupancy →
      ∃ t, exec (.rbRd m) s = .next t ∧ t.readCursor = 0 ∧
        t.occupancy = s.occupancy - (s.capacity - s.readCursor) ∧
        OnlyAnswered .bus
          ⟨.ok, s.capacity - s.readCursor, bytesFromCursor (s.capacity - s.readCursor) s⟩ s t) ∧
    (∀ m, 0 < m → 0 < s.occupancy →
      ∃ t bytes, exec (.rbRd m) s = .next t ∧ 1 ≤ bytes.length ∧ OnlyAnswered .bus ⟨.ok, bytes.length, bytes⟩ s t) ∧
    ∀ m₁ m₂ m₃, s.capacity ≤ m₁ → s.capacity ≤ m₂ →
      ∃ t₁ t₂ t₃ first second, exec (.rbRd m₁) s = .next t₁ ∧ exec (.rbRd m₂) t₁ = .next t₂ ∧
        exec (.rbRd m₃) t₂ = .next t₃ ∧ OnlyAnswered .bus ⟨.ok, first.length, first⟩ s t₁ ∧
        OnlyAnswered .bus ⟨.ok, second.length, second⟩ t₁ t₂ ∧ first ++ second = queue s ∧ t₂.occupancy = 0 ∧
        OnlyAnswered .bus ⟨.ok, 0, []⟩ t₂ t₃

/-- 30_encoding.md R91: DRAIN with no producer active ends within three reads: the first two at most return data, and
that data is all of `Q`; a third returns nothing and ends it. That DRAIN is a function cut after a number of reads is the
MODEL's form (log 16). -/
def Obligations.DrainReturnsTheQueueInThreeReads : Prop :=
  ∀ s : State, Config.LegalCapacity s.capacity → RegistersInRange s →
    (drain 2 s).1 = queue s ∧ (drain 2 s).2.occupancy = 0 ∧
    (ringRead 255 (drain 2 s).2).1 = [] ∧
    (drain 3 s).1 = queue s ∧ (drain 3 s).2.occupancy = 0 ∧
    ∀ n, drain (3 + n) s = drain 3 s

/-- 42_encoder_service.md R162 and R163: WRITE begins with its first iteration; of an empty input, which has none, its
meaning is the answer alone. That the step which decodes the command is that iteration is the MODEL's choice (log 6); so is
the form in which the answer of a TRYWR stands on port `I` (log 7). -/
def Obligations.WriteTakesItsFirstIteration : Prop :=
  (∀ (input rest : List Byte), input.length ≤ 255 →
    decode (0x20#8 :: BitVec.ofNat 8 input.length :: (input ++ rest)) = .command (.write input) rest) ∧
  (∀ p input, admits p (.write input) = true ↔ p = .producer) ∧
  ∀ (input : List Byte) (s : State), s.activePort = .producer → s.writing = none →
    ∃ t, exec (.write input) s = .next t ∧ IterationEffect ⟨input, 0⟩ s t

/-- 42_encoder_service.md R162 and R163: a turn of the producer in the middle of a WRITE is its next iteration; no
other command of port `P` starts before the WRITE is answered (30_encoding.md R80). The form in which the answer of a
TRYWR stands on port `I` is the MODEL's (log 7), and so is that the step which ends the WRITE also answers the empty WRITEs
right behind it (log 6). -/
def Obligations.WriteGoesOnByIterations : Prop :=
  ∀ (s : State) (w : WriteProgress) (events : List Event), s.alive = true → s.script = .turn .producer :: events →
    reached s .producer = true → s.writing = some w →
    ∃ u t, step s = .next t ∧ EmptyWritesLeave .producer u t ∧
      IterationEffect w ((s.withScript events).withActivePort .producer) u

/-- 42_encoder_service.md R162 and 70_reset_and_hazards.md R232: a WRITE of `n` bytes with no consumer step inside it does
all its loop does in at most `n` steps of the producer after its bytes have arrived, none for an empty input, and gives
exactly one response on `P`, beside those of its TRYWRs on `I` (30_encoding.md R84); so does one that waits whole at `P`
already. That an empty WRITE is answered in the step in which it arrives (log 6) and that the responses of the TRYWRs stand
on port `I` (log 7) are the MODEL's choices. -/
def Obligations.WriteAloneRunsItsWholeLoop : Prop :=
  ∀ (s : State) (input : List Byte), s.alive = true → reached s .producer = true → s.writing = none →
    input.length ≤ 255 →
    (s.portP.inward = [] →
      ∃ u t, step (s.withScript (.arrive .producer (encode (.write input)) :: List.replicate input.length (.turn .producer))) =
          .next u ∧
        u.script = List.replicate input.length (.turn .producer) ∧
        runSteps input.length u = .next t ∧ WroteAlone input s t) ∧
    (s.portP.inward = encode (.write input) → input ≠ [] →
      ∃ t, runSteps input.length (producerTurns input.length s) = .next t ∧ WroteAlone input s t)

/-- 42_encoder_service.md R164: `consumedCount` is at most `n`, is `n` exactly when nothing was rejected, otherwise
points at a supported byte whose sequence did not fit, and the bytes that entered are those of what it counts. -/
def Obligations.ConsumedCountStopsAtTheRejectedByte : Prop :=
  ∀ (input : List Byte) (s : State),
    (writeLoop input 0 s).1 ≤ input.length ∧
    ((writeLoop input 0 s).1 < input.length →
      ∃ c seq, input[(writeLoop input 0 s).1]? = some c ∧ translateByte c = some seq ∧
        freeCapacity (writeLoop input 0 s).2 < seq.length) ∧
    (writeLoop input 0 s).2.occupancy =
      s.occupancy + (encodeText (input.take (writeLoop input 0 s).1)).length

/-- 42_encoder_service.md R165 and 60_exceptions.md R194: exactly two cases consume nothing, these alone raise NoProgress
and give its status, and in both the buffer is unchanged. -/
def Obligations.NoProgressExactlyWhenNothingIsConsumed : Prop :=
  ∀ (input : List Byte) (s : State),
    ((writeLoop input 0 s).1 = 0 ↔
      input = [] ∨ ∃ c rest, input = c :: rest ∧ supported c = true ∧
        s.capacity - s.occupancy < (sequenceFor c).length) ∧
    (writeCondition (writeLoop input 0 s).1 = some .noProgress ↔ (writeLoop input 0 s).1 = 0) ∧
    (statusOf (writeCondition (writeLoop input 0 s).1) = .noProgress ↔ (writeLoop input 0 s).1 = 0) ∧
    ((writeLoop input 0 s).1 = 0 → (writeLoop input 0 s).2 = s)

/-- 42_encoder_service.md R170 and 10_state.md R28: what a WRITE adds to `Q` is the sequences of the supported bytes it
consumed, in order; with no rejection, of the whole input. -/
def Obligations.WriteAppendsTheEncodedText : Prop :=
  ∀ (input : List Byte) (s : State), RegistersInRange s → CursorsConsistent s →
    queue (writeLoop input 0 s).2 = queue s ++ encodeText (input.take (writeLoop input 0 s).1) ∧
    ((writeLoop input 0 s).1 = input.length → queue (writeLoop input 0 s).2 = queue s ++ encodeText input) ∧
    RegistersInRange (writeLoop input 0 s).2 ∧ CursorsConsistent (writeLoop input 0 s).2

/-- 42_encoder_service.md R169: a WRITE cut into two chunks leaves the same state and the same total. -/
def Obligations.ChunkedWritesAgree : Prop :=
  ∀ (a b : List Byte) (s : State), (writeLoop a 0 s).1 = a.length →
    (writeLoop (a ++ b) 0 s).1 = a.length + (writeLoop b 0 (writeLoop a 0 s).2).1 ∧
    (writeLoop (a ++ b) 0 s).2 = (writeLoop b 0 (writeLoop a 0 s).2).2

/-- 70_reset_and_hazards.md R230 and R231: unsupported bytes are consumed in any state, a full buffer included, change
nothing, and leave no gap. -/
def Obligations.UnsupportedBytesAreSilent : Prop :=
  (∀ (input : List Byte) (s : State), (∀ c ∈ input, supported c = false) → writeLoop input 0 s = (input.length, s)) ∧
  ∀ a b : List Byte, encodeText (a ++ 0x20#8 :: b) = encodeText (a ++ b)

/-- 70_reset_and_hazards.md R229: an empty buffer of any legal capacity admits any one character. -/
def Obligations.EmptyBufferAdmitsAnyCharacter : Prop :=
  ∀ (c : Byte) (s : State), Config.LegalCapacity s.capacity → supported c = true → s.occupancy = 0 →
    (writeLoop [c] 0 s).1 = 1 ∧ (writeLoop [c] 0 s).2 = admitBytes (sequenceFor c) s

/-! ### Whole-machine rules -/

/-- 70_reset_and_hazards.md R221 (10_state.md R38): the registers, that no storage cell has a value, `Q`, `EMPTY` and
`FULL` after reset, for every legal capacity, and that the capacity of this hardware is 30 and legal (00_scope.md R5).
`w` is the MODEL's own parameter, the configuration (log 7). -/
def Obligations.ResetLeavesAnEmptyBuffer : Prop :=
  (∃ w, State.reset = State.resetWith w 30) ∧ Config.LegalCapacity 30 ∧
  ∀ w n, Config.LegalCapacity n →
    (State.resetWith w n).capacity = n ∧
    (State.resetWith w n).readCursor = 0 ∧ (State.resetWith w n).writeCursor = 0 ∧ (State.resetWith w n).occupancy = 0 ∧
    (∀ a, Memory.lookup (State.resetWith w n).storage a = none) ∧
    queue (State.resetWith w n) = [] ∧ isEmpty (State.resetWith w n) = true ∧ isFull (State.resetWith w n) = false ∧
    RegistersInRange (State.resetWith w n) ∧ CursorsConsistent (State.resetWith w n)

/-- 10_state.md R26: `EMPTY` and `FULL` are read off `occupancy`, never hold together, and the cursors cannot tell them
apart; an empty buffer gives no byte and a full one takes none. -/
def Obligations.EmptyAndFullAreToldByOccupancy : Prop :=
  (∀ s : State, (isEmpty s = true ↔ s.occupancy = 0) ∧ (isFull s = true ↔ s.occupancy = s.capacity) ∧
    (Config.LegalCapacity s.capacity → ¬(isEmpty s = true ∧ isFull s = true))) ∧
  ∀ s : State, RegistersInRange s → CursorsConsistent s →
    (isEmpty s = true ∨ isFull s = true → s.readCursor = s.writeCursor) ∧
    (isEmpty s = true → queue s = [] ∧ ∀ m, readCount m s = 0) ∧
    (isFull s = true → ∀ seq, seq ≠ [] → tryWrite seq s = (0, s))

/-- 41_ring_buffer.md R141: TRYWR and RBRD keep the ranges of R25 and the equation of R27, so every sequence of them from
reset has both, and no TRYWR of it admits a part of its candidate. -/
def Obligations.RingOperationsKeepTheInvariants : Prop :=
  (∀ s : State, RegistersInRange s → CursorsConsistent s →
    (∀ seq, ∃ t, exec (.tryWr seq) s = .next t ∧ RegistersInRange t ∧ CursorsConsistent t) ∧
    (∀ m, ∃ t, exec (.rbRd m) s = .next t ∧ RegistersInRange t ∧ CursorsConsistent t)) ∧
  ∀ w n, Config.LegalCapacity n →
    RegistersInRange (State.resetWith w n) ∧ CursorsConsistent (State.resetWith w n) ∧
    ∀ ops : List RingOp, RegistersInRange (ringRun ops (State.resetWith w n)).2.2 ∧
      CursorsConsistent (ringRun ops (State.resetWith w n)).2.2 ∧
      ∀ seq, (tryWrite seq (ringRun ops (State.resetWith w n)).2.2).1 = 0 ∨
        (tryWrite seq (ringRun ops (State.resetWith w n)).2.2).1 = seq.length

/-- The invariant holds after reset, of this hardware and of every legal capacity. -/
def Obligations.InvariantHoldsAtReset : Prop :=
  Inv State.reset ∧ ∀ w n, Config.LegalCapacity n → Inv (State.resetWith w n)

/-- 10_state.md R25, R27, R21 and 30_encoding.md R87: every step keeps the registers in range and consistent, storage
canonical, every unread byte written, a WRITE in progress inside its input, every response within its encoding, every port
without an outside silent (00_scope.md R11; log 7), and no empty WRITE waiting for a turn (70_reset_and_hazards.md R232;
log 6); and the capacity is legal and never changes (00_scope.md R5). -/
def Obligations.EveryStepKeepsTheInvariant : Prop :=
  ∀ s t : State, Inv s → step s = .next t → Inv t ∧ t.capacity = s.capacity

/-- 20_memory.md R62: first in, first out. Whatever ring operations are done, in whatever order, the bytes returned
followed by `Q` are the bytes that were in `Q` followed by those admitted. -/
def Obligations.FirstInFirstOut : Prop :=
  (∀ (ops : List RingOp) (s : State), RegistersInRange s → CursorsConsistent s →
    queue s ++ (ringRun ops s).1 = (ringRun ops s).2.1 ++ queue (ringRun ops s).2.2) ∧
  (∀ (w : Wiring) (n : Nat) (ops : List RingOp), Config.LegalCapacity n → (ringRun ops (State.resetWith w n)).1 =
    (ringRun ops (State.resetWith w n)).2.1 ++ queue (ringRun ops (State.resetWith w n)).2.2) ∧
  (∀ (seq : List Byte) (s : State), s.activePort = .bus →
    ∃ t, exec (.tryWr seq) s = .next t ∧ SameRegisters (afterRingOp (.tryWr seq) s) t ∧
      SameBytes (afterRingOp (.tryWr seq) s) t ∧
      OnlyAnswered .bus ⟨.ok, (admittedBy (.tryWr seq) s).length, []⟩ s t) ∧
  ∀ (m : Nat) (s : State), s.activePort = .bus →
    ∃ t, exec (.rbRd m) s = .next t ∧ SameRegisters (afterRingOp (.rbRd m) s) t ∧
      SameBytes (afterRingOp (.rbRd m) s) t ∧
      OnlyAnswered .bus ⟨.ok, (returnedBy (.rbRd m) s).length, returnedBy (.rbRd m) s⟩ s t

/-- 10_state.md R29 and 70_reset_and_hazards.md R234: where storage is changed only through WRITE, `Q` stays a suffix of
whole character sequences: in every step that does not find a TRYWR of the producer's own next on port `I`, so in every
step of the block behind its external ports, which takes no command there. The configurations, fixed for a run, are the
MODEL's form of 30_encoding.md R84 (log 7). -/
def Obligations.MorseStreamIsKept : Prop :=
  (∀ w n, IsMorseTail (queue (State.resetWith w n)) ∧ (State.resetWith w n).wiring = w) ∧
  ∀ s t : State, Inv s → IsMorseTail (queue s) →
    (s.wiring = .wholeBlock ∨ ∀ seq rest, decode (s.port .bus).inward ≠ .command (.tryWr seq) rest) →
    step s = .next t → t.wiring = s.wiring ∧ IsMorseTail (queue t)

/-- 10_state.md R29: such a `Q` holds dots, dashes and spaces only, and ends with a space. -/
def Obligations.MorseTailsEndWithASeparator : Prop :=
  ∀ q : List Byte, IsMorseTail q →
    (∀ b ∈ q, b = 0x2E#8 ∨ b = 0x2D#8 ∨ b = 0x20#8) ∧ (q ≠ [] → q.getLast? = some 0x20#8)

/-- 10_state.md R30: a turn of the producer moves no `readCursor` and never lowers `occupancy`; a turn of the consumer
moves no `writeCursor`, writes no byte, and never raises it. -/
def Obligations.EachAgentOwnsItsSide : Prop :=
  (∀ (s t : State) (events : List Event), s.script = .turn .producer :: events → step s = .next t →
    t.readCursor = s.readCursor ∧ s.occupancy ≤ t.occupancy) ∧
  (∀ (s t : State) (events : List Event), s.script = .turn .consumer :: events → step s = .next t →
    t.writeCursor = s.writeCursor ∧ SameBytes s t ∧ t.occupancy ≤ s.occupancy)

/-- 42_encoder_service.md R163 and 20_memory.md R56: a turn of the producer adds one character's whole sequence to `Q` or
nothing. -/
def Obligations.CharactersEnterWhole : Prop :=
  ∀ (s t : State) (events : List Event), Inv s → s.script = .turn .producer :: events → step s = .next t →
    queue t = queue s ∨ ∃ c, supported c = true ∧ queue t = queue s ++ sequenceFor c

/-- 20_memory.md R57 and R62: what a turn of the consumer takes from `Q` is exactly what it answers. It leaves `Q` and
answers no byte, or it takes the first `k` bytes of `Q` and answers those `k` bytes. -/
def Obligations.ConsumerGetsWhatLeavesTheQueue : Prop :=
  ∀ (s t : State) (events : List Event), Inv s → s.script = .turn .consumer :: events → step s = .next t →
    (queue t = queue s ∧ ∃ added : List Response, added.length ≤ 1 ∧ (∀ r ∈ added, r.payload = []) ∧
      (t.port .consumer).outward = (s.port .consumer).outward ++ added) ∨
    ∃ k, k ≤ s.occupancy ∧ queue t = (queue s).drop k ∧
      (t.port .consumer).outward = (s.port .consumer).outward ++ [⟨.ok, k, (queue s).take k⟩]

/-- 41_ring_buffer.md R142 and 70_reset_and_hazards.md R232: nothing blocks. Until shutdown every turn of a port the
outside reaches (log 7), every arrival there, and every step without an event is followed by a next state, in every
state. And 42_encoder_service.md R167: whatever came before, each of the seven operations is accepted on a port that
admits it and where nothing is in progress: its bytes arrive, and one turn takes it and answers it, or goes on with a WRITE
of more bytes. -/
def Obligations.NoOperationBlocks : Prop :=
  (∀ s : State, s.alive = true →
    (s.script = [] ∨ (∃ p events, s.script = .turn p :: events ∧ reached s p = true) ∨
      ∃ p bytes events, s.script = .arrive p bytes :: events ∧ reached s p = true) →
    ∃ t, step s = .next t) ∧
  ∀ (s : State) (i : Instr) (p : Port), s.alive = true → s.wiring = .everyPort → i.wellFormed = true →
    admits p i = true → (s.port p).inward = [] → s.writing = none →
    ∃ t, runSteps 2 (s.withScript [.arrive p (encode i), .turn p]) = .next t ∧ t.script = [] ∧
      t.wiring = .everyPort ∧ (t.port p).inward = [] ∧
      ((∃ input, i = .write input ∧ t.writing = some ⟨input, 1⟩ ∧ t.port p = s.port p) ∨
        t.writing = none ∧ ∃ r : Response, r.status ≠ .illegal ∧ (t.port p).outward = (s.port p).outward ++ [r])

/-- 20_memory.md R60 and 60_exceptions.md R199: a step the script does not direct is one a script would direct, for a
port that can step. -/
def Obligations.UndirectedStepIsSomePortsTurn : Prop :=
  ∀ s : State, s.alive = true → s.script = [] → readyPorts s ≠ [] →
    ∃ p k, portReady s p = true ∧ step s = step ({ s with freeChoices := k }.withScript [.turn p])

/-- 70_reset_and_hazards.md R235 and 30_encoding.md R86: with no event and nothing whole waiting, the machine waits. -/
def Obligations.QuiescentMachineWaits : Prop :=
  (∀ s : State, quiescent s = true ↔
    ∀ p, reached s p = true →
      decode (s.port p).inward = .incomplete ∧ (p = .producer → s.writing = none)) ∧
  ∀ s : State, s.alive = true → s.script = [] → quiescent s = true → step s = .next s

/-- 30_encoding.md R80: bytes that arrive at a port the outside reaches join the end of its stream and change nothing
else. An empty WRITE that they complete, with nothing before it, is answered at once, since it takes no step of the producer
(70_reset_and_hazards.md R232; that the arrival answers it is the MODEL's choice, log 6). -/
def Obligations.ArrivalAppendsToItsPort : Prop :=
  ∀ (s : State) (p : Port) (bytes : List Byte) (events : List Event), s.alive = true →
    s.script = .arrive p bytes :: events → reached s p = true →
    ∃ u t, step s = .next t ∧ EmptyWritesLeave p u t ∧ (u.port p).inward = (s.port p).inward ++ bytes ∧
      (u.port p).outward = (s.port p).outward ∧ (∀ q, q ≠ p → u.port q = s.port q) ∧
      SameRegisters s u ∧ SameBytes s u ∧ u.writing = s.writing ∧ u.alive = true ∧ u.capacity = s.capacity ∧
      u.wiring = s.wiring ∧ u.activePort = s.activePort ∧ u.script = events ∧ u.freeChoices = s.freeChoices

/-- 70_reset_and_hazards.md R223: shutdown is admitted only where no command is in progress, and nothing follows it. -/
def Obligations.ShutdownEndsTheRun : Prop :=
  (∀ (s : State) (events : List Event), s.alive = true → s.script = .shutdown :: events → quiescent s = true →
    step s = .next { s with script := events, alive := false }) ∧
  (∀ (s : State) (events : List Event), s.alive = true → s.script = .shutdown :: events → quiescent s = false →
    step s = .refused .shutdownInProgress) ∧
  ∀ s : State, s.alive = false → step s = .refused .afterShutdown

/-- 60_exceptions.md R204 and 00_scope.md R11: a second WRITE inside a first has no meaning, and no step of the machine
comes to it. A TRYWR of the producer's own waits while its WRITE is in progress: a turn of port `I` that finds one changes
nothing but the turn. An event at a port the outside does not reach is refused, so no command from outside runs on port
`I` of the block behind its external ports. Both are the MODEL's form of 30_encoding.md R84 (log 7). -/
def Obligations.SecondProducerIsRefused : Prop :=
  (∀ (input : List Byte) (s : State) (w : WriteProgress), s.activePort = .producer → s.writing = some w →
    exec (.write input) s = .refused .secondProducer) ∧
  (∀ s : State, step s ≠ .refused .secondProducer) ∧
  (∀ (s : State) (seq rest : List Byte) (events : List Event), s.alive = true → s.script = .turn .bus :: events →
    reached s .bus = true → s.writing.isSome = true → decode (s.port .bus).inward = .command (.tryWr seq) rest →
    step s = .next (s.withScript events)) ∧
  (∀ (s : State) (p : Port) (events : List Event), s.alive = true → reached s p = false →
    (s.script = .turn p :: events ∨ ∃ bytes, s.script = .arrive p bytes :: events) →
    step s = .refused .unreachedPort) ∧
  ∀ s t : State, step s = .next t → t.wiring = s.wiring ∧
    (s.wiring = .wholeBlock → t.portI.inward = s.portI.inward) ∧
    (s.wiring = .ringAlone → t.portP = s.portP ∧ t.portC = s.portC ∧ t.writing = s.writing)

/-- 10_state.md R37: counters of `W` bits with cursors of their own give every result the record gives when `2 ^ W > N`;
and a cursor read off a counter, its value `mod N`, survives the wrap exactly when `N` divides `2 ^ W`. -/
def Obligations.FiniteCountersAgreeWithTheRecord : Prop :=
  (∀ (width : Nat) (b : WrappedRing width) (s : State), s.capacity < 2 ^ width → b.occupancy ≤ s.capacity →
    (∀ seq, tryWrite seq (wrappedView b s) =
        ((wrappedTryWrite s.capacity seq b).1, wrappedView (wrappedTryWrite s.capacity seq b).2 s) ∧
      (wrappedTryWrite s.capacity seq b).2.totalRead = b.totalRead ∧
      (wrappedTryWrite s.capacity seq b).2.readCursor = b.readCursor ∧
      (wrappedTryWrite s.capacity seq b).2.occupancy ≤ s.capacity) ∧
    ∀ m, ringRead m (wrappedView b s) = ((wrappedRead s.capacity m b).1, wrappedView (wrappedRead s.capacity m b).2 s) ∧
      (wrappedRead s.capacity m b).2.totalWritten = b.totalWritten ∧
      (wrappedRead s.capacity m b).2.writeCursor = b.writeCursor ∧
      (wrappedRead s.capacity m b).2.occupancy ≤ s.capacity) ∧
  ∀ width n : Nat,
    (∀ total : Nat, (BitVec.ofNat width total).toNat % n = total % n) ↔ n ∣ 2 ^ width

/-- 10_state.md R37 and 20_memory.md R64: the two counters give every result the record gives, and finite counters give
the same occupancy when they can hold more than `N`. -/
def Obligations.CountersAgreeWithTheRecord : Prop :=
  ∀ (b : CounterRing) (s : State), b.totalRead ≤ b.totalWritten → b.totalWritten ≤ b.totalRead + s.capacity →
    (∀ seq, tryWrite seq (counterView b s) =
      ((counterTryWrite s.capacity seq b).1, counterView (counterTryWrite s.capacity seq b).2 s)) ∧
    (∀ m, ringRead m (counterView b s) = ((counterRead s.capacity m b).1, counterView (counterRead s.capacity m b).2 s)) ∧
    (∀ seq, (counterTryWrite s.capacity seq b).2.totalRead = b.totalRead ∧
      (counterTryWrite s.capacity seq b).2.totalRead ≤ (counterTryWrite s.capacity seq b).2.totalWritten ∧
      (counterTryWrite s.capacity seq b).2.totalWritten ≤ (counterTryWrite s.capacity seq b).2.totalRead + s.capacity) ∧
    (∀ m, (counterRead s.capacity m b).2.totalWritten = b.totalWritten ∧
      (counterRead s.capacity m b).2.totalRead ≤ (counterRead s.capacity m b).2.totalWritten ∧
      (counterRead s.capacity m b).2.totalWritten ≤ (counterRead s.capacity m b).2.totalRead + s.capacity) ∧
    ∀ width, s.capacity < 2 ^ width → wrappedOccupancy width b = counterOccupancy b

/-- 10_state.md R27 and 41_ring_buffer.md R141: every register state that meets the invariants is reached from reset by
ring operations, whatever the capacity (test vector D34). -/
def Obligations.EveryConsistentRegisterStateIsReached : Prop :=
  ∀ w n rc occ, rc < n → occ ≤ n →
    ∃ ops : List RingOp, (ringRun ops (State.resetWith w n)).2.2.readCursor = rc ∧
      (ringRun ops (State.resetWith w n)).2.2.occupancy = occ ∧
      (ringRun ops (State.resetWith w n)).2.2.writeCursor = (rc + occ) % n
end

