-- ==== Sys2Proof/Laws/Memory.lean ====
section
/-! SUPPORT. Laws of STORAGE: a read after a write, the cells a store touches and those it leaves, and the canonical
form, which every memory operation keeps. -/

namespace Sys2Proof.Machine

/-- Two numbers less than `n` apart leave different remainders modulo `n`. -/
theorem mod_ne_of_lt {n i j : Nat} (hij : i < j) (hj : j < i + n) : j % n ≠ i % n := fun h => by
  have hdvd : n ∣ j - i := Nat.dvd_of_mod_eq_zero (Nat.sub_mod_eq_zero_of_mod_eq h)
  have := Nat.le_of_dvd (by omega) hdvd
  omega

@[simp] theorem Memory.lookup_nil (a : Nat) : Memory.lookup [] a = none := rfl

/-- A write gives its cell the value written and leaves every other cell. -/
theorem Memory.lookup_write (m : Memory) (a : Nat) (v : Byte) (x : Nat) :
    Memory.lookup (Memory.write m a v) x = if x = a then some v else Memory.lookup m x := by
  induction m with
  | nil => simp [Memory.write, Memory.lookup, eq_comm]
  | cons cell rest ih =>
    obtain ⟨index, value⟩ := cell
    simp only [Memory.write]
    split
    · simp [Memory.lookup, eq_comm]
    · split
      · next heq => subst heq; simp only [Memory.lookup]; split <;> simp_all [eq_comm]
      · next hne =>
        simp only [Memory.lookup, ih]
        by_cases hx : index = x
        · subst hx; simp [Ne.symm hne]
        · simp [hx]

@[simp] theorem Memory.read_write_same (m : Memory) (a : Nat) (v : Byte) :
    Memory.read (Memory.write m a v) a = v := by
  simp [Memory.read, Memory.lookup_write]

theorem Memory.read_write_other (m : Memory) {a x : Nat} (v : Byte) (h : x ≠ a) :
    Memory.read (Memory.write m a v) x = Memory.read m x := by
  simp [Memory.read, Memory.lookup_write, h]

theorem Memory.wf_iff (n : Nat) (m : Memory) :
    Memory.wf n m = true ↔ m.Pairwise (fun x y => x.1 < y.1) ∧ ∀ x ∈ m, x.1 < n := by
  simp [Memory.wf]

theorem Memory.mem_write {m : Memory} {a : Nat} {v : Byte} {x : Host.Cell} (h : x ∈ Memory.write m a v) :
    x = (a, v) ∨ x ∈ m := by
  induction m with
  | nil => simpa [Memory.write] using h
  | cons cell rest ih =>
    obtain ⟨index, value⟩ := cell
    simp only [Memory.write] at h
    split at h
    · simpa using h
    · split at h
      · rcases List.mem_cons.1 h with h | h
        · exact .inl h
        · exact .inr (List.mem_cons_of_mem _ h)
      · rcases List.mem_cons.1 h with h | h
        · exact .inr (by simp [h])
        · rcases ih h with h | h
          · exact .inl h
          · exact .inr (List.mem_cons_of_mem _ h)

/-- A write inside the address space keeps the canonical form. -/
theorem Memory.wf_write {n : Nat} {m : Memory} {a : Nat} (v : Byte) (hm : Memory.wf n m = true) (ha : a < n) :
    Memory.wf n (Memory.write m a v) = true := by
  rw [Memory.wf_iff] at hm ⊢
  refine ⟨?_, fun x hx => ?_⟩
  · obtain ⟨hp, -⟩ := hm
    induction m with
    | nil => simp [Memory.write]
    | cons cell rest ih =>
      obtain ⟨index, value⟩ := cell
      obtain ⟨hhead, htail⟩ := List.pairwise_cons.1 hp
      simp only [Memory.write]
      split
      · next hlt =>
        refine List.pairwise_cons.2 ⟨fun y hy => ?_, hp⟩
        rcases List.mem_cons.1 hy with rfl | hy
        · exact hlt
        · exact Nat.lt_trans hlt (hhead y hy)
      · split
        · next heq => subst heq; exact List.pairwise_cons.2 ⟨hhead, htail⟩
        · next hle hne =>
          refine List.pairwise_cons.2 ⟨fun y hy => ?_, ih htail⟩
          rcases Memory.mem_write hy with rfl | hy
          · simp only; omega
          · exact hhead y hy
  · rcases Memory.mem_write hx with rfl | hx
    · exact ha
    · exact hm.2 x hx

/-- A store keeps the canonical form, wherever it starts. -/
theorem Memory.wf_store {n : Nat} {m : Memory} (hn : 0 < n) (a : Nat) (bytes : List Byte) (hm : Memory.wf n m = true) :
    Memory.wf n (Memory.store n m a bytes) = true := by
  induction bytes generalizing m a with
  | nil => exact hm
  | cons b rest ih => exact ih (a + 1) (Memory.wf_write b hm (Nat.mod_lt _ hn))

/-- A cell that is none of the cells a store writes keeps its value. -/
theorem Memory.lookup_store_other (n : Nat) (m : Memory) (a : Nat) (bytes : List Byte) (x : Nat)
    (h : ∀ j < bytes.length, (a + j) % n ≠ x) :
    Memory.lookup (Memory.store n m a bytes) x = Memory.lookup m x := by
  induction bytes generalizing m a with
  | nil => rfl
  | cons b rest ih =>
    have h0 : a % n ≠ x := by simpa using h 0 (by simp)
    rw [Memory.store, ih _ _ (fun j hj => ?_), Memory.lookup_write, if_neg (Ne.symm h0)]
    have := h (j + 1) (by simpa using hj)
    rwa [show a + (j + 1) = a + 1 + j by omega] at this

/-- Byte `j` of a store of at most `N` bytes is found at `(a + j) mod N`. -/
theorem Memory.lookup_store_at (n : Nat) (m : Memory) (a : Nat) (bytes : List Byte) (hlen : bytes.length ≤ n)
    (j : Nat) (hj : j < bytes.length) :
    Memory.lookup (Memory.store n m a bytes) ((a + j) % n) = some bytes[j] := by
  induction bytes generalizing m a j with
  | nil => exact absurd hj (by simp)
  | cons b rest ih =>
    simp only [List.length_cons] at hlen hj
    cases j with
    | zero =>
      rw [Memory.store, Memory.lookup_store_other _ _ _ _ _ (fun k hk => ?_), Memory.lookup_write, if_pos (by simp)]
      · rfl
      · exact mod_ne_of_lt (by omega) (by omega)
    | succ k =>
      rw [Memory.store, show a + (k + 1) = a + 1 + k by omega, ih _ (a + 1) (by omega) k (by omega)]
      rfl

theorem Memory.read_store_other (n : Nat) (m : Memory) (a : Nat) (bytes : List Byte) (x : Nat)
    (h : ∀ j < bytes.length, (a + j) % n ≠ x) :
    Memory.read (Memory.store n m a bytes) x = Memory.read m x := by
  simp [Memory.read, Memory.lookup_store_other n m a bytes x h]

theorem Memory.read_store_at (n : Nat) (m : Memory) (a : Nat) (bytes : List Byte) (hlen : bytes.length ≤ n)
    (j : Nat) (hj : j < bytes.length) :
    Memory.read (Memory.store n m a bytes) ((a + j) % n) = bytes[j] := by
  simp [Memory.read, Memory.lookup_store_at n m a bytes hlen j hj]

/-- A store never takes a cell's value away. -/
theorem Memory.isSome_lookup_store (n : Nat) (m : Memory) (a : Nat) (bytes : List Byte) (x : Nat)
    (h : (Memory.lookup m x).isSome) : (Memory.lookup (Memory.store n m a bytes) x).isSome := by
  induction bytes generalizing m a with
  | nil => exact h
  | cons b rest ih =>
    refine ih _ _ ?_
    rw [Memory.lookup_write]
    split
    · rfl
    · exact h

@[simp] theorem Memory.length_fetch (m : Memory) (a k : Nat) : (Memory.fetch m a k).length = k := by
  simp [Memory.fetch]

theorem Memory.lookup_of_mem {m : Memory} (hm : m.Pairwise fun x y => x.1 < y.1) {a : Nat} {v : Byte}
    (h : (a, v) ∈ m) : Memory.lookup m a = some v := by
  induction m with
  | nil => exact absurd h (by simp)
  | cons cell rest ih =>
    obtain ⟨index, value⟩ := cell
    obtain ⟨hhead, htail⟩ := List.pairwise_cons.1 hm
    rcases List.mem_cons.1 h with h | h
    · cases h; simp [Memory.lookup]
    · have : index ≠ a := Nat.ne_of_lt (hhead _ h)
      simp [Memory.lookup, this, ih htail h]

theorem Memory.mem_of_lookup {m : Memory} {a : Nat} {v : Byte} (h : Memory.lookup m a = some v) : (a, v) ∈ m := by
  induction m with
  | nil => exact absurd h (by simp)
  | cons cell rest ih =>
    obtain ⟨index, value⟩ := cell
    simp only [Memory.lookup] at h
    split at h
    · next heq => subst heq; cases h; simp
    · exact List.mem_cons_of_mem _ (ih h)

/-- Two memories in canonical form that hold the same cells are the same list. -/
theorem Memory.eq_of_lookup_eq {n : Nat} {m₁ m₂ : Memory} (h₁ : Memory.wf n m₁ = true) (h₂ : Memory.wf n m₂ = true)
    (h : ∀ a, Memory.lookup m₁ a = Memory.lookup m₂ a) : m₁ = m₂ := by
  obtain ⟨p₁, -⟩ := (Memory.wf_iff _ _).1 h₁
  obtain ⟨p₂, -⟩ := (Memory.wf_iff _ _).1 h₂
  have sub : ∀ {a b : Memory}, a.Pairwise (fun x y => x.1 < y.1) → (∀ x, Memory.lookup a x = Memory.lookup b x) →
      ∀ c, c ∈ a → c ∈ b := fun hp hl c hc =>
    Memory.mem_of_lookup (by rw [← hl]; exact Memory.lookup_of_mem hp hc)
  refine List.Perm.eq_of_pairwise (le := fun x y => x.1 < y.1) (fun x y _ _ hxy hyx => absurd hxy (by omega)) p₁ p₂ ?_
  refine (List.perm_ext_iff_of_nodup ?_ ?_).2 fun c => ⟨sub p₁ h c, sub p₂ (fun x => (h x).symm) c⟩
  · exact p₁.imp fun hlt heq => by subst heq; omega
  · exact p₂.imp fun hlt heq => by subst heq; omega

end Sys2Proof.Machine
end

