-- ==== Sys2Proof/Laws/State.lean ====
section
/-! SUPPORT. What each named update of the state leaves in each field, so that no later proof unfolds a record update. -/

namespace Sys2Proof.Machine

/-! ### After reset -/

@[simp] theorem resetWith_capacity (w : Wiring) (n : Nat) : (State.resetWith w n).capacity = n := rfl

@[simp] theorem resetWith_storage (w : Wiring) (n : Nat) : (State.resetWith w n).storage = [] := rfl

@[simp] theorem resetWith_readCursor (w : Wiring) (n : Nat) : (State.resetWith w n).readCursor = 0 := rfl

@[simp] theorem resetWith_writeCursor (w : Wiring) (n : Nat) : (State.resetWith w n).writeCursor = 0 := rfl

@[simp] theorem resetWith_occupancy (w : Wiring) (n : Nat) : (State.resetWith w n).occupancy = 0 := rfl

@[simp] theorem resetWith_writing (w : Wiring) (n : Nat) : (State.resetWith w n).writing = none := rfl

@[simp] theorem resetWith_alive (w : Wiring) (n : Nat) : (State.resetWith w n).alive = true := rfl

@[simp] theorem resetWith_wiring (w : Wiring) (n : Nat) : (State.resetWith w n).wiring = w := rfl

@[simp] theorem resetWith_activePort (w : Wiring) (n : Nat) : (State.resetWith w n).activePort = .producer := rfl

@[simp] theorem resetWith_script (w : Wiring) (n : Nat) : (State.resetWith w n).script = [] := rfl

@[simp] theorem resetWith_freeChoices (w : Wiring) (n : Nat) : (State.resetWith w n).freeChoices = 0 := rfl

@[simp] theorem resetWith_port (w : Wiring) (n : Nat) (p : Port) : (State.resetWith w n).port p = ⟨[], []⟩ := by cases p <;> rfl

/-! ### The streams of a port -/

@[simp] theorem setPort_storage (s : State) (p : Port) (x : PortStreams) :
    (s.setPort p x).storage = s.storage := by cases p <;> rfl

@[simp] theorem setPort_readCursor (s : State) (p : Port) (x : PortStreams) :
    (s.setPort p x).readCursor = s.readCursor := by cases p <;> rfl

@[simp] theorem setPort_writeCursor (s : State) (p : Port) (x : PortStreams) :
    (s.setPort p x).writeCursor = s.writeCursor := by cases p <;> rfl

@[simp] theorem setPort_occupancy (s : State) (p : Port) (x : PortStreams) :
    (s.setPort p x).occupancy = s.occupancy := by cases p <;> rfl

@[simp] theorem setPort_writing (s : State) (p : Port) (x : PortStreams) :
    (s.setPort p x).writing = s.writing := by cases p <;> rfl

@[simp] theorem setPort_alive (s : State) (p : Port) (x : PortStreams) :
    (s.setPort p x).alive = s.alive := by cases p <;> rfl

@[simp] theorem setPort_activePort (s : State) (p : Port) (x : PortStreams) :
    (s.setPort p x).activePort = s.activePort := by cases p <;> rfl

@[simp] theorem setPort_script (s : State) (p : Port) (x : PortStreams) :
    (s.setPort p x).script = s.script := by cases p <;> rfl

@[simp] theorem setPort_freeChoices (s : State) (p : Port) (x : PortStreams) :
    (s.setPort p x).freeChoices = s.freeChoices := by cases p <;> rfl

@[simp] theorem setPort_wiring (s : State) (p : Port) (x : PortStreams) :
    (s.setPort p x).wiring = s.wiring := by cases p <;> rfl

@[simp] theorem setPort_capacity (s : State) (p : Port) (x : PortStreams) :
    (s.setPort p x).capacity = s.capacity := by cases p <;> rfl

@[simp] theorem port_setPort_same (s : State) (p : Port) (x : PortStreams) : (s.setPort p x).port p = x := by
  cases p <;> rfl

theorem port_setPort_other (s : State) {p q : Port} (x : PortStreams) (h : q ≠ p) :
    (s.setPort p x).port q = s.port q := by
  cases p <;> cases q <;> first | rfl | exact absurd rfl h

theorem port_setPort (s : State) (p q : Port) (x : PortStreams) :
    (s.setPort p x).port q = if q = p then x else s.port q := by
  split
  · next h => subst h; simp
  · next h => exact port_setPort_other s x h

/-! ### Another script -/

@[simp] theorem withScript_storage (s : State) (events : List Event) :
    (s.withScript events).storage = s.storage := rfl

@[simp] theorem withScript_readCursor (s : State) (events : List Event) :
    (s.withScript events).readCursor = s.readCursor := rfl

@[simp] theorem withScript_writeCursor (s : State) (events : List Event) :
    (s.withScript events).writeCursor = s.writeCursor := rfl

@[simp] theorem withScript_occupancy (s : State) (events : List Event) :
    (s.withScript events).occupancy = s.occupancy := rfl

@[simp] theorem withScript_writing (s : State) (events : List Event) :
    (s.withScript events).writing = s.writing := rfl

@[simp] theorem withScript_alive (s : State) (events : List Event) :
    (s.withScript events).alive = s.alive := rfl

@[simp] theorem withScript_activePort (s : State) (events : List Event) :
    (s.withScript events).activePort = s.activePort := rfl

@[simp] theorem withScript_script (s : State) (events : List Event) :
    (s.withScript events).script = events := rfl

@[simp] theorem withScript_freeChoices (s : State) (events : List Event) :
    (s.withScript events).freeChoices = s.freeChoices := rfl

@[simp] theorem withScript_wiring (s : State) (events : List Event) :
    (s.withScript events).wiring = s.wiring := rfl

@[simp] theorem withScript_capacity (s : State) (events : List Event) :
    (s.withScript events).capacity = s.capacity := rfl

@[simp] theorem withScript_port (s : State) (events : List Event) (q : Port) :
    (s.withScript events).port q = s.port q := by
  cases q <;> rfl

/-! ### Another running port -/

@[simp] theorem withActivePort_storage (s : State) (p : Port) :
    (s.withActivePort p).storage = s.storage := rfl

@[simp] theorem withActivePort_readCursor (s : State) (p : Port) :
    (s.withActivePort p).readCursor = s.readCursor := rfl

@[simp] theorem withActivePort_writeCursor (s : State) (p : Port) :
    (s.withActivePort p).writeCursor = s.writeCursor := rfl

@[simp] theorem withActivePort_occupancy (s : State) (p : Port) :
    (s.withActivePort p).occupancy = s.occupancy := rfl

@[simp] theorem withActivePort_writing (s : State) (p : Port) :
    (s.withActivePort p).writing = s.writing := rfl

@[simp] theorem withActivePort_alive (s : State) (p : Port) :
    (s.withActivePort p).alive = s.alive := rfl

@[simp] theorem withActivePort_activePort (s : State) (p : Port) :
    (s.withActivePort p).activePort = p := rfl

@[simp] theorem withActivePort_script (s : State) (p : Port) :
    (s.withActivePort p).script = s.script := rfl

@[simp] theorem withActivePort_freeChoices (s : State) (p : Port) :
    (s.withActivePort p).freeChoices = s.freeChoices := rfl

@[simp] theorem withActivePort_wiring (s : State) (p : Port) :
    (s.withActivePort p).wiring = s.wiring := rfl

@[simp] theorem withActivePort_capacity (s : State) (p : Port) :
    (s.withActivePort p).capacity = s.capacity := rfl

@[simp] theorem withActivePort_port (s : State) (p : Port) (q : Port) :
    (s.withActivePort p).port q = s.port q := by
  cases q <;> rfl

/-! ### A choice taken -/

@[simp] theorem choiceTaken_storage (s : State) :
    (s.choiceTaken).storage = s.storage := rfl

@[simp] theorem choiceTaken_readCursor (s : State) :
    (s.choiceTaken).readCursor = s.readCursor := rfl

@[simp] theorem choiceTaken_writeCursor (s : State) :
    (s.choiceTaken).writeCursor = s.writeCursor := rfl

@[simp] theorem choiceTaken_occupancy (s : State) :
    (s.choiceTaken).occupancy = s.occupancy := rfl

@[simp] theorem choiceTaken_writing (s : State) :
    (s.choiceTaken).writing = s.writing := rfl

@[simp] theorem choiceTaken_alive (s : State) :
    (s.choiceTaken).alive = s.alive := rfl

@[simp] theorem choiceTaken_wiring (s : State) :
    (s.choiceTaken).wiring = s.wiring := rfl

@[simp] theorem choiceTaken_capacity (s : State) :
    (s.choiceTaken).capacity = s.capacity := rfl

@[simp] theorem choiceTaken_activePort (s : State) :
    (s.choiceTaken).activePort = s.activePort := rfl

@[simp] theorem choiceTaken_script (s : State) :
    (s.choiceTaken).script = s.script := rfl

@[simp] theorem choiceTaken_freeChoices (s : State) :
    (s.choiceTaken).freeChoices = s.freeChoices + 1 := rfl

@[simp] theorem choiceTaken_port (s : State) (q : Port) :
    (s.choiceTaken).port q = s.port q := by
  cases q <;> rfl

/-! ### Giving a response -/

@[simp] theorem respondOn_storage (p : Port) (r : Response) (s : State) :
    (respondOn p r s).storage = s.storage := by simp [respondOn]

@[simp] theorem respondOn_readCursor (p : Port) (r : Response) (s : State) :
    (respondOn p r s).readCursor = s.readCursor := by simp [respondOn]

@[simp] theorem respondOn_writeCursor (p : Port) (r : Response) (s : State) :
    (respondOn p r s).writeCursor = s.writeCursor := by simp [respondOn]

@[simp] theorem respondOn_occupancy (p : Port) (r : Response) (s : State) :
    (respondOn p r s).occupancy = s.occupancy := by simp [respondOn]

@[simp] theorem respondOn_writing (p : Port) (r : Response) (s : State) :
    (respondOn p r s).writing = s.writing := by simp [respondOn]

@[simp] theorem respondOn_alive (p : Port) (r : Response) (s : State) :
    (respondOn p r s).alive = s.alive := by simp [respondOn]

@[simp] theorem respondOn_activePort (p : Port) (r : Response) (s : State) :
    (respondOn p r s).activePort = s.activePort := by simp [respondOn]

@[simp] theorem respondOn_script (p : Port) (r : Response) (s : State) :
    (respondOn p r s).script = s.script := by simp [respondOn]

@[simp] theorem respondOn_freeChoices (p : Port) (r : Response) (s : State) :
    (respondOn p r s).freeChoices = s.freeChoices := by simp [respondOn]

@[simp] theorem respondOn_wiring (p : Port) (r : Response) (s : State) :
    (respondOn p r s).wiring = s.wiring := by simp [respondOn]

@[simp] theorem respondOn_capacity (p : Port) (r : Response) (s : State) :
    (respondOn p r s).capacity = s.capacity := by simp [respondOn]

@[simp] theorem respondOn_port_same (p : Port) (r : Response) (s : State) :
    (respondOn p r s).port p = { s.port p with outward := (s.port p).outward ++ [r] } := by
  simp [respondOn]

theorem respondOn_port_other {p q : Port} (r : Response) (s : State) (h : q ≠ p) :
    (respondOn p r s).port q = s.port q := port_setPort_other s _ h

@[simp] theorem respondOn_inward (p : Port) (r : Response) (s : State) (q : Port) :
    ((respondOn p r s).port q).inward = (s.port q).inward := by
  by_cases h : q = p
  · subst h; simp
  · rw [respondOn_port_other r s h]

/-! ### Answering the command being run -/

@[simp] theorem answer_storage (c : Option Condition) (n : Nat) (bytes : List Byte) (s : State) :
    (answer c n bytes s).storage = s.storage := by simp [answer]

@[simp] theorem answer_readCursor (c : Option Condition) (n : Nat) (bytes : List Byte) (s : State) :
    (answer c n bytes s).readCursor = s.readCursor := by simp [answer]

@[simp] theorem answer_writeCursor (c : Option Condition) (n : Nat) (bytes : List Byte) (s : State) :
    (answer c n bytes s).writeCursor = s.writeCursor := by simp [answer]

@[simp] theorem answer_occupancy (c : Option Condition) (n : Nat) (bytes : List Byte) (s : State) :
    (answer c n bytes s).occupancy = s.occupancy := by simp [answer]

@[simp] theorem answer_writing (c : Option Condition) (n : Nat) (bytes : List Byte) (s : State) :
    (answer c n bytes s).writing = s.writing := by simp [answer]

@[simp] theorem answer_alive (c : Option Condition) (n : Nat) (bytes : List Byte) (s : State) :
    (answer c n bytes s).alive = s.alive := by simp [answer]

@[simp] theorem answer_activePort (c : Option Condition) (n : Nat) (bytes : List Byte) (s : State) :
    (answer c n bytes s).activePort = s.activePort := by simp [answer]

@[simp] theorem answer_script (c : Option Condition) (n : Nat) (bytes : List Byte) (s : State) :
    (answer c n bytes s).script = s.script := by simp [answer]

@[simp] theorem answer_freeChoices (c : Option Condition) (n : Nat) (bytes : List Byte) (s : State) :
    (answer c n bytes s).freeChoices = s.freeChoices := by simp [answer]

@[simp] theorem answer_wiring (c : Option Condition) (n : Nat) (bytes : List Byte) (s : State) :
    (answer c n bytes s).wiring = s.wiring := by simp [answer]

@[simp] theorem answer_capacity (c : Option Condition) (n : Nat) (bytes : List Byte) (s : State) :
    (answer c n bytes s).capacity = s.capacity := by simp [answer]

@[simp] theorem answer_inward (c : Option Condition) (n : Nat) (bytes : List Byte) (s : State) (q : Port) :
    ((answer c n bytes s).port q).inward = (s.port q).inward := by
  simp [answer]

theorem answer_port_same (c : Option Condition) (n : Nat) (bytes : List Byte) (s : State) :
    (answer c n bytes s).port s.activePort =
      { s.port s.activePort with
        outward := (s.port s.activePort).outward ++ [⟨statusOf c, n, bytes⟩] } := by
  simp [answer]

theorem answer_port_other (c : Option Condition) (n : Nat) (bytes : List Byte) (s : State) {q : Port}
    (h : q ≠ s.activePort) : (answer c n bytes s).port q = s.port q :=
  respondOn_port_other _ _ h

/-! ### Admitting a candidate -/

@[simp] theorem admit_storage (seq : List Byte) (s : State) :
    (admitBytes seq s).storage = Memory.store s.capacity s.storage s.writeCursor seq := rfl

@[simp] theorem admit_readCursor (seq : List Byte) (s : State) :
    (admitBytes seq s).readCursor = s.readCursor := rfl

@[simp] theorem admit_writeCursor (seq : List Byte) (s : State) :
    (admitBytes seq s).writeCursor = advanceCursor s.capacity s.writeCursor seq.length := rfl

@[simp] theorem admit_occupancy (seq : List Byte) (s : State) :
    (admitBytes seq s).occupancy = s.occupancy + seq.length := rfl

@[simp] theorem admit_writing (seq : List Byte) (s : State) :
    (admitBytes seq s).writing = s.writing := rfl

@[simp] theorem admit_alive (seq : List Byte) (s : State) :
    (admitBytes seq s).alive = s.alive := rfl

@[simp] theorem admit_activePort (seq : List Byte) (s : State) :
    (admitBytes seq s).activePort = s.activePort := rfl

@[simp] theorem admit_script (seq : List Byte) (s : State) :
    (admitBytes seq s).script = s.script := rfl

@[simp] theorem admit_freeChoices (seq : List Byte) (s : State) :
    (admitBytes seq s).freeChoices = s.freeChoices := rfl

@[simp] theorem admit_wiring (seq : List Byte) (s : State) :
    (admitBytes seq s).wiring = s.wiring := rfl

@[simp] theorem admit_capacity (seq : List Byte) (s : State) :
    (admitBytes seq s).capacity = s.capacity := rfl

@[simp] theorem admit_port (seq : List Byte) (s : State) (p : Port) : (admitBytes seq s).port p = s.port p := by
  cases p <;> rfl

/-! ### Consuming bytes -/

@[simp] theorem consume_storage (k : Nat) (s : State) :
    (consume k s).storage = s.storage := rfl

@[simp] theorem consume_readCursor (k : Nat) (s : State) :
    (consume k s).readCursor = advanceCursor s.capacity s.readCursor k := rfl

@[simp] theorem consume_writeCursor (k : Nat) (s : State) :
    (consume k s).writeCursor = s.writeCursor := rfl

@[simp] theorem consume_occupancy (k : Nat) (s : State) :
    (consume k s).occupancy = s.occupancy - k := rfl

@[simp] theorem consume_writing (k : Nat) (s : State) :
    (consume k s).writing = s.writing := rfl

@[simp] theorem consume_alive (k : Nat) (s : State) :
    (consume k s).alive = s.alive := rfl

@[simp] theorem consume_activePort (k : Nat) (s : State) :
    (consume k s).activePort = s.activePort := rfl

@[simp] theorem consume_script (k : Nat) (s : State) :
    (consume k s).script = s.script := rfl

@[simp] theorem consume_freeChoices (k : Nat) (s : State) :
    (consume k s).freeChoices = s.freeChoices := rfl

@[simp] theorem consume_wiring (k : Nat) (s : State) :
    (consume k s).wiring = s.wiring := rfl

@[simp] theorem consume_capacity (k : Nat) (s : State) :
    (consume k s).capacity = s.capacity := rfl

@[simp] theorem consume_port (k : Nat) (s : State) (p : Port) : (consume k s).port p = s.port p := by
  cases p <;> rfl

/-! ### Fetching a command -/

@[simp] theorem fetched_storage (p : Port) (rest : List Byte) (s : State) :
    (fetched p rest s).storage = s.storage := by simp [fetched]

@[simp] theorem fetched_readCursor (p : Port) (rest : List Byte) (s : State) :
    (fetched p rest s).readCursor = s.readCursor := by simp [fetched]

@[simp] theorem fetched_writeCursor (p : Port) (rest : List Byte) (s : State) :
    (fetched p rest s).writeCursor = s.writeCursor := by simp [fetched]

@[simp] theorem fetched_occupancy (p : Port) (rest : List Byte) (s : State) :
    (fetched p rest s).occupancy = s.occupancy := by simp [fetched]

@[simp] theorem fetched_writing (p : Port) (rest : List Byte) (s : State) :
    (fetched p rest s).writing = s.writing := by simp [fetched]

@[simp] theorem fetched_alive (p : Port) (rest : List Byte) (s : State) :
    (fetched p rest s).alive = s.alive := by simp [fetched]

@[simp] theorem fetched_activePort (p : Port) (rest : List Byte) (s : State) :
    (fetched p rest s).activePort = p := rfl

@[simp] theorem fetched_script (p : Port) (rest : List Byte) (s : State) :
    (fetched p rest s).script = s.script := by simp [fetched]

@[simp] theorem fetched_freeChoices (p : Port) (rest : List Byte) (s : State) :
    (fetched p rest s).freeChoices = s.freeChoices := by simp [fetched]

@[simp] theorem fetched_wiring (p : Port) (rest : List Byte) (s : State) :
    (fetched p rest s).wiring = s.wiring := by simp [fetched]

@[simp] theorem fetched_capacity (p : Port) (rest : List Byte) (s : State) :
    (fetched p rest s).capacity = s.capacity := by simp [fetched]

theorem fetched_port (p : Port) (rest : List Byte) (s : State) (q : Port) :
    (fetched p rest s).port q = if q = p then { s.port p with inward := rest } else s.port q := by
  rw [fetched, withActivePort_port, port_setPort]

@[simp] theorem fetched_outward (p : Port) (rest : List Byte) (s : State) (q : Port) :
    ((fetched p rest s).port q).outward = (s.port q).outward := by
  rw [fetched_port]
  split
  · next h => subst h; rfl
  · rfl

/-! ### Bytes arriving -/

@[simp] theorem arriveAt_storage (p : Port) (bytes : List Byte) (s : State) :
    (arriveAt p bytes s).storage = s.storage := by simp [arriveAt]

@[simp] theorem arriveAt_readCursor (p : Port) (bytes : List Byte) (s : State) :
    (arriveAt p bytes s).readCursor = s.readCursor := by simp [arriveAt]

@[simp] theorem arriveAt_writeCursor (p : Port) (bytes : List Byte) (s : State) :
    (arriveAt p bytes s).writeCursor = s.writeCursor := by simp [arriveAt]

@[simp] theorem arriveAt_occupancy (p : Port) (bytes : List Byte) (s : State) :
    (arriveAt p bytes s).occupancy = s.occupancy := by simp [arriveAt]

@[simp] theorem arriveAt_writing (p : Port) (bytes : List Byte) (s : State) :
    (arriveAt p bytes s).writing = s.writing := by simp [arriveAt]

@[simp] theorem arriveAt_alive (p : Port) (bytes : List Byte) (s : State) :
    (arriveAt p bytes s).alive = s.alive := by simp [arriveAt]

@[simp] theorem arriveAt_activePort (p : Port) (bytes : List Byte) (s : State) :
    (arriveAt p bytes s).activePort = s.activePort := by simp [arriveAt]

@[simp] theorem arriveAt_script (p : Port) (bytes : List Byte) (s : State) :
    (arriveAt p bytes s).script = s.script := by simp [arriveAt]

@[simp] theorem arriveAt_freeChoices (p : Port) (bytes : List Byte) (s : State) :
    (arriveAt p bytes s).freeChoices = s.freeChoices := by simp [arriveAt]

@[simp] theorem arriveAt_wiring (p : Port) (bytes : List Byte) (s : State) :
    (arriveAt p bytes s).wiring = s.wiring := by simp [arriveAt]

@[simp] theorem arriveAt_capacity (p : Port) (bytes : List Byte) (s : State) :
    (arriveAt p bytes s).capacity = s.capacity := by simp [arriveAt]

theorem arriveAt_port (p : Port) (bytes : List Byte) (s : State) (q : Port) :
    (arriveAt p bytes s).port q =
      if q = p then { s.port p with inward := (s.port p).inward ++ bytes } else s.port q := by
  rw [arriveAt, port_setPort]

@[simp] theorem arriveAt_outward (p : Port) (bytes : List Byte) (s : State) (q : Port) :
    ((arriveAt p bytes s).port q).outward = (s.port q).outward := by
  rw [arriveAt_port]
  split
  · next h => subst h; rfl
  · rfl

/-! ### Ending a WRITE -/

@[simp] theorem finishWrite_storage (n : Nat) (s : State) :
    (finishWrite n s).storage = s.storage := by simp [finishWrite]

@[simp] theorem finishWrite_readCursor (n : Nat) (s : State) :
    (finishWrite n s).readCursor = s.readCursor := by simp [finishWrite]

@[simp] theorem finishWrite_writeCursor (n : Nat) (s : State) :
    (finishWrite n s).writeCursor = s.writeCursor := by simp [finishWrite]

@[simp] theorem finishWrite_occupancy (n : Nat) (s : State) :
    (finishWrite n s).occupancy = s.occupancy := by simp [finishWrite]

@[simp] theorem finishWrite_alive (n : Nat) (s : State) :
    (finishWrite n s).alive = s.alive := by simp [finishWrite]

@[simp] theorem finishWrite_activePort (n : Nat) (s : State) :
    (finishWrite n s).activePort = s.activePort := by simp [finishWrite]

@[simp] theorem finishWrite_script (n : Nat) (s : State) :
    (finishWrite n s).script = s.script := by simp [finishWrite]

@[simp] theorem finishWrite_freeChoices (n : Nat) (s : State) :
    (finishWrite n s).freeChoices = s.freeChoices := by simp [finishWrite]

@[simp] theorem finishWrite_wiring (n : Nat) (s : State) :
    (finishWrite n s).wiring = s.wiring := by simp [finishWrite]

@[simp] theorem finishWrite_capacity (n : Nat) (s : State) :
    (finishWrite n s).capacity = s.capacity := by simp [finishWrite]

@[simp] theorem finishWrite_writing (n : Nat) (s : State) : (finishWrite n s).writing = none := by simp [finishWrite]

theorem finishWrite_port_producer (n : Nat) (s : State) :
    (finishWrite n s).port .producer =
      { s.port .producer with
        outward := (s.port .producer).outward ++ [⟨statusOf (writeCondition n), n, []⟩] } := rfl

theorem finishWrite_port_other (n : Nat) (s : State) {q : Port} (h : q ≠ .producer) :
    (finishWrite n s).port q = s.port q := by
  cases q <;> first | rfl | exact absurd rfl h

@[simp] theorem finishWrite_inward (n : Nat) (s : State) (q : Port) :
    ((finishWrite n s).port q).inward = (s.port q).inward := by
  cases q <;> rfl

/-! ### Going on with a WRITE -/

@[simp] theorem continueWrite_storage (input : List Byte) (i : Nat) (s : State) :
    (continueWrite input i s).storage = s.storage := by
  unfold continueWrite; split <;> simp

@[simp] theorem continueWrite_readCursor (input : List Byte) (i : Nat) (s : State) :
    (continueWrite input i s).readCursor = s.readCursor := by
  unfold continueWrite; split <;> simp

@[simp] theorem continueWrite_writeCursor (input : List Byte) (i : Nat) (s : State) :
    (continueWrite input i s).writeCursor = s.writeCursor := by
  unfold continueWrite; split <;> simp

@[simp] theorem continueWrite_occupancy (input : List Byte) (i : Nat) (s : State) :
    (continueWrite input i s).occupancy = s.occupancy := by
  unfold continueWrite; split <;> simp

@[simp] theorem continueWrite_alive (input : List Byte) (i : Nat) (s : State) :
    (continueWrite input i s).alive = s.alive := by
  unfold continueWrite; split <;> simp

@[simp] theorem continueWrite_activePort (input : List Byte) (i : Nat) (s : State) :
    (continueWrite input i s).activePort = s.activePort := by
  unfold continueWrite; split <;> simp

@[simp] theorem continueWrite_script (input : List Byte) (i : Nat) (s : State) :
    (continueWrite input i s).script = s.script := by
  unfold continueWrite; split <;> simp

@[simp] theorem continueWrite_freeChoices (input : List Byte) (i : Nat) (s : State) :
    (continueWrite input i s).freeChoices = s.freeChoices := by
  unfold continueWrite; split <;> simp

@[simp] theorem continueWrite_wiring (input : List Byte) (i : Nat) (s : State) :
    (continueWrite input i s).wiring = s.wiring := by
  unfold continueWrite; split <;> simp

@[simp] theorem continueWrite_capacity (input : List Byte) (i : Nat) (s : State) :
    (continueWrite input i s).capacity = s.capacity := by
  unfold continueWrite; split <;> simp

theorem continueWrite_writing (input : List Byte) (i : Nat) (s : State) :
    (continueWrite input i s).writing = if i < input.length then some ⟨input, i⟩ else none := by
  unfold continueWrite; split <;> simp

theorem continueWrite_port_other (input : List Byte) (i : Nat) (s : State) {q : Port} (h : q ≠ .producer) :
    (continueWrite input i s).port q = s.port q := by
  unfold continueWrite
  split
  · cases q <;> rfl
  · exact finishWrite_port_other _ _ h

@[simp] theorem continueWrite_inward (input : List Byte) (i : Nat) (s : State) (q : Port) :
    ((continueWrite input i s).port q).inward = (s.port q).inward := by
  unfold continueWrite
  split
  · cases q <;> rfl
  · simp

end Sys2Proof.Machine
end

