-- ==== Sys2Proof/Laws/Ops.lean ====
section
/-! SUPPORT. For each shared operation, one lemma that says everything it can do, and for a step, one inversion lemma. -/

namespace Sys2Proof.Machine

/-! ### Which ports the outside reaches -/

@[simp] theorem reached_withScript (s : State) (events : List Event) (p : Port) :
    reached (s.withScript events) p = reached s p := rfl

@[simp] theorem reached_choiceTaken (s : State) (p : Port) : reached s.choiceTaken p = reached s p := rfl

/-- Reaching depends on the configuration alone. -/
theorem reached_congr {s t : State} (h : t.wiring = s.wiring) (p : Port) : reached t p = reached s p := by
  simp [reached, h]

/-! ### Admissibility -/

@[simp] theorem onAdmittingPort_admitted {i : Instr} {s : State} (effect : State → StepOutcome)
    (h : admits s.activePort i = true) : onAdmittingPort i s effect = effect s := by
  simp [onAdmittingPort, h]

@[simp] theorem onAdmittingPort_illegal {i : Instr} {s : State} (effect : State → StepOutcome)
    (h : admits s.activePort i = false) : onAdmittingPort i s effect = .next (answerIllegal s) := by
  simp [onAdmittingPort, h]

/-- Everything a guarded operation can do: run on an admitting port, or answer IllegalCommand. -/
theorem onAdmittingPort_cases {i : Instr} {s : State} {effect : State → StepOutcome} {o : StepOutcome}
    (h : onAdmittingPort i s effect = o) :
    (admits s.activePort i = true ∧ effect s = o) ∨
      (admits s.activePort i = false ∧ o = .next (answerIllegal s)) := by
  cases ha : admits s.activePort i
  · exact .inr ⟨rfl, by rw [← h]; simp [ha]⟩
  · exact .inl ⟨rfl, by rw [← h]; simp [ha]⟩

/-! ### The write side of the ring buffer -/

theorem tryWrite_fits {seq : List Byte} {s : State} (h : seq.length ≤ freeCapacity s) :
    tryWrite seq s = (seq.length, admitBytes seq s) := by
  simp [tryWrite, Nat.not_lt.2 h]

theorem tryWrite_rejected {seq : List Byte} {s : State} (h : freeCapacity s < seq.length) :
    tryWrite seq s = (0, s) := by
  simp [tryWrite, h]

/-- Everything `tryWrite` can do: the whole candidate or nothing. -/
theorem tryWrite_cases (seq : List Byte) (s : State) :
    (seq.length ≤ freeCapacity s ∧ tryWrite seq s = (seq.length, admitBytes seq s)) ∨
      (freeCapacity s < seq.length ∧ tryWrite seq s = (0, s)) := by
  rcases Nat.lt_or_ge (freeCapacity s) seq.length with h | h
  · exact .inr ⟨h, tryWrite_rejected h⟩
  · exact .inl ⟨h, tryWrite_fits h⟩

/-- The fields `tryWrite` never touches. -/
theorem tryWrite_frame (seq : List Byte) (s : State) :
    (tryWrite seq s).2.readCursor = s.readCursor ∧ (tryWrite seq s).2.writing = s.writing ∧
      (tryWrite seq s).2.alive = s.alive ∧ (tryWrite seq s).2.activePort = s.activePort ∧
      (tryWrite seq s).2.script = s.script ∧ (tryWrite seq s).2.freeChoices = s.freeChoices ∧
      ∀ p, (tryWrite seq s).2.port p = s.port p := by
  rcases tryWrite_cases seq s with ⟨-, h⟩ | ⟨-, h⟩ <;> simp [h]

@[simp] theorem tryWrite_wiring (seq : List Byte) (s : State) : (tryWrite seq s).2.wiring = s.wiring := by
  rcases tryWrite_cases seq s with ⟨-, h⟩ | ⟨-, h⟩ <;> simp [h]

@[simp] theorem tryWrite_capacity (seq : List Byte) (s : State) : (tryWrite seq s).2.capacity = s.capacity := by
  rcases tryWrite_cases seq s with ⟨-, h⟩ | ⟨-, h⟩ <;> simp [h]

/-- Admission leaves every cell but those of the candidate. -/
theorem admit_read_other (seq : List Byte) (s : State) (a : Nat) (h : ∀ j < seq.length, writeIndex s j ≠ a) :
    Memory.read (admitBytes seq s).storage a = Memory.read s.storage a := by
  rw [admit_storage]; exact Memory.read_store_other _ _ _ _ _ h

/-- Admission puts byte `j` of the candidate at `(writeCursor + j) mod N`. -/
theorem admit_read_at (seq : List Byte) (s : State) (hlen : seq.length ≤ s.capacity) (j : Nat) (hj : j < seq.length) :
    Memory.read (admitBytes seq s).storage (writeIndex s j) = seq[j] := by
  rw [admit_storage]; exact Memory.read_store_at _ _ _ _ hlen j hj

/-! ### The read side -/

@[simp] theorem ringRead_snd (m : Nat) (s : State) : (ringRead m s).2 = consume (readCount m s) s := rfl

theorem ringRead_fst (m : Nat) (s : State) :
    (ringRead m s).1 = Memory.fetch s.storage s.readCursor (readCount m s) := rfl

@[simp] theorem length_ringRead (m : Nat) (s : State) : (ringRead m s).1.length = readCount m s := by
  simp [ringRead_fst]

theorem readCount_le_maxCount (m : Nat) (s : State) : readCount m s ≤ m := Nat.min_le_left _ _

theorem readCount_le_occupancy (m : Nat) (s : State) : readCount m s ≤ s.occupancy :=
  Nat.le_trans (Nat.min_le_right _ _) (Nat.min_le_left _ _)

theorem readCount_le_run (m : Nat) (s : State) : readCount m s ≤ s.capacity - s.readCursor :=
  Nat.le_trans (Nat.min_le_right _ _) (Nat.min_le_right _ _)

/-! ### The internal bus -/

@[simp] theorem busTryWr_fst (seq : List Byte) (s : State) : (busTryWr seq s).1 = (tryWrite seq s).1 := rfl

/-- Everything `TRYWR` on port `I` can do: the whole candidate or nothing, and the count answered. -/
theorem busTryWr_cases (seq : List Byte) (s : State) :
    (seq.length ≤ freeCapacity s ∧
        busTryWr seq s = (seq.length, respondOn .bus ⟨.ok, seq.length, []⟩ (admitBytes seq s))) ∨
      (freeCapacity s < seq.length ∧ busTryWr seq s = (0, respondOn .bus ⟨.ok, 0, []⟩ s)) := by
  rcases tryWrite_cases seq s with ⟨h, e⟩ | ⟨h, e⟩
  · exact .inl ⟨h, by simp [busTryWr, e, admissionCondition, Nat.not_lt.2 h, statusOf]⟩
  · exact .inr ⟨h, by simp [busTryWr, e, admissionCondition, h, statusOf]⟩

/-- Everything `RBRD` on port `I` does: the bytes of `ringRead`, answered there. -/
theorem busRbRd_eq (m : Nat) (s : State) :
    busRbRd m s =
      ((ringRead m s).1, respondOn .bus ⟨.ok, readCount m s, (ringRead m s).1⟩ (ringRead m s).2) := by
  have : statusOf (readCondition s) = .ok := by unfold readCondition; split <;> rfl
  rw [busRbRd, this]

@[simp] theorem busTryWr_storage (seq : List Byte) (s : State) :
    (busTryWr seq s).2.storage = (tryWrite seq s).2.storage := by simp [busTryWr]

@[simp] theorem busTryWr_readCursor (seq : List Byte) (s : State) :
    (busTryWr seq s).2.readCursor = s.readCursor := by simp [busTryWr, tryWrite_frame seq s]

@[simp] theorem busTryWr_writeCursor (seq : List Byte) (s : State) :
    (busTryWr seq s).2.writeCursor = (tryWrite seq s).2.writeCursor := by simp [busTryWr]

@[simp] theorem busTryWr_occupancy (seq : List Byte) (s : State) :
    (busTryWr seq s).2.occupancy = (tryWrite seq s).2.occupancy := by simp [busTryWr]

@[simp] theorem busTryWr_writing (seq : List Byte) (s : State) :
    (busTryWr seq s).2.writing = s.writing := by simp [busTryWr, tryWrite_frame seq s]

@[simp] theorem busTryWr_alive (seq : List Byte) (s : State) :
    (busTryWr seq s).2.alive = s.alive := by simp [busTryWr, tryWrite_frame seq s]

@[simp] theorem busTryWr_wiring (seq : List Byte) (s : State) :
    (busTryWr seq s).2.wiring = s.wiring := by simp [busTryWr]

@[simp] theorem busTryWr_capacity (seq : List Byte) (s : State) :
    (busTryWr seq s).2.capacity = s.capacity := by simp [busTryWr]

@[simp] theorem busTryWr_activePort (seq : List Byte) (s : State) :
    (busTryWr seq s).2.activePort = s.activePort := by simp [busTryWr, tryWrite_frame seq s]

@[simp] theorem busTryWr_script (seq : List Byte) (s : State) :
    (busTryWr seq s).2.script = s.script := by simp [busTryWr, tryWrite_frame seq s]

@[simp] theorem busTryWr_freeChoices (seq : List Byte) (s : State) :
    (busTryWr seq s).2.freeChoices = s.freeChoices := by simp [busTryWr, tryWrite_frame seq s]

@[simp] theorem busTryWr_inward (seq : List Byte) (s : State) (q : Port) :
    ((busTryWr seq s).2.port q).inward = (s.port q).inward := by simp [busTryWr, tryWrite_frame seq s]

theorem busTryWr_port_other (seq : List Byte) (s : State) {q : Port} (h : q ≠ .bus) :
    (busTryWr seq s).2.port q = s.port q := by
  rw [busTryWr, respondOn_port_other _ _ h]; exact (tryWrite_frame seq s).2.2.2.2.2.2 q

@[simp] theorem busRbRd_storage (m : Nat) (s : State) :
    (busRbRd m s).2.storage = (consume (readCount m s) s).storage := by simp [busRbRd, ringRead]

@[simp] theorem busRbRd_readCursor (m : Nat) (s : State) :
    (busRbRd m s).2.readCursor = (consume (readCount m s) s).readCursor := by simp [busRbRd, ringRead]

@[simp] theorem busRbRd_writeCursor (m : Nat) (s : State) :
    (busRbRd m s).2.writeCursor = (consume (readCount m s) s).writeCursor := by simp [busRbRd, ringRead]

@[simp] theorem busRbRd_occupancy (m : Nat) (s : State) :
    (busRbRd m s).2.occupancy = (consume (readCount m s) s).occupancy := by simp [busRbRd, ringRead]

@[simp] theorem busRbRd_writing (m : Nat) (s : State) :
    (busRbRd m s).2.writing = (consume (readCount m s) s).writing := by simp [busRbRd, ringRead]

@[simp] theorem busRbRd_alive (m : Nat) (s : State) :
    (busRbRd m s).2.alive = (consume (readCount m s) s).alive := by simp [busRbRd, ringRead]

@[simp] theorem busRbRd_wiring (m : Nat) (s : State) :
    (busRbRd m s).2.wiring = (consume (readCount m s) s).wiring := by simp [busRbRd, ringRead]

@[simp] theorem busRbRd_capacity (m : Nat) (s : State) :
    (busRbRd m s).2.capacity = (consume (readCount m s) s).capacity := by simp [busRbRd, ringRead]

@[simp] theorem busRbRd_activePort (m : Nat) (s : State) :
    (busRbRd m s).2.activePort = (consume (readCount m s) s).activePort := by simp [busRbRd, ringRead]

@[simp] theorem busRbRd_script (m : Nat) (s : State) :
    (busRbRd m s).2.script = (consume (readCount m s) s).script := by simp [busRbRd, ringRead]

@[simp] theorem busRbRd_freeChoices (m : Nat) (s : State) :
    (busRbRd m s).2.freeChoices = (consume (readCount m s) s).freeChoices := by simp [busRbRd, ringRead]

@[simp] theorem busRbRd_fst (m : Nat) (s : State) : (busRbRd m s).1 = (ringRead m s).1 := rfl

@[simp] theorem busRbRd_inward (m : Nat) (s : State) (q : Port) :
    ((busRbRd m s).2.port q).inward = (s.port q).inward := by simp [busRbRd, ringRead]

theorem busRbRd_port_other (m : Nat) (s : State) {q : Port} (h : q ≠ .bus) :
    (busRbRd m s).2.port q = s.port q := by
  rw [busRbRd, respondOn_port_other _ _ h]; exact consume_port _ _ q

/-! ### One iteration of a WRITE -/

/-- Everything one iteration can do: end an exhausted input, skip an unsupported byte, end at a sequence that does
not fit, or admit a sequence whole. -/
theorem writeIteration_cases (w : WriteProgress) (s : State) :
    (w.input[w.cursor]? = none ∧ writeIteration w s = finishWrite w.cursor s) ∨
    (∃ c, w.input[w.cursor]? = some c ∧ translateByte c = none ∧
      writeIteration w s = continueWrite w.input (w.cursor + 1) s) ∨
    (∃ c seq, w.input[w.cursor]? = some c ∧ translateByte c = some seq ∧ (tryWrite seq s).1 = 0 ∧
      writeIteration w s = finishWrite w.cursor (busTryWr seq s).2) ∨
    (∃ c seq, w.input[w.cursor]? = some c ∧ translateByte c = some seq ∧ (tryWrite seq s).1 ≠ 0 ∧
      writeIteration w s = continueWrite w.input (w.cursor + 1) (busTryWr seq s).2) := by
  unfold writeIteration
  split
  · next h => exact .inl ⟨h, rfl⟩
  · next c h =>
    split
    · next ht => exact .inr (.inl ⟨c, h, ht, rfl⟩)
    · next seq ht =>
      split
      · next h0 => exact .inr (.inr (.inl ⟨c, seq, h, ht, h0, rfl⟩))
      · next h0 => exact .inr (.inr (.inr ⟨c, seq, h, ht, h0, rfl⟩))

/-! ### Steps -/

@[simp] theorem heldBack_producer (s : State) : heldBack .producer s = false := rfl

@[simp] theorem heldBack_consumer (s : State) : heldBack .consumer s = false := rfl

/-- Exactly a TRYWR next on port `I` is held back, and exactly while a WRITE is in progress. -/
theorem heldBack_iff {p : Port} {s : State} :
    heldBack p s = true ↔ p = .bus ∧ s.writing.isSome = true ∧
      ∃ seq rest, decode (s.port .bus).inward = .command (.tryWr seq) rest := by
  unfold heldBack
  split
  · next seq rest hd => simp [hd]
  · next h =>
    simp only [Bool.false_eq_true, false_iff, not_and, not_exists]
    rintro rfl - seq rest hd
    exact h seq rest rfl hd

/-- With no WRITE in progress nothing is held back. -/
theorem heldBack_eq_false {p : Port} {s : State} (h : s.writing = none) : heldBack p s = false := by
  rw [Bool.eq_false_iff, Ne, heldBack_iff]; simp [h]

/-- Everything a port's next command can do. -/
theorem runNextCommand_cases {p : Port} {s : State} {o : StepOutcome} (h : runNextCommand p s = o) :
    (heldBack p s = true ∧ o = .next s) ∨
    (∃ i rest, heldBack p s = false ∧ decode (s.port p).inward = .command i rest ∧ exec i (fetched p rest s) = o) ∨
    (∃ opcode rest, decode (s.port p).inward = .reserved opcode rest ∧
      o = .next (answerIllegal (fetched p rest s))) ∨
    (decode (s.port p).inward = .incomplete ∧ o = .next s) := by
  unfold runNextCommand at h
  split at h
  · next hb => exact .inl ⟨hb, h.symm⟩
  · next hb =>
    split at h
    · next i rest hd => exact .inr (.inl ⟨i, rest, by simpa using hb, hd, h⟩)
    · next op rest hd => exact .inr (.inr (.inl ⟨op, rest, hd, h.symm⟩))
    · next hd => exact .inr (.inr (.inr ⟨hd, h.symm⟩))

/-- A command that is not held back runs. -/
theorem runNextCommand_command {p : Port} {s : State} {i : Instr} {rest : List Byte} (hb : heldBack p s = false)
    (hd : decode (s.port p).inward = .command i rest) : runNextCommand p s = exec i (fetched p rest s) := by
  simp [runNextCommand, hb, hd]

/-- Everything the step of the agent on a port can do. -/
theorem runTurn_cases {p : Port} {s : State} {o : StepOutcome} (h : runTurn p s = o) :
    (p = .producer ∧ ∃ w, s.writing = some w ∧
      o = .next (writeIteration w (s.withActivePort .producer))) ∨
    ((p = .producer → s.writing = none) ∧ runNextCommand p s = o) := by
  cases p
  · simp only [runTurn] at h
    split at h
    · next w hw => exact .inl ⟨rfl, w, hw, h.symm⟩
    · next hw => exact .inr ⟨fun _ => hw, h⟩
  · exact .inr ⟨nofun, h⟩
  · exact .inr ⟨nofun, h⟩

/-- The agent on a port with no WRITE in progress runs the port's next command. -/
theorem runTurn_eq_runNextCommand {p : Port} {s : State} (h : p = .producer → s.writing = none) :
    runTurn p s = runNextCommand p s := by
  cases p
  · simp [runTurn, h rfl]
  · rfl
  · rfl

@[simp] theorem settleOutcome_next (p : Port) (t : State) : settleOutcome p (.next t) = .next (settled p t) := rfl

/-- An outcome is a next state before empty WRITEs are answered exactly where it is one after. -/
theorem settleOutcome_eq_next {p : Port} {o : StepOutcome} {t : State} :
    settleOutcome p o = .next t ↔ ∃ u, o = .next u ∧ t = settled p u := by
  cases o <;> simp [settleOutcome, eq_comm]

/-- A turn gives a next state exactly where the agent's step does. -/
theorem takeTurn_eq_next {p : Port} {s t : State} :
    takeTurn p s = .next t ↔ ∃ u, runTurn p s = .next u ∧ t = settled p u := settleOutcome_eq_next

theorem takeTurn_of_runTurn {p : Port} {s u : State} (h : runTurn p s = .next u) :
    takeTurn p s = .next (settled p u) := takeTurn_eq_next.2 ⟨u, h, rfl⟩

/-- Everything a step that no event directs can do: nothing, or a turn of one port. -/
theorem undirectedStep_cases {s : State} {o : StepOutcome} (h : undirectedStep s = o) :
    (readyPorts s = [] ∧ o = .next s) ∨
    (∃ p, readyPorts s = [p] ∧ takeTurn p s = o) ∨
    (∃ p, 2 ≤ (readyPorts s).length ∧ p ∈ readyPorts s ∧
      takeTurn p s.choiceTaken = o) := by
  unfold undirectedStep at h
  split at h
  · next hr => exact .inl ⟨hr, h.symm⟩
  · next p hr => exact .inr (.inl ⟨p, hr, h⟩)
  · next p q more hr =>
    refine .inr (.inr ⟨_, by simp [hr], ?_, h⟩)
    rw [hr]
    have hlt : Config.scheduleChoice s.freeChoices % (more.length + 2) < (p :: q :: more).length :=
      Nat.mod_lt _ (by omega)
    rw [List.getElem?_eq_getElem hlt]
    exact List.getElem_mem hlt

/-- A step that the script directs. -/
theorem step_event {s : State} {e : Event} {events : List Event} (ha : s.alive = true) (hs : s.script = e :: events) :
    step s = runEvent e (s.withScript events) := by
  simp [step, ha, hs]

/-- A step that the script gives to a port. -/
theorem step_turn {s : State} {p : Port} {events : List Event} (ha : s.alive = true)
    (hs : s.script = .turn p :: events) (hr : reached s p = true) :
    step s = takeTurn p (s.withScript events) := by
  rw [step_event ha hs, runEvent, reached_withScript, if_pos hr]

/-- Everything an event can do. -/
theorem runEvent_cases {e : Event} {s : State} {o : StepOutcome} (h : runEvent e s = o) :
    (∃ p, e = .turn p ∧ reached s p = true ∧ takeTurn p s = o) ∨
    (∃ p bytes, e = .arrive p bytes ∧ reached s p = true ∧ o = .next (settled p (arriveAt p bytes s))) ∨
    (∃ p, (e = .turn p ∨ ∃ bytes, e = .arrive p bytes) ∧ reached s p = false ∧ o = .refused .unreachedPort) ∨
    (e = .shutdown ∧ quiescent s = true ∧ o = .next { s with alive := false }) ∨
    (e = .shutdown ∧ quiescent s = false ∧ o = .refused .shutdownInProgress) := by
  cases e with
  | turn p =>
    cases hr : reached s p
    · exact .inr (.inr (.inl ⟨p, .inl rfl, hr, by rw [← h]; simp [runEvent, hr]⟩))
    · exact .inl ⟨p, rfl, hr, by rw [← h]; simp [runEvent, hr]⟩
  | arrive p bytes =>
    cases hr : reached s p
    · exact .inr (.inr (.inl ⟨p, .inr ⟨bytes, rfl⟩, hr, by rw [← h]; simp [runEvent, hr]⟩))
    · exact .inr (.inl ⟨p, bytes, rfl, hr, by rw [← h]; simp [runEvent, hr]⟩)
  | shutdown =>
    cases hq : quiescent s
    · exact .inr (.inr (.inr (.inr ⟨rfl, rfl, by rw [← h]; simp [runEvent, hq]⟩)))
    · exact .inr (.inr (.inr (.inl ⟨rfl, rfl, by rw [← h]; simp [runEvent, hq]⟩)))

/-- Everything a step can do. -/
theorem step_cases {s : State} {o : StepOutcome} (h : step s = o) :
    (s.alive = false ∧ o = .refused .afterShutdown) ∨
    (s.alive = true ∧ s.script = [] ∧ undirectedStep s = o) ∨
    (∃ e events, s.alive = true ∧ s.script = e :: events ∧ runEvent e (s.withScript events) = o) := by
  unfold step at h
  split at h
  · next ha =>
    split at h
    · next hs => exact .inr (.inl ⟨ha, hs, h⟩)
    · next e events hs => exact .inr (.inr ⟨e, events, ha, hs, h⟩)
  · next ha => exact .inl ⟨by simpa using ha, h.symm⟩

end Sys2Proof.Machine
end

