-- ==== Sys2Proof/Laws/PerInstr.lean ====
section
/-! SUPPORT. Statements made per instruction: the length of a command is a function of its first bytes
(30_encoding.md R89). -/

namespace Sys2Proof.Laws

/-- The first bytes of a well-formed operation's command tell its whole length, whatever follows it. -/
def EncodedLength.Statement (i : Instr) : Prop :=
  i.wellFormed = true → ∀ rest, commandLength (encode i ++ rest) = some (encode i).length

theorem EncodedLength.openService : EncodedLength.Statement .openService := fun _ _ => rfl

theorem EncodedLength.closeService : EncodedLength.Statement .closeService := fun _ _ => rfl

theorem EncodedLength.xlate (c : Byte) : EncodedLength.Statement (.xlate c) := fun _ _ => rfl

theorem EncodedLength.write (input : List Byte) : EncodedLength.Statement (.write input) := by
  intro h rest
  have h : input.length ≤ 255 := by simpa [Instr.wellFormed, fitsByte] using h
  simp [encode, commandLength, Nat.mod_eq_of_lt (show input.length < 256 by omega)]
  omega

theorem EncodedLength.read (maxCount : Nat) : EncodedLength.Statement (.read maxCount) := fun _ _ => rfl

theorem EncodedLength.tryWr (seq : List Byte) : EncodedLength.Statement (.tryWr seq) := by
  intro h rest
  have h : seq.length ≤ 255 := by simpa [Instr.wellFormed, fitsByte] using h
  simp [encode, commandLength, Nat.mod_eq_of_lt (show seq.length < 256 by omega)]
  omega

theorem EncodedLength.rbRd (maxCount : Nat) : EncodedLength.Statement (.rbRd maxCount) := fun _ _ => rfl

end Sys2Proof.Laws
end

