-- ==== Sys2Proof/Laws/Queue.lean ====
section
/-! SUPPORT. How the two primitives of the ring buffer act on the abstract queue. -/

namespace Sys2Proof.Machine

@[simp] theorem length_queue (s : State) : (queue s).length = s.occupancy := by simp [queue]

theorem getElem_queue (s : State) (j : Nat) (h : j < (queue s).length) :
    (queue s)[j] = Memory.read s.storage ((s.readCursor + j) % s.capacity) := by
  simp [queue]

/-- The queue depends on storage, `readCursor` and `occupancy` alone. -/
theorem queue_congr {s t : State} (hn : t.capacity = s.capacity) (hs : t.storage = s.storage) (hr : t.readCursor = s.readCursor)
    (ho : t.occupancy = s.occupancy) : queue t = queue s := by
  simp [queue, hn, hs, hr, ho]

/-- Under the cursor equation, byte `j` of a candidate goes to position `occupancy + j` of the valid region. -/
theorem writeIndex_eq {s : State} (h : CursorsConsistent s) (j : Nat) :
    writeIndex s j = (s.readCursor + (s.occupancy + j)) % s.capacity := by
  have h : s.writeCursor = (s.readCursor + s.occupancy) % s.capacity := h
  simp only [writeIndex, h, Nat.mod_add_mod, Nat.add_assoc]

/-- The admission of a candidate that fits appends it to the queue. -/
theorem queue_admit {s : State} {seq : List Byte} (hr : RegistersInRange s) (hc : CursorsConsistent s)
    (hfit : seq.length ≤ freeCapacity s) : queue (admitBytes seq s) = queue s ++ seq := by
  obtain ⟨-, -, ho⟩ := hr
  simp only [freeCapacity] at hfit
  refine List.ext_getElem (by simp) fun j hj _ => ?_
  simp only [length_queue, admit_occupancy] at hj
  rw [getElem_queue, admit_readCursor, admit_capacity]
  rcases Nat.lt_or_ge j s.occupancy with hlt | hge
  · rw [List.getElem_append_left (by simpa using hlt), getElem_queue,
      admit_read_other _ _ _ fun k hk => ?_]
    rw [writeIndex_eq hc]
    exact mod_ne_of_lt (by omega) (by omega)
  · rw [List.getElem_append_right (by simpa using hge)]
    obtain ⟨k, rfl⟩ := Nat.exists_eq_add_of_le hge
    rw [← writeIndex_eq hc, admit_read_at seq s (by omega) k (by omega)]
    simp

/-- Consuming `k` unread bytes drops them from the queue. -/
theorem queue_consume (k : Nat) (s : State) : queue (consume k s) = (queue s).drop k := by
  refine List.ext_getElem (by simp) fun j hj _ => ?_
  rw [getElem_queue, List.getElem_drop, getElem_queue]
  simp only [consume_storage, consume_readCursor, consume_capacity, advanceCursor, Nat.mod_add_mod, Nat.add_assoc]

/-- A read returns the first `k` bytes of the queue. -/
theorem ringRead_eq_take (m : Nat) (s : State) (hr : s.readCursor < s.capacity) :
    (ringRead m s).1 = (queue s).take (readCount m s) := by
  have h1 := readCount_le_occupancy m s
  have h2 := readCount_le_run m s
  refine List.ext_getElem (by simp [Nat.min_eq_left h1]) fun j hj _ => ?_
  simp only [length_ringRead] at hj
  rw [List.getElem_take, getElem_queue, Nat.mod_eq_of_lt (by omega)]
  simp [ringRead_fst, Memory.fetch]

end Sys2Proof.Machine
end

