-- ==== Sys2Proof/Laws/Rom.lean ====
section
/-! SUPPORT. Laws of the translation ROM: which bytes reach an entry, and the shape of every sequence. -/

namespace Sys2Proof.Machine

theorem romIndex_isSome : ∀ c : Byte, (romIndex c).isSome = supported c := by decide

theorem romIndex_lt : ∀ c : Byte, ∀ e, romIndex c = some e → e < 50 := by
  have h : ∀ c : Byte, (romIndex c).all (· < 50) = true := by decide
  intro c e he
  simpa [he] using h c

@[simp] theorem length_sequenceOf (marks : List Mark) : (sequenceOf marks).length = marks.length + 1 := by
  simp [sequenceOf]

/-- Every entry is a non-empty run of marks and a separator, seven marks for `@` and at most six elsewhere. -/
theorem romMarks_length (entry : Nat) :
    1 ≤ (romMarks entry).length ∧ (romMarks entry).length ≤ (if entry = 49 then 7 else 6) := by
  have := (Config.romExtraMarks entry).isLt
  unfold romMarks
  repeat' split
  all_goals simp_all

theorem translateByte_isSome (c : Byte) : (translateByte c).isSome = supported c := by
  simp [translateByte, translateIn, ← romIndex_isSome]

/-- Everything a translation can answer: nothing for an unsupported byte, or an entry's sequence. -/
theorem translateByte_cases (c : Byte) :
    (supported c = false ∧ translateByte c = none) ∨
      (supported c = true ∧ ∃ marks : List Mark, translateByte c = some (sequenceOf marks) ∧
        1 ≤ marks.length ∧ marks.length ≤ 7) := by
  have h := romIndex_isSome c
  cases hi : romIndex c with
  | none => exact .inl ⟨by rw [← h, hi]; rfl, by simp [translateByte, translateIn, hi]⟩
  | some e =>
    obtain ⟨h1, h2⟩ := romMarks_length e
    refine .inr ⟨by rw [← h, hi]; rfl, romMarks e, by simp [translateByte, translateIn, rom, hi], h1, ?_⟩
    split at h2 <;> omega

end Sys2Proof.Machine
end

