-- ==== Sys2Proof/Laws/Settle.lean ====
section
/-! SUPPORT. What answering the empty WRITEs at the head of port `P`'s stream can do. -/

namespace Sys2Proof.Machine

/-- Only the two bytes `20 00` are an empty WRITE. -/
theorem decode_eq_empty_write {bytes rest : List Byte} (h : decode bytes = .command (.write []) rest) :
    bytes = 0x20#8 :: 0x00#8 :: rest := by
  match bytes with
  | [] => cases h
  | [opcode] => simp only [decode, decodeB, decodeS] at h; (repeat' split at h) <;> cases h
  | opcode :: len :: tail =>
    simp only [decode, decodeB, decodeS] at h
    repeat' split at h
    case isFalse.isFalse.isFalse.isTrue.isFalse _ _ _ hop hlen =>
      have h := Decoded.command.inj h
      have hwrite := List.take_eq_nil_iff.1 (Instr.write.inj h.1)
      have hzero : len.toNat = 0 := by
        rcases hwrite with hz | rfl
        · exact hz
        · simpa using hlen
      rw [hzero] at h
      rw [hop, BitVec.eq_of_toNat_eq (show len.toNat = (0x00#8).toNat from hzero), ← h.2, List.drop_zero]
    all_goals cases h

/-- Everything `answerEmptyWrites` does: with no WRITE in progress it takes some of the empty WRITEs at the head of the
stream, all of them where the fuel is the stream's length, and answers each. -/
theorem answerEmptyWrites_spec (fuel : Nat) (s : State) :
    ∃ k rest, (s.port .producer).inward = (List.replicate k [0x20#8, 0x00#8]).flatten ++ rest ∧
      answerEmptyWrites fuel s =
        s.setPort .producer ⟨rest, (s.port .producer).outward ++ List.replicate k ⟨.noProgress, 0, []⟩⟩ ∧
      (k ≠ 0 → s.writing = none) ∧
      ((s.port .producer).inward.length ≤ fuel → EmptyWritesAnswered (answerEmptyWrites fuel s)) := by
  induction fuel generalizing s with
  | zero =>
    refine ⟨0, s.portP.inward, by simp [State.port], by simp [answerEmptyWrites, State.setPort, State.port], by simp, ?_⟩
    intro hl _ rest hd
    have hl : s.portP.inward.length ≤ 0 := hl
    have hd : decode s.portP.inward = _ := hd
    rw [List.eq_nil_of_length_eq_zero (Nat.le_zero.1 hl)] at hd
    cases hd
  | succ fuel ih =>
    simp only [answerEmptyWrites]
    split
    · next rest hw hd =>
      obtain ⟨k, rest', hin, heq, hk, hl⟩ := ih (finishWrite 0 (s.setPort .producer { s.portP with inward := rest }))
      have hb : s.portP.inward = 0x20#8 :: 0x00#8 :: rest := decode_eq_empty_write hd
      refine ⟨k + 1, rest', ?_, ?_, fun _ => hw, fun h => hl ?_⟩
      · simp only [State.port, finishWrite, State.setPort, respondOn] at hin
        simp [State.port, hb, List.replicate_succ, hin]
      · rw [heq]
        simp [State.port, finishWrite, respondOn, State.setPort, List.replicate_succ, writeCondition, statusOf, hw]
      · simp only [State.port, finishWrite, State.setPort, respondOn, hb, List.length_cons] at h ⊢
        omega
    · next h =>
      refine ⟨0, s.portP.inward, by simp [State.port], by simp [State.setPort, State.port], by simp, ?_⟩
      intro _ hw rest hd
      exact h rest hw hd

/-- Everything `settled` does. -/
theorem settled_leaves (p : Port) (s : State) : EmptyWritesLeave p s (settled p s) := by
  cases p
  · obtain ⟨k, rest, hin, heq, hk, ha⟩ := answerEmptyWrites_spec s.portP.inward.length s
    exact ⟨k, rest, hin, heq, fun h => ⟨rfl, hk h⟩, fun _ => ha (Nat.le_refl _)⟩
  · exact ⟨0, s.portC.inward, by simp [State.port], by simp [settled, State.setPort, State.port], by simp, nofun⟩
  · exact ⟨0, s.portI.inward, by simp [State.port], by simp [settled, State.setPort, State.port], by simp, nofun⟩

@[simp] theorem settled_consumer (s : State) : settled .consumer s = s := rfl

@[simp] theorem settled_bus (s : State) : settled .bus s = s := rfl

/-- With a WRITE in progress nothing is taken. -/
theorem settled_of_writing {p : Port} {s : State} {w : WriteProgress} (h : s.writing = some w) : settled p s = s := by
  cases p
  · simp only [settled]
    cases s.portP.inward.length <;> simp [answerEmptyWrites, h]
  · rfl
  · rfl

/-- Where no empty WRITE stands at the head nothing is taken. -/
theorem settled_of_no_empty_write {p : Port} {s : State}
    (h : ∀ rest, decode (s.port .producer).inward ≠ .command (.write []) rest) : settled p s = s := by
  cases p
  · simp only [settled]
    cases s.portP.inward.length with
    | zero => rfl
    | succ n =>
      simp only [answerEmptyWrites]
      split
      · next rest _ hd => exact absurd hd (h rest)
      · rfl
  · rfl
  · rfl

/-- No empty WRITE is left at the head. -/
theorem settled_producer_answered (s : State) : EmptyWritesAnswered (settled .producer s) := by
  obtain ⟨-, -, -, -, -, h⟩ := settled_leaves .producer s
  exact h rfl

@[simp] theorem settled_storage (p : Port) (s : State) : (settled p s).storage = s.storage := by
  obtain ⟨k, rest, -, h, -⟩ := settled_leaves p s; simp [h]

@[simp] theorem settled_readCursor (p : Port) (s : State) : (settled p s).readCursor = s.readCursor := by
  obtain ⟨k, rest, -, h, -⟩ := settled_leaves p s; simp [h]

@[simp] theorem settled_writeCursor (p : Port) (s : State) : (settled p s).writeCursor = s.writeCursor := by
  obtain ⟨k, rest, -, h, -⟩ := settled_leaves p s; simp [h]

@[simp] theorem settled_occupancy (p : Port) (s : State) : (settled p s).occupancy = s.occupancy := by
  obtain ⟨k, rest, -, h, -⟩ := settled_leaves p s; simp [h]

@[simp] theorem settled_writing (p : Port) (s : State) : (settled p s).writing = s.writing := by
  obtain ⟨k, rest, -, h, -⟩ := settled_leaves p s; simp [h]

@[simp] theorem settled_alive (p : Port) (s : State) : (settled p s).alive = s.alive := by
  obtain ⟨k, rest, -, h, -⟩ := settled_leaves p s; simp [h]

@[simp] theorem settled_wiring (p : Port) (s : State) : (settled p s).wiring = s.wiring := by
  obtain ⟨k, rest, -, h, -⟩ := settled_leaves p s; simp [h]

@[simp] theorem settled_capacity (p : Port) (s : State) : (settled p s).capacity = s.capacity := by
  obtain ⟨k, rest, -, h, -⟩ := settled_leaves p s; simp [h]

@[simp] theorem settled_activePort (p : Port) (s : State) : (settled p s).activePort = s.activePort := by
  obtain ⟨k, rest, -, h, -⟩ := settled_leaves p s; simp [h]

@[simp] theorem settled_script (p : Port) (s : State) : (settled p s).script = s.script := by
  obtain ⟨k, rest, -, h, -⟩ := settled_leaves p s; simp [h]

@[simp] theorem settled_freeChoices (p : Port) (s : State) : (settled p s).freeChoices = s.freeChoices := by
  obtain ⟨k, rest, -, h, -⟩ := settled_leaves p s; simp [h]

theorem settled_port_other {p q : Port} (s : State) (h : q ≠ p) : (settled p s).port q = s.port q := by
  obtain ⟨k, rest, -, he, -⟩ := settled_leaves p s; rw [he, port_setPort_other _ _ h]

/-- Reaching is as before. -/
@[simp] theorem reached_settled (p q : Port) (s : State) : reached (settled p s) q = reached s q :=
  reached_congr (settled_wiring p s) q

/-- Which responses stand in the outward streams: those given before, and answers of empty WRITEs. -/
theorem mem_settled_outward {p q : Port} {s : State} {r : Response} (h : r ∈ ((settled p s).port q).outward) :
    r ∈ (s.port q).outward ∨ r = ⟨.noProgress, 0, []⟩ := by
  obtain ⟨k, rest, -, he, -⟩ := settled_leaves p s
  rw [he, port_setPort] at h
  split at h
  · next hq =>
    subst hq
    rcases List.mem_append.1 h with h | h
    · exact .inl h
    · exact .inr (List.mem_replicate.1 h).2
  · exact .inl h

end Sys2Proof.Machine
end

