-- ==== Sys2Proof/Laws/Run.lean ====
section
/-! SUPPORT. Laws of runs: the run of the statements is the host's, and one step begins it. -/

namespace Sys2Proof.Machine

theorem core_run_next {M : Host.Core} (n : Nat) {s t : M.State} (h : M.step s = .next t) :
    M.run (n + 1) s = M.run n t := by
  simp [Host.Core.run, h]

theorem core_run_fault {M : Host.Core} (n : Nat) {s : M.State} {r : M.Fault} (h : M.step s = .fault r) :
    M.run (n + 1) s = .fault r := by
  simp [Host.Core.run, h]

theorem core_run_refused {M : Host.Core} (n : Nat) {s : M.State} {r : M.Refusal} (h : M.step s = .refused r) :
    M.run (n + 1) s = .refused r := by
  simp [Host.Core.run, h]

/-- The run of the statements is the host's run of this machine. -/
theorem runSteps_eq_core_run (n : Nat) (s : State) : runSteps n s = Host.Core.run Sys2Proof.core n s := by
  induction n generalizing s with
  | zero => rfl
  | succ n ih =>
    rw [runSteps]
    cases h : step s with
    | next t => exact (ih t).trans (core_run_next (M := Sys2Proof.core) n h).symm
    | fault r => exact (core_run_fault (M := Sys2Proof.core) n h).symm
    | refused r => exact (core_run_refused (M := Sys2Proof.core) n h).symm

/-- A run begins with its first step. -/
theorem runSteps_succ {n : Nat} {s t : State} (h : step s = .next t) : runSteps (n + 1) s = runSteps n t := by
  rw [runSteps, h]

/-- A machine whose steps change nothing stays. -/
theorem runSteps_of_step_self {s : State} (h : step s = .next s) (n : Nat) : runSteps n s = .next s := by
  induction n with
  | zero => rfl
  | succ n ih => rw [runSteps_succ h, ih]

end Sys2Proof.Machine
end

