-- ==== Sys2Proof/Machine/Text.lean ====
section
/-! DEFINITION. The textual form of commands and responses (30_encoding.md R90), as lists of characters. It is a notation:
no step reads or writes it. -/

namespace Sys2Proof.Machine

/-- The double quote. -/
def quoteChar : Char := Char.ofNat 0x22

/-- The backslash. -/
def backslashChar : Char := Char.ofNat 0x5C

/-- A hexadecimal digit, capitals. -/
def hexDigit (n : Nat) : Char := Char.ofNat (if n < 10 then 0x30 + n else 0x41 + (n - 10))

/-- A byte as two hexadecimal digits. -/
def hexText (b : Byte) : List Char := [hexDigit (b.toNat / 16), hexDigit (b.toNat % 16)]

/-- A byte in hexadecimal, `0xNN`. -/
def byteText (b : Byte) : List Char := '0' :: 'x' :: hexText b

/-- A byte inside a string (30_encoding.md R90). -/
def stringCharText (b : Byte) : List Char :=
  if b = 0x22#8 then [backslashChar, quoteChar]
  else if b = 0x5C#8 then [backslashChar, backslashChar]
  else if 0x20 ≤ b.toNat ∧ b.toNat ≤ 0x7E then [Char.ofNat b.toNat]
  else backslashChar :: 'x' :: hexText b

/-- A byte sequence as a string in double quotes. -/
def stringText (bytes : List Byte) : List Char :=
  quoteChar :: bytes.flatMap stringCharText ++ [quoteChar]

/-- A decimal count. -/
def countText (n : Nat) : List Char := Nat.toDigits 10 n

/-- The mnemonic (30_encoding.md R82). -/
def mnemonicText : Instr → List Char
  | .openService => ['O', 'P', 'E', 'N']
  | .closeService => ['C', 'L', 'O', 'S', 'E']
  | .xlate _ => ['X', 'L', 'A', 'T', 'E']
  | .write _ => ['W', 'R', 'I', 'T', 'E']
  | .read _ => ['R', 'E', 'A', 'D']
  | .tryWr _ => ['T', 'R', 'Y', 'W', 'R']
  | .rbRd _ => ['R', 'B', 'R', 'D']

/-- The operand, after a space where there is one. -/
def operandText : Instr → List Char
  | .openService => []
  | .closeService => []
  | .xlate c => ' ' :: byteText c
  | .write input => ' ' :: stringText input
  | .read maxCount => ' ' :: countText maxCount
  | .tryWr seq => ' ' :: stringText seq
  | .rbRd maxCount => ' ' :: countText maxCount

/-- The port of a command written without one (30_encoding.md R90). -/
def defaultPort : Instr → Port
  | .openService => .producer
  | .closeService => .producer
  | .xlate _ => .producer
  | .write _ => .producer
  | .read _ => .consumer
  | .tryWr _ => .bus
  | .rbRd _ => .bus

/-- The letter of a port (30_encoding.md R80). -/
def portLetter : Port → Char
  | .producer => 'P'
  | .consumer => 'C'
  | .bus => 'I'

/-- A command, with its port unless that is the default one (30_encoding.md R90). -/
def commandText (p : Port) (i : Instr) : List Char :=
  (if p = defaultPort i then [] else [portLetter p, ':', ' ']) ++ mnemonicText i ++ operandText i

/-- The name of a status (30_encoding.md R88). -/
def statusText : Status → List Char
  | .ok => ['O', 'K']
  | .unsupported => ['U', 'N', 'S', 'U', 'P', 'P', 'O', 'R', 'T', 'E', 'D']
  | .noProgress => ['N', 'O', 'P', 'R', 'O', 'G', 'R', 'E', 'S', 'S']
  | .illegal => ['I', 'L', 'L', 'E', 'G', 'A', 'L']

/-- Whether the response to an operation has a payload part (30_encoding.md R87). -/
def answersPayload : Instr → Bool
  | .openService => false
  | .closeService => false
  | .xlate _ => true
  | .write _ => false
  | .read _ => true
  | .tryWr _ => false
  | .rbRd _ => true

/-- The response to an operation (30_encoding.md R90). -/
def responseText (i : Instr) (r : Response) : List Char :=
  ['-', '>', ' '] ++ statusText r.status ++ [' '] ++ countText r.count ++
    (if answersPayload i then ' ' :: stringText r.payload else [])

end Sys2Proof.Machine
end

