-- ==== Sys2Proof/Tests/Slice0.lean ====
section
/-! SUPPORT. The model's own tests: refused ill-formed terms, commands written out byte by byte from 30_encoding.md,
single steps with the values of 95_test_vectors.md, and a witness for every statement that has hypotheses. -/

namespace Sys2Proof.Tests

open Sys2Proof Sys2Proof.Machine

/-! ### Helpers -/

/-- A buffer that holds given bytes from a given `readCursor` on, every other cell unwritten. -/
def holding (rc : Nat) (bytes : List Byte) : State :=
  { State.reset with
    storage := Memory.store 30 [] rc bytes
    readCursor := rc
    writeCursor := (rc + bytes.length) % 30
    occupancy := bytes.length }

/-- A buffer that holds `occ` dots. -/
def dots (rc occ : Nat) : State := holding rc (List.replicate occ 0x2E#8)

/-- The bytes of "SOS" in Morse code, as 95_test_vectors.md S2 writes them. -/
def sosBytes : List Byte :=
  [0x2E#8, 0x2E#8, 0x2E#8, 0x20#8, 0x2D#8, 0x2D#8, 0x2D#8, 0x20#8, 0x2E#8, 0x2E#8, 0x2E#8, 0x20#8]

/-- The bytes waiting at a port, which has the next turn. -/
def waiting (p : Port) (bytes : List Byte) (s : State) : State := (s.setPort p ⟨bytes, []⟩).withScript [.turn p]

/-- The same state in another configuration (log 7). -/
def wired (w : Wiring) (s : State) : State := { s with wiring := w }

/-- `WRITE "SO"` in progress, its first byte consumed. -/
def midWrite (s : State) : State := { s with writing := some ⟨[0x53#8, 0x4F#8], 1⟩ }

/-- What a step leaves: the three registers and the bytes answered on a port. -/
def seen (p : Port) : StepOutcome → Option (Nat × Nat × Nat × List Byte)
  | .next t => some (t.readCursor, t.writeCursor, t.occupancy, outwardBytes (t.port p))
  | .fault _ => none
  | .refused _ => none

/-- The same with the bytes left unread in the stream. -/
def left (p : Port) : StepOutcome → Option (List Byte × List Byte)
  | .next t => some ((t.port p).inward, outwardBytes (t.port p))
  | .fault _ => none
  | .refused _ => none

/-- The invariant of a state with no WRITE in progress and no response given. -/
theorem inv_of_parts (s : State) (hl : Config.LegalCapacity s.capacity) (hm : Memory.wf s.capacity s.storage = true)
    (hr : s.readCursor < s.capacity ∧ s.writeCursor < s.capacity ∧ s.occupancy ≤ s.capacity)
    (hc : s.writeCursor = (s.readCursor + s.occupancy) % s.capacity)
    (hu : ∀ j < s.occupancy, (Memory.lookup s.storage ((s.readCursor + j) % s.capacity)).isSome)
    (hw : s.writing = none) (ho : s.portP.outward = [] ∧ s.portC.outward = [] ∧ s.portI.outward = [])
    (hi : ∀ p ∈ [Port.producer, .consumer, .bus], reached s p = false → (s.port p).inward = [])
    (he : s.portP.inward.take 2 ≠ [0x20#8, 0x00#8]) : Inv s := by
  refine ⟨hl, hm, hr, hc, hu, ?_, ?_, ⟨fun p => hi p (by cases p <;> simp), by simp [hw]⟩,
    fun _ rest h => he (by rw [show s.portP.inward = _ from decode_eq_empty_write h]; rfl)⟩
  · intro w h; simp [hw] at h
  · intro p r h; cases p <;> simp [State.port, ho] at h

theorem in_range_of {s : State} (h : s.readCursor < s.capacity ∧ s.writeCursor < s.capacity ∧ s.occupancy ≤ s.capacity) :
    RegistersInRange s := h

theorem consistent_of {s : State} (h : s.writeCursor = (s.readCursor + s.occupancy) % s.capacity) :
    CursorsConsistent s := h

/-! ### WellFormed: each check refuses an ill-formed term (30_encoding.md R81, R83) -/

theorem test_write_of_256_bytes_is_ill_formed : (Instr.write (List.replicate 256 0x53#8)).wellFormed = false := by
  decide +kernel
theorem test_tryWr_of_256_bytes_is_ill_formed : (Instr.tryWr (List.replicate 256 0x2E#8)).wellFormed = false := by
  decide +kernel
theorem test_read_of_256_is_ill_formed : (Instr.read 256).wellFormed = false := by decide
theorem test_rbRd_of_256_is_ill_formed : (Instr.rbRd 256).wellFormed = false := by decide

/-! ### Decoding: the bytes of 30_encoding.md R81, R82 and of 95_test_vectors.md, by hand -/

theorem test_decode_open : decode [0x01#8, 0x02#8] = .command .openService [0x02#8] := by decide
theorem test_decode_close : decode [0x02#8] = .command .closeService [] := by decide
theorem test_decode_xlate : decode [0x10#8, 0x40#8, 0x01#8] = .command (.xlate 0x40#8) [0x01#8] := by decide
/-- S3: `WRITE "A#B"`. -/
theorem test_decode_write : decode [0x20#8, 0x03#8, 0x41#8, 0x23#8, 0x42#8] = .command (.write [0x41#8, 0x23#8, 0x42#8]) [] := by
  decide
theorem test_decode_read : decode [0x21#8, 0xFF#8] = .command (.read 255) [] := by decide
/-- D12b: `TRYWR` of three arbitrary bytes. -/
theorem test_decode_tryWr : decode [0x30#8, 0x03#8, 0x00#8, 0xFF#8, 0x41#8] = .command (.tryWr [0x00#8, 0xFF#8, 0x41#8]) [] := by
  decide
theorem test_decode_rbRd : decode [0x31#8, 0x00#8] = .command (.rbRd 0) [] := by decide
/-- D30a: a reserved opcode is one byte. -/
theorem test_decode_reserved : decode [0xFF#8, 0x01#8] = .reserved 0xFF#8 [0x01#8] := by decide
/-- D33: a command cut short. -/
theorem test_decode_incomplete : decode [0x20#8, 0x03#8, 0x53#8, 0x4F#8] = .incomplete := by decide
/-- Bit 0 of a table word is bit 0 of the first byte: `10 53` is the word `0x5310`. -/
theorem test_tableWord_xlate : decodeTableWord 16 0x5310 = some (.xlate 0x53#8) := by decide
/-- A payload above the row's bits is zeros: `20 02 00 00`. -/
theorem test_tableWord_write : decodeTableWord 16 0x0220 = some (.write [0x00#8, 0x00#8]) := by decide +kernel
theorem test_tableWord_open : decodeTableWord 8 0x01 = some .openService := by decide
theorem test_tableWord_reserved : decodeTableWord 8 0x00 = none := by decide

/-! ### One step, with the values of 95_test_vectors.md -/

/-- D28: OPEN does not clear the buffer. -/
theorem test_open_keeps_data :
    seen .producer (step (waiting .producer [0x01#8] (holding 0 sosBytes))) = some (0, 12, 12, [0x00#8, 0x00#8]) := by decide
/-- D28a: OPEN on port `C`. -/
theorem test_open_on_c :
    seen .consumer (step (waiting .consumer [0x01#8] (holding 0 sosBytes))) = some (0, 12, 12, [0x00#8, 0x00#8]) := by decide
/-- D29: data survives CLOSE. -/
theorem test_close_keeps_data :
    seen .producer (step (waiting .producer [0x02#8] (holding 0 sosBytes))) = some (0, 12, 12, [0x00#8, 0x00#8]) := by decide

/-- D2: `XLATE 's'`. -/
theorem test_xlate_lower_case_s :
    seen .producer (step (waiting .producer [0x10#8, 0x73#8] .reset)) =
      some (0, 0, 0, [0x00#8, 0x04#8, 0x2E#8, 0x2E#8, 0x2E#8, 0x20#8]) := by decide
/-- S4: `XLATE '#'`. -/
theorem test_xlate_unsupported :
    seen .producer (step (waiting .producer [0x10#8, 0x23#8] .reset)) = some (0, 0, 0, [0x01#8, 0x00#8]) := by decide

/-- D24b: WRITE stores at `writeCursor` and leaves `readCursor`. -/
theorem test_write_leaves_readCursor :
    seen .producer (step (waiting .producer [0x20#8, 0x01#8, 0x41#8] (dots 12 0))) = some (12, 15, 3, [0x00#8, 0x01#8]) := by decide
/-- S5: `@` needs 8 bytes, 6 are free. -/
theorem test_write_at_sign_is_rejected :
    seen .producer (step (waiting .producer [0x20#8, 0x01#8, 0x40#8] (dots 0 24))) = some (0, 24, 24, [0x04#8, 0x00#8]) := by decide

/-- R119 and R229 at the least legal capacity, `N = LMAX = 8`: `@` fills the empty buffer and the cursor wraps. -/
theorem test_write_at_sign_fills_a_buffer_of_8 :
    seen .producer (step (waiting .producer [0x20#8, 0x02#8, 0x40#8, 0x40#8] (State.resetWith .wholeBlock 8))) = some (0, 0, 8, []) := by
  decide

/-- D25: the read cuts inside a character. -/
theorem test_read_inside_a_character :
    seen .consumer (step (waiting .consumer [0x21#8, 0x05#8] (holding 0 sosBytes))) =
      some (5, 12, 7, [0x00#8, 0x05#8, 0x2E#8, 0x2E#8, 0x2E#8, 0x20#8, 0x2D#8]) := by decide
/-- D26: `READ 0`. -/
theorem test_read_zero :
    seen .consumer (step (waiting .consumer [0x21#8, 0x00#8] (holding 5 (sosBytes.drop 5)))) =
      some (5, 12, 7, [0x00#8, 0x00#8]) := by decide

/-- D8: one byte too many. -/
theorem test_tryWr_one_too_many :
    seen .bus (step (waiting .bus [0x30#8, 0x04#8, 0x2E#8, 0x2E#8, 0x2E#8, 0x20#8] (dots 0 27))) =
      some (0, 27, 27, [0x00#8, 0x00#8]) := by decide
/-- D9: the wrap inside one call. -/
theorem test_tryWr_wraps :
    (tryWrite [0x2E#8, 0x2D#8, 0x2E#8, 0x20#8] (dots 28 0)).2.storage =
      [(0, 0x2E#8), (1, 0x20#8), (28, 0x2E#8), (29, 0x2D#8)] ∧
    seen .bus (step (waiting .bus [0x30#8, 0x04#8, 0x2E#8, 0x2E#8, 0x2E#8, 0x20#8] (dots 28 0))) =
      some (28, 2, 4, [0x00#8, 0x04#8]) := by decide

/-- The TRYWR of a WRITE is issued on port `I` and answered there (30_encoding.md R84), the WRITE on port `P`. -/
theorem test_write_drives_port_i :
    seen .bus (step (waiting .producer [0x20#8, 0x01#8, 0x53#8] (dots 0 26))) = some (0, 0, 30, [0x00#8, 0x04#8]) ∧
    seen .bus (step (waiting .producer [0x20#8, 0x01#8, 0x53#8] (dots 0 27))) = some (0, 27, 27, [0x00#8, 0x00#8]) := by
  decide
/-- The block behind its external ports takes no command on port `I` (00_scope.md R11). -/
theorem test_tryWr_from_outside_is_refused_in_the_whole_block :
    step ((wired .wholeBlock (dots 0 4)).withScript [.arrive .bus [0x30#8, 0x00#8]]) = .refused .unreachedPort ∧
    step ((wired .wholeBlock (dots 0 4)).withScript [.turn .bus]) = .refused .unreachedPort := ⟨rfl, rfl⟩
/-- Where the agents drive port `I` themselves (42_encoder_service.md R167), the producer's TRYWR waits for its WRITE, the
consumer's RBRD does not (R163). -/
theorem test_tryWr_waits_for_the_write_and_rbRd_does_not :
    left .bus (step (waiting .bus [0x30#8, 0x01#8, 0x2E#8] (midWrite (dots 0 4)))) =
      some ([0x30#8, 0x01#8, 0x2E#8], []) ∧
    seen .bus (step (waiting .bus [0x31#8, 0x02#8] (midWrite (dots 0 4)))) =
      some (2, 4, 2, [0x00#8, 0x02#8, 0x2E#8, 0x2E#8]) := by decide
/-- D19: an empty WRITE, answered as it arrives, with no step of the producer (70_reset_and_hazards.md R232). -/
theorem test_empty_write_takes_no_turn :
    left .producer (step ((dots 0 4).withScript [.arrive .producer [0x20#8, 0x00#8, 0x01#8]])) =
      some ([0x01#8], [0x04#8, 0x00#8]) := by decide
/-- Behind another command it is answered in that one's step, after it (30_encoding.md R80). -/
theorem test_empty_write_follows_its_predecessor :
    left .producer (step (waiting .producer [0x01#8, 0x20#8, 0x00#8, 0x02#8] (dots 0 4))) =
      some ([0x02#8], [0x00#8, 0x00#8, 0x04#8, 0x00#8]) := by decide

/-- D15: the short read at the end of storage. -/
theorem test_rbRd_short_read :
    seen .bus (step (waiting .bus [0x31#8, 0x1E#8] (holding 28 sosBytes))) =
      some (0, 10, 10, [0x00#8, 0x02#8, 0x2E#8, 0x2E#8]) := by decide
/-- D16a: `readCursor + k = N` exactly. -/
theorem test_rbRd_to_the_end :
    seen .bus (step (waiting .bus [0x31#8, 0x1E#8] (holding 26 [0x2E#8, 0x2E#8, 0x2E#8, 0x20#8]))) =
      some (0, 0, 0, [0x00#8, 0x04#8, 0x2E#8, 0x2E#8, 0x2E#8, 0x20#8]) := by decide

/-- D30a: a reserved opcode is consumed alone. -/
theorem test_reserved_opcode :
    left .producer (step (waiting .producer [0xFF#8, 0x01#8] .reset)) = some ([0x01#8], [0xFF#8, 0x00#8]) := by decide
/-- D31: `TRYWR` on port `P` is consumed whole. -/
theorem test_tryWr_on_p :
    left .producer (step (waiting .producer [0x30#8, 0x04#8, 0x2E#8, 0x2E#8, 0x2E#8, 0x20#8, 0x01#8] .reset)) =
      some ([0x01#8], [0xFF#8, 0x00#8]) := by decide

/-! ### The textual form (30_encoding.md R90; S5's and D1's lines) -/

theorem test_text_of_write :
    commandText .producer (.write [0x40#8]) = ['W', 'R', 'I', 'T', 'E', ' ', quoteChar, '@', quoteChar] := by decide
theorem test_text_of_open_on_c : commandText .consumer .openService = ['C', ':', ' ', 'O', 'P', 'E', 'N'] := by decide
theorem test_text_of_response :
    responseText (.xlate 0x53#8) ⟨.ok, 4, [0x2E#8, 0x2E#8, 0x2E#8, 0x20#8]⟩ =
      ['-', '>', ' ', 'O', 'K', ' ', '4', ' ', quoteChar, '.', '.', '.', ' ', quoteChar] := by decide

/-! ### The word the host gives runs as the first instruction after reset -/

theorem test_fetchWord_runs :
    seen .producer (step (State.reset.withFetchWord 16 0x5310)) =
      some (0, 0, 0, [0x00#8, 0x04#8, 0x2E#8, 0x2E#8, 0x2E#8, 0x20#8]) := by decide
theorem test_fetchWord_bus_command :
    seen .bus (step (State.reset.withFetchWord 16 0x0231)) = some (0, 0, 0, [0x00#8, 0x00#8]) := by decide

/-! ### Witnesses: for each statement with hypotheses, states and operands that meet them together -/

theorem witness_DecodeOfEncodeIsTheInstruction :
    (Instr.write []).wellFormed = true ∧ (Instr.write (List.replicate 255 0x53#8)).wellFormed = true ∧
    (Instr.read 255).wellFormed = true ∧ (Instr.tryWr [0x2E#8]).wellFormed = true := by decide +kernel

theorem witness_DecodedBytesAreTheEncoding : decode [0x21#8, 0x1E#8, 0x02#8] = .command (.read 30) [0x02#8] := by decide

theorem witness_IllegalCommandsAreConsumedAndAnswered :
    (let s := waiting .producer [0x00#8, 0x01#8] .reset;
      s.alive = true ∧ s.script = [.turn .producer] ∧ reached s .producer = true ∧ s.writing = none ∧
        0x00#8 ∉ [0x01#8, 0x02#8, 0x10#8, 0x20#8, 0x21#8, 0x30#8, 0x31#8] ∧
        (s.port .producer).inward = [0x00#8, 0x01#8]) ∧
    (let s := waiting .consumer (encode (.xlate 0x53#8)) .reset;
      s.alive = true ∧ s.script = [.turn .consumer] ∧ reached s .consumer = true ∧ (Instr.xlate 0x53#8).wellFormed = true ∧
        admits .consumer (.xlate 0x53#8) = false ∧ (s.port .consumer).inward = encode (.xlate 0x53#8) ++ []) := by
  decide

theorem witness_OperationsRunOnlyOnTheirPorts :
    admits (State.reset.withActivePort .consumer).activePort (.write [0x53#8]) = false ∧
    admits State.reset.activePort (.rbRd 30) = false := by decide

theorem witness_IncompleteCommandWaits :
    (Instr.write [0x53#8, 0x4F#8]).wellFormed = true ∧ 3 < (encode (.write [0x53#8, 0x4F#8])).length ∧
    (let s := waiting .producer [0x20#8, 0x03#8, 0x53#8] .reset;
      s.alive = true ∧ s.script = [.turn .producer] ∧ reached s .producer = true ∧ s.writing = none ∧
        decode (s.port .producer).inward = .incomplete) := by decide

/-- An RBRD in the middle of a WRITE; a TRYWR with none in progress. -/
theorem witness_StepRunsTheDecodedInstruction :
    (let s := waiting .bus [0x31#8, 0x1E#8, 0x31#8] (midWrite (holding 28 sosBytes));
      s.alive = true ∧ s.script = [.turn .bus] ∧ reached s .bus = true ∧
        decode (s.port .bus).inward = .command (.rbRd 30) [0x31#8]) ∧
    let s := waiting .bus [0x30#8, 0x01#8, 0x2E#8] (holding 28 sosBytes)
    s.alive = true ∧ s.script = [.turn .bus] ∧ reached s .bus = true ∧ s.writing = none ∧
      decode (s.port .bus).inward = .command (.tryWr [0x2E#8]) [] := by decide

theorem witness_FetchedWordIsTheNextInstruction : decodeTableWord 16 0x1E21 = some (.read 30) := by decide

/-- A longer stream; a whole command; a reserved opcode; a command of 5 bytes of which 4 have arrived. -/
theorem witness_LengthIsKnownFromTheFirstTwoBytes :
    2 ≤ [0x20#8, 0x03#8, 0x53#8].length ∧
    decode [0x21#8, 0x1E#8, 0x02#8] = .command (.read 30) [0x02#8] ∧
    decode [0xFF#8, 0x01#8] = .reserved 0xFF#8 [0x01#8] ∧
    decode [0x20#8, 0x03#8, 0x53#8, 0x4F#8] = .incomplete ∧
    commandLength [0x20#8, 0x03#8, 0x53#8, 0x4F#8] = some 5 := by decide

theorem witness_EveryCommandIsAnsweredOnce :
    (∃ t, exec (.write [0x53#8, 0x4F#8]) State.reset = .next t ∧ t.writing = some ⟨[0x53#8, 0x4F#8], 1⟩) ∧
    ∃ t, exec (.read 30) State.reset = .next t := ⟨⟨_, rfl, rfl⟩, ⟨_, rfl⟩⟩

theorem witness_CountsAboveTheFieldReadAsTheLargest :
    Config.LegalCapacity (dots 0 30).capacity ∧ 255 ≤ 255 ∧ 255 ≤ 256 := by decide

theorem witness_SupportedSetIsExact :
    49 < 50 ∧ romIndex 0x40#8 = some 49 ∧ 0x61 ≤ (0x61#8).toNat ∧ (0x7A#8).toNat ≤ 0x7A := by decide

theorem witness_LettersAreCaseInsensitive :
    0x61 ≤ (0x61#8).toNat ∧ (0x61#8).toNat ≤ 0x7A ∧ 0x61 ≤ (0x7A#8).toNat ∧ (0x7A#8).toNat ≤ 0x7A := by decide

/-- The least and the greatest legal capacity, and this hardware's. -/
theorem witness_SequencesAreMarksAndOneSeparator :
    supported 0x22#8 = true ∧ supported 0x7A#8 = true ∧ Config.LegalCapacity 8 ∧ Config.LegalCapacity 255 ∧
    Config.LegalCapacity 30 ∧ ¬ Config.LegalCapacity 7 ∧ ¬ Config.LegalCapacity 256 := by decide

theorem witness_OtherSequencesAreShorterThanAtSign : 0x3F#8 ≠ 0x40#8 ∧ 0x41#8 ≠ 0x40#8 := by decide

theorem witness_BothTablesAreWellFormed :
    Config.LegalCapacity 30 ∧ (List.replicate 7 Mark.dash).length = 7 := by decide

theorem witness_OpenSucceedsAndChangesNothing :
    State.reset.activePort = .producer ∧ ((dots 4 30).withActivePort .consumer).activePort = .consumer := by decide

theorem witness_CloseSucceedsAndChangesNothing :
    (dots 4 30).activePort = .producer ∧ (State.reset.withActivePort .consumer).activePort = .consumer := by decide

theorem witness_XlateAnswersTheSequence :
    State.reset.activePort = .producer ∧ supported 0x53#8 = true ∧ supported 0x23#8 = false := by decide

/-- An exact fit, and one byte too many (D7, D8). -/
theorem witness_TryWriteAdmitsAllOrNothing :
    ([] : List Byte).length ≤ 255 ∧ ((dots 0 26).withActivePort .bus).activePort = .bus ∧
    4 ≤ (dots 0 26).capacity - ((dots 0 26).withActivePort .bus).occupancy ∧
    ((dots 0 27).withActivePort .bus).activePort = .bus ∧
    ¬ 4 ≤ (dots 0 27).capacity - ((dots 0 27).withActivePort .bus).occupancy := by decide

theorem witness_DegenerateCandidatesChangeNothing :
    ((dots 4 30).withActivePort .bus).activePort = .bus ∧ RegistersInRange ((dots 4 30).withActivePort .bus) ∧
    ((dots 4 30).withActivePort .bus).capacity < (List.replicate 31 0x2E#8).length ∧ Config.LegalCapacity 30 ∧
    translateByte 0x53#8 = some [0x2E#8, 0x2E#8, 0x2E#8, 0x20#8] := by
  exact ⟨rfl, in_range_of (by decide), by decide⟩

theorem witness_TryWriteAppendsToTheQueue :
    ((dots 28 0).withActivePort .bus).activePort = .bus ∧ RegistersInRange ((dots 28 0).withActivePort .bus) ∧
    CursorsConsistent ((dots 28 0).withActivePort .bus) :=
  ⟨rfl, in_range_of (by decide), consistent_of (by decide)⟩

theorem witness_RingReadReturnsTheContiguousRun : ((holding 28 sosBytes).withActivePort .bus).activePort = .bus := by decide

theorem witness_ReadDelegatesToTheRing :
    ((holding 28 sosBytes).withActivePort .consumer).activePort = .consumer := by decide

theorem witness_RingReadTakesFromTheQueue :
    ((holding 28 sosBytes).withActivePort .bus).activePort = .bus ∧
    RegistersInRange ((holding 28 sosBytes).withActivePort .bus) :=
  ⟨rfl, in_range_of (by decide)⟩

/-- Nothing held; nothing asked for. -/
theorem witness_EmptyReadIsNoError :
    (((dots 7 0).withActivePort .bus).activePort = .bus ∧ RegistersInRange ((dots 7 0).withActivePort .bus) ∧
      ((dots 7 0).withActivePort .bus).occupancy = 0) ∧
    ((holding 0 sosBytes).withActivePort .bus).activePort = .bus ∧
    RegistersInRange ((holding 0 sosBytes).withActivePort .bus) ∧ (0 : Nat) = 0 :=
  ⟨⟨rfl, in_range_of (by decide), rfl⟩, rfl, in_range_of (by decide), rfl⟩

/-- A read that ends short, at the boundary `maxCount = occupancy`; a read of one byte; reads of exactly `N`. -/
theorem witness_TwoReadsEmptyTheBuffer :
    let s := (holding 28 sosBytes).withActivePort .bus
    s.activePort = .bus ∧ RegistersInRange s ∧ s.occupancy ≤ 12 ∧ s.capacity - s.readCursor < s.occupancy ∧
      0 < 1 ∧ 0 < s.occupancy ∧ s.capacity ≤ 30 :=
  ⟨rfl, in_range_of (by decide), by decide⟩

theorem witness_DrainReturnsTheQueueInThreeReads :
    Config.LegalCapacity (dots 29 30).capacity ∧ RegistersInRange (dots 29 30) :=
  ⟨by decide, in_range_of (by decide)⟩

theorem witness_WriteTakesItsFirstIteration :
    (List.replicate 255 0x53#8).length ≤ 255 ∧ (dots 0 30).activePort = .producer ∧ (dots 0 30).writing = none := by
  decide +kernel

theorem witness_WriteGoesOnByIterations :
    let s := midWrite ((dots 0 4).withScript [.turn .producer])
    s.alive = true ∧ s.script = [.turn .producer] ∧ reached s .producer = true ∧
      s.writing = some ⟨[0x53#8, 0x4F#8], 1⟩ := by decide

/-- An empty input and the longest one on their way to an empty stream; a WRITE that waits whole. -/
theorem witness_WriteAloneRunsItsWholeLoop :
    ((dots 0 24).alive = true ∧ reached (dots 0 24) .producer = true ∧ (dots 0 24).writing = none ∧
      (dots 0 24).portP.inward = [] ∧ ([] : List Byte).length ≤ 255 ∧ (List.replicate 255 0x53#8).length ≤ 255) ∧
    let s := { wired .wholeBlock (dots 0 24) with portP := ⟨encode (.write [0x53#8, 0x40#8]), []⟩ }
    s.alive = true ∧ reached s .producer = true ∧ s.writing = none ∧ [0x53#8, 0x40#8].length ≤ 255 ∧
      s.portP.inward = encode (.write [0x53#8, 0x40#8]) ∧ [0x53#8, 0x40#8] ≠ [] := by
  exact ⟨by decide +kernel, by decide⟩

/-- D22a: the second byte is the rejected one. -/
theorem witness_ConsumedCountStopsAtTheRejectedByte :
    (writeLoop [0x53#8, 0x40#8, 0x45#8] 0 (dots 0 24)).1 < [0x53#8, 0x40#8, 0x45#8].length := by decide

/-- D18: a supported first byte that does not fit. -/
theorem witness_NoProgressExactlyWhenNothingIsConsumed :
    (writeLoop [0x53#8] 0 (dots 0 30)).1 = 0 ∧ supported 0x53#8 = true ∧
    (dots 0 30).capacity - (dots 0 30).occupancy < (sequenceFor 0x53#8).length := by decide

theorem witness_WriteAppendsTheEncodedText :
    RegistersInRange (dots 28 0) ∧ CursorsConsistent (dots 28 0) ∧
    (writeLoop [0x53#8, 0x4F#8, 0x53#8] 0 (dots 28 0)).1 = [0x53#8, 0x4F#8, 0x53#8].length :=
  ⟨in_range_of (by decide), consistent_of (by decide), by decide⟩

theorem witness_ChunkedWritesAgree : (writeLoop [0x53#8] 0 State.reset).1 = [0x53#8].length := by decide

theorem witness_UnsupportedBytesAreSilent : ∀ c ∈ [0x23#8, 0x20#8, 0xFF#8], supported c = false := by decide

theorem witness_EmptyBufferAdmitsAnyCharacter :
    Config.LegalCapacity (dots 28 0).capacity ∧ supported 0x40#8 = true ∧ (dots 28 0).occupancy = 0 := by decide

theorem witness_ResetLeavesAnEmptyBuffer : Config.LegalCapacity 8 ∧ Config.LegalCapacity 255 := by decide

theorem witness_InvariantHoldsAtReset : Config.LegalCapacity 8 ∧ Config.LegalCapacity 255 := by decide

theorem witness_EmptyAndFullAreToldByOccupancy :
    (Config.LegalCapacity (dots 0 0).capacity ∧ RegistersInRange (dots 0 0) ∧ CursorsConsistent (dots 0 0) ∧ isEmpty (dots 0 0) = true) ∧
    RegistersInRange (dots 0 30) ∧ CursorsConsistent (dots 0 30) ∧ isFull (dots 0 30) = true :=
  ⟨⟨by decide, in_range_of (by decide), consistent_of (by decide), by decide⟩, in_range_of (by decide),
    consistent_of (by decide), by decide⟩

theorem witness_RingOperationsKeepTheInvariants :
    RegistersInRange (dots 26 4) ∧ CursorsConsistent (dots 26 4) ∧
    Config.LegalCapacity 30 ∧ (∃ t, exec (.tryWr [0x2E#8]) ((dots 26 4).withActivePort .bus) = .next t) ∧
    ∃ t, exec (.rbRd 30) ((dots 26 4).withActivePort .bus) = .next t :=
  ⟨in_range_of (by decide), consistent_of (by decide), by decide, ⟨_, rfl⟩, ⟨_, rfl⟩⟩

theorem witness_EveryStepKeepsTheInvariant :
    Inv (waiting .bus [0x31#8, 0x1E#8] (holding 28 sosBytes)) ∧
    ∃ t, step (waiting .bus [0x31#8, 0x1E#8] (holding 28 sosBytes)) = .next t :=
  ⟨inv_of_parts _ (by decide) (by decide) (by decide) (by decide) (by decide) rfl (by decide) (by decide) (by decide), ⟨_, rfl⟩⟩

theorem witness_FirstInFirstOut :
    RegistersInRange (dots 29 30) ∧ CursorsConsistent (dots 29 30) ∧
    Config.LegalCapacity 30 ∧ ((dots 29 30).withActivePort .bus).activePort = .bus :=
  ⟨in_range_of (by decide), consistent_of (by decide), by decide, rfl⟩

/-- The block behind its external ports; and every port reached, an RBRD next on `I`. -/
theorem witness_MorseStreamIsKept :
    (let s := wired .wholeBlock (waiting .producer [0x20#8, 0x01#8, 0x53#8] (holding 5 (sosBytes.drop 5)));
      Inv s ∧ s.wiring = .wholeBlock ∧ IsMorseTail (queue s) ∧ ∃ t, step s = .next t) ∧
    let s := waiting .bus [0x31#8, 0x1E#8] (holding 5 (sosBytes.drop 5))
    Inv s ∧ (∀ seq rest, decode (s.port .bus).inward ≠ .command (.tryWr seq) rest) ∧ IsMorseTail (queue s) ∧
      ∃ t, step s = .next t :=
  ⟨⟨inv_of_parts _ (by decide) (by decide) (by decide) (by decide) (by decide) rfl (by decide) (by decide) (by decide), rfl,
    .inr ⟨0x4F#8, [0x53#8], 1, by decide, by decide, by rfl⟩, ⟨_, rfl⟩⟩,
    inv_of_parts _ (by decide) (by decide) (by decide) (by decide) (by decide) rfl (by decide) (by decide) (by decide), nofun,
    .inr ⟨0x4F#8, [0x53#8], 1, by decide, by decide, by rfl⟩, ⟨_, rfl⟩⟩

theorem witness_MorseTailsEndWithASeparator : IsMorseTail [0x2D#8, 0x20#8] :=
  .inr ⟨0x4F#8, [], 2, by decide, by decide, by rfl⟩

theorem witness_EachAgentOwnsItsSide :
    (let s := waiting .producer [0x20#8, 0x01#8, 0x53#8] (dots 28 0);
      s.script = [.turn .producer] ∧ ∃ t, step s = .next t) ∧
    let s := waiting .consumer [0x21#8, 0x1E#8] (dots 28 12)
    s.script = [.turn .consumer] ∧ ∃ t, step s = .next t :=
  ⟨⟨rfl, ⟨_, rfl⟩⟩, rfl, ⟨_, rfl⟩⟩

theorem witness_CharactersEnterWhole :
    let s := waiting .producer [0x20#8, 0x01#8, 0x53#8] (dots 28 0)
    Inv s ∧ s.script = [.turn .producer] ∧ ∃ t, step s = .next t :=
  ⟨inv_of_parts _ (by decide) (by decide) (by decide) (by decide) (by decide) rfl (by decide) (by decide) (by decide), rfl, ⟨_, rfl⟩⟩

/-- A turn that reads, and one that answers without reading. -/
theorem witness_ConsumerGetsWhatLeavesTheQueue :
    (let s := waiting .consumer [0x21#8, 0x1E#8] (dots 28 12);
      Inv s ∧ s.script = [.turn .consumer] ∧ ∃ t, step s = .next t) ∧
    let s := waiting .consumer [0x01#8] (dots 28 12)
    Inv s ∧ s.script = [.turn .consumer] ∧ ∃ t, step s = .next t :=
  ⟨⟨inv_of_parts _ (by decide) (by decide) (by decide) (by decide) (by decide) rfl (by decide) (by decide) (by decide), rfl, ⟨_, rfl⟩⟩,
    inv_of_parts _ (by decide) (by decide) (by decide) (by decide) (by decide) rfl (by decide) (by decide) (by decide), rfl, ⟨_, rfl⟩⟩

/-- No event; a turn with half a command waiting; an arrival in the middle of a WRITE; and, each of the seven operations on
a port that admits it, right after reset. -/
theorem witness_NoOperationBlocks :
    (State.reset.alive = true ∧ State.reset.script = []) ∧
    (let s := waiting .bus [0x31#8] State.reset;
      s.alive = true ∧ s.script = [.turn .bus] ∧ reached s .bus = true) ∧
    (let s := midWrite ((dots 0 4).withScript [.arrive .consumer [0x21#8]]);
      s.alive = true ∧ s.script = [.arrive .consumer [0x21#8]] ∧ reached s .consumer = true) ∧
    State.reset.alive = true ∧ State.reset.wiring = .everyPort ∧ State.reset.writing = none ∧
    ∀ c ∈ [(Instr.openService, Port.producer), (.closeService, .consumer), (.xlate 0x53#8, .producer), (.write [], .producer),
      (.read 255, .consumer), (.tryWr [], .bus), (.rbRd 0, .bus)],
      c.1.wellFormed = true ∧ admits c.2 c.1 = true ∧ (State.reset.port c.2).inward = [] := by decide

theorem witness_UndirectedStepIsSomePortsTurn :
    let s := { dots 0 4 with portP := ⟨[0x01#8], []⟩, portC := ⟨[0x21#8, 0x04#8], []⟩ }
    s.alive = true ∧ s.script = [] ∧ readyPorts s = [.producer, .consumer] := by decide

theorem witness_QuiescentMachineWaits :
    let s := { dots 0 4 with portP := ⟨[0x20#8, 0x02#8, 0x53#8], []⟩ }
    s.alive = true ∧ s.script = [] ∧ quiescent s = true := by decide

/-- An arrival on `C`; one on `P` that completes an empty WRITE. -/
theorem witness_ArrivalAppendsToItsPort :
    (let s := { dots 0 4 with portP := ⟨[0x20#8], []⟩ }.withScript [.arrive .producer [0x00#8]];
      s.alive = true ∧ s.script = [.arrive .producer [0x00#8]] ∧ reached s .producer = true) ∧
    let s := (dots 0 4).withScript [.arrive .consumer [0x21#8], .turn .consumer]
    s.alive = true ∧ s.script = [.arrive .consumer [0x21#8], .turn .consumer] ∧ reached s .consumer = true := by decide

/-- A shutdown of a quiescent machine, one inside a WRITE, and a machine shut down. -/
theorem witness_ShutdownEndsTheRun :
    (let s := (dots 0 4).withScript [.shutdown];
      s.alive = true ∧ s.script = [.shutdown] ∧ quiescent s = true) ∧
    (let s := midWrite ((dots 0 4).withScript [.shutdown]);
      s.alive = true ∧ s.script = [.shutdown] ∧ quiescent s = false) ∧
    ({ dots 0 4 with alive := false } : State).alive = false := by decide

/-- A WRITE inside a WRITE; a TRYWR that waits for one; a turn and an arrival at port `I` of the block behind its external
ports; a step there and in the ring buffer alone. -/
theorem witness_SecondProducerIsRefused :
    (let s := midWrite (dots 0 4);
      s.activePort = .producer ∧ s.writing = some ⟨[0x53#8, 0x4F#8], 1⟩) ∧
    (let s := waiting .bus [0x30#8, 0x01#8, 0x2E#8] (midWrite (dots 0 4));
      s.alive = true ∧ s.script = [.turn .bus] ∧ reached s .bus = true ∧ s.writing.isSome = true ∧
        decode (s.port .bus).inward = .command (.tryWr [0x2E#8]) []) ∧
    (let s := (wired .wholeBlock (dots 0 4)).withScript [.turn .bus];
      s.alive = true ∧ reached s .bus = false ∧ s.script = [.turn .bus]) ∧
    (let s := (wired .wholeBlock (dots 0 4)).withScript [.arrive .bus [0x30#8]];
      s.alive = true ∧ reached s .bus = false ∧ s.script = [.arrive .bus [0x30#8]]) ∧
    (∃ t, step (wired .wholeBlock (waiting .consumer [0x21#8, 0x04#8] (dots 0 4))) = .next t) ∧
    (wired .wholeBlock (waiting .consumer [0x21#8, 0x04#8] (dots 0 4))).wiring = .wholeBlock ∧
    (∃ t, step (wired .ringAlone (waiting .bus [0x31#8, 0x04#8] (dots 0 4))) = .next t) ∧
    (wired .ringAlone (waiting .bus [0x31#8, 0x04#8] (dots 0 4))).wiring = .ringAlone :=
  ⟨by decide, by decide, by decide, by decide, ⟨_, rfl⟩, rfl, ⟨_, rfl⟩, rfl⟩

/-- Counters of 5 bits, the fewest that can hold `N`, one of them wrapped: 3 written past the wrap, 29 read. `N` divides
no power of two, so their cursors are registers of their own. -/
theorem witness_FiniteCountersAgreeWithTheRecord :
    let b : WrappedRing 5 := ⟨[], 29, 5, 3#5, 29#5⟩
    State.reset.capacity < 2 ^ 5 ∧ b.occupancy = 6 ∧ b.occupancy ≤ State.reset.capacity ∧
      b.totalWritten.toNat % State.reset.capacity ≠ b.writeCursor := by decide

theorem witness_CountersAgreeWithTheRecord :
    (7 : Nat) ≤ 37 ∧ 37 ≤ 7 + State.reset.capacity ∧ State.reset.capacity < 2 ^ 5 := by decide

theorem witness_EveryConsistentRegisterStateIsReached : 29 < 30 ∧ 30 ≤ 30 := by decide

end Sys2Proof.Tests
end

section
/-! The two predicates read off `occupancy` (10_state.md R26), and the registers after reset (R38). -/

namespace Sys2Proof.Machine

/-! ### `EMPTY` and `FULL` -/

theorem isEmpty_iff {s : State} : isEmpty s = true ↔ s.occupancy = 0 := by simp [isEmpty]

theorem isFull_iff {s : State} : isFull s = true ↔ s.occupancy = s.capacity := by simp [isFull]

theorem isFull_eq_false_iff {s : State} : isFull s = false ↔ s.occupancy ≠ s.capacity := by simp [isFull]

theorem not_isEmpty_and_isFull {s : State} (h : 0 < s.capacity) : ¬(isEmpty s = true ∧ isFull s = true) := by
  rw [isEmpty_iff, isFull_iff]
  omega

/-- A whole turn round the storage, or none, brings `writeCursor` back to `readCursor`. -/
theorem readCursor_eq_writeCursor {s : State} (hr : RegistersInRange s) (hc : CursorsConsistent s)
    (h : isEmpty s = true ∨ isFull s = true) : s.readCursor = s.writeCursor := by
  obtain ⟨hlt, -, -⟩ := hr
  have hw : s.writeCursor = (s.readCursor + s.occupancy) % s.capacity := hc
  rw [isEmpty_iff, isFull_iff] at h
  rcases h with h0 | hN
  · rw [hw, h0, Nat.add_zero, Nat.mod_eq_of_lt hlt]
  · rw [hw, hN, Nat.add_mod_right, Nat.mod_eq_of_lt hlt]

/-! ### What an empty and a full buffer do -/

theorem queue_eq_nil_iff {s : State} : queue s = [] ↔ s.occupancy = 0 := by
  rw [← List.length_eq_zero_iff, length_queue]

theorem readCount_of_isEmpty {s : State} (h : isEmpty s = true) (m : Nat) : readCount m s = 0 :=
  Nat.le_zero.1 (isEmpty_iff.1 h ▸ readCount_le_occupancy m s)

theorem freeCapacity_of_isFull {s : State} (h : isFull s = true) : freeCapacity s = 0 := by
  rw [freeCapacity, isFull_iff.1 h, Nat.sub_self]

theorem tryWrite_of_isFull {s : State} (h : isFull s = true) {seq : List Byte} (hne : seq ≠ []) :
    tryWrite seq s = (0, s) :=
  tryWrite_rejected (by rw [freeCapacity_of_isFull h]; exact List.length_pos_iff.2 hne)

/-- Settles O42, from the two predicates as equations on `occupancy` and the cursor equation of R27. -/
theorem emptyAndFullAreToldByOccupancy : Obligations.EmptyAndFullAreToldByOccupancy :=
  ⟨fun _ => ⟨isEmpty_iff, isFull_iff, fun ⟨hpos, _, _⟩ => not_isEmpty_and_isFull hpos⟩,
    fun _ hr hc => ⟨readCursor_eq_writeCursor hr hc,
      fun he => ⟨queue_eq_nil_iff.2 (isEmpty_iff.1 he), readCount_of_isEmpty he⟩,
      fun hf _ hne => tryWrite_of_isFull hf hne⟩⟩

/-! ### The state after reset -/

theorem resetWith_registersInRange (w : Wiring) {n : Nat} (h : 0 < n) : RegistersInRange (State.resetWith w n) :=
  ⟨h, h, Nat.zero_le n⟩

theorem resetWith_cursorsConsistent (w : Wiring) (n : Nat) : CursorsConsistent (State.resetWith w n) :=
  (Nat.zero_mod n).symm

@[simp] theorem queue_resetWith (w : Wiring) (n : Nat) : queue (State.resetWith w n) = [] :=
  queue_eq_nil_iff.2 (resetWith_occupancy w n)

theorem isFull_resetWith (w : Wiring) {n : Nat} (h : 0 < n) : isFull (State.resetWith w n) = false :=
  isFull_eq_false_iff.2 (Nat.ne_of_lt h)

/-- Settles O41: every field is read off `State.resetWith`, and a legal capacity is not 0. -/
theorem resetLeavesAnEmptyBuffer : Obligations.ResetLeavesAnEmptyBuffer := by
  refine ⟨⟨.everyPort, rfl⟩, by decide, fun w n ⟨hpos, _, _⟩ => ?_⟩
  exact ⟨resetWith_capacity w n, resetWith_readCursor w n, resetWith_writeCursor w n, resetWith_occupancy w n,
    Memory.lookup_nil, queue_resetWith w n, isEmpty_iff.2 (resetWith_occupancy w n), isFull_resetWith w hpos,
    resetWith_registersInRange w hpos, resetWith_cursorsConsistent w n⟩

end Sys2Proof.Machine
end

section
/-! First in, first out (20_memory.md R62): what one operation of the ring buffer admits and returns, the registers and the
queue it leaves, its induction over every sequence, and the machine's operations on port `I` as those of the sequence. -/

namespace Sys2Proof.Machine

/-! ### The registers stay in range and consistent (10_state.md R25, R27) -/

theorem admitBytes_registersInRange {s : State} {seq : List Byte} (hr : RegistersInRange s)
    (hfit : seq.length ≤ freeCapacity s) : RegistersInRange (admitBytes seq s) := by
  obtain ⟨hrc, -, hocc⟩ := hr
  refine ⟨hrc, Nat.mod_lt _ (Nat.zero_lt_of_lt hrc), ?_⟩
  simp only [freeCapacity] at hfit
  simp only [admit_occupancy, admit_capacity]
  omega

theorem admitBytes_cursorsConsistent {s : State} (seq : List Byte) (hc : CursorsConsistent s) :
    CursorsConsistent (admitBytes seq s) :=
  writeIndex_eq hc seq.length

theorem consume_registersInRange {s : State} (k : Nat) (hr : RegistersInRange s) : RegistersInRange (consume k s) := by
  obtain ⟨hrc, hwc, hocc⟩ := hr
  exact ⟨Nat.mod_lt _ (Nat.zero_lt_of_lt hrc), hwc, Nat.le_trans (Nat.sub_le _ _) hocc⟩

theorem consume_cursorsConsistent {s : State} {k : Nat} (hk : k ≤ s.occupancy) (hc : CursorsConsistent s) :
    CursorsConsistent (consume k s) := by
  have hw : s.writeCursor = (s.readCursor + s.occupancy) % s.capacity := hc
  simp only [CursorsConsistent, consume_writeCursor, consume_readCursor, consume_occupancy, consume_capacity,
    advanceCursor, Nat.mod_add_mod]
  rw [hw, Nat.add_assoc, Nat.add_sub_cancel' hk]

/-! ### What one ring operation admits, returns and leaves -/

theorem admittedBy_fits {seq : List Byte} {s : State} (h : seq.length ≤ freeCapacity s) :
    admittedBy (.tryWr seq) s = seq := by
  simp [admittedBy, tryWrite_fits h]

theorem admittedBy_rejected {seq : List Byte} {s : State} (h : freeCapacity s < seq.length) :
    admittedBy (.tryWr seq) s = [] := by
  have hne : 0 ≠ seq.length := by omega
  simp [admittedBy, tryWrite_rejected h, hne]

/-- Everything a ring operation can do: admit a whole candidate that fits, change nothing, or take the head of `Q`. -/
theorem afterRingOp_cases (o : RingOp) (s : State) :
    (∃ seq, seq.length ≤ freeCapacity s ∧ admittedBy o s = seq ∧ returnedBy o s = [] ∧
        afterRingOp o s = admitBytes seq s) ∨
      (admittedBy o s = [] ∧ returnedBy o s = [] ∧ afterRingOp o s = s) ∨
      ∃ m, admittedBy o s = [] ∧ returnedBy o s = (ringRead m s).1 ∧ afterRingOp o s = consume (readCount m s) s := by
  cases o with
  | tryWr seq =>
    rcases tryWrite_cases seq s with ⟨hfit, e⟩ | ⟨hlt, e⟩
    · exact .inl ⟨seq, hfit, admittedBy_fits hfit, rfl, congrArg Prod.snd e⟩
    · exact .inr (.inl ⟨admittedBy_rejected hlt, rfl, congrArg Prod.snd e⟩)
  | rbRd m => exact .inr (.inr ⟨m, rfl, rfl, rfl⟩)

theorem afterRingOp_registersInRange {s : State} (o : RingOp) (hr : RegistersInRange s) :
    RegistersInRange (afterRingOp o s) := by
  rcases afterRingOp_cases o s with ⟨seq, hfit, -, -, e⟩ | ⟨-, -, e⟩ | ⟨m, -, -, e⟩ <;> rw [e]
  · exact admitBytes_registersInRange hr hfit
  · exact hr
  · exact consume_registersInRange _ hr

theorem afterRingOp_cursorsConsistent {s : State} (o : RingOp) (hc : CursorsConsistent s) :
    CursorsConsistent (afterRingOp o s) := by
  rcases afterRingOp_cases o s with ⟨seq, -, -, -, e⟩ | ⟨-, -, e⟩ | ⟨m, -, -, e⟩ <;> rw [e]
  · exact admitBytes_cursorsConsistent seq hc
  · exact hc
  · exact consume_cursorsConsistent (readCount_le_occupancy m s) hc

/-- One operation loses, duplicates and reorders no byte. -/
theorem queue_append_admittedBy {s : State} (o : RingOp) (hr : RegistersInRange s) (hc : CursorsConsistent s) :
    queue s ++ admittedBy o s = returnedBy o s ++ queue (afterRingOp o s) := by
  rcases afterRingOp_cases o s with ⟨seq, hfit, ha, hb, e⟩ | ⟨ha, hb, e⟩ | ⟨m, ha, hb, e⟩ <;> rw [ha, hb, e]
  · rw [queue_admit hr hc hfit, List.nil_append]
  · rw [List.append_nil, List.nil_append]
  · obtain ⟨hrc, -, -⟩ := hr
    rw [ringRead_eq_take m s hrc, queue_consume, List.take_append_drop, List.append_nil]

/-! ### Every sequence of ring operations -/

theorem queue_append_ringRun (ops : List RingOp) (s : State) (hr : RegistersInRange s) (hc : CursorsConsistent s) :
    queue s ++ (ringRun ops s).1 = (ringRun ops s).2.1 ++ queue (ringRun ops s).2.2 := by
  induction ops generalizing s with
  | nil => exact List.append_nil _
  | cons o rest ih =>
    have hrest := ih (afterRingOp o s) (afterRingOp_registersInRange o hr) (afterRingOp_cursorsConsistent o hc)
    simp only [ringRun]
    rw [← List.append_assoc, queue_append_admittedBy o hr hc, List.append_assoc, hrest, List.append_assoc]

/-! ### The machine's TRYWR and RBRD on port `I` (30_encoding.md R84) -/

theorem exec_tryWr_bus {s : State} (seq : List Byte) (hp : s.activePort = .bus) :
    exec (.tryWr seq) s = .next (busTryWr seq s).2 := by
  have hadmits : admits s.activePort (.tryWr seq) = true := by rw [hp]; rfl
  rw [exec, execTryWr, onAdmittingPort_admitted _ hadmits]

theorem exec_rbRd_bus {s : State} (m : Nat) (hp : s.activePort = .bus) :
    exec (.rbRd m) s = .next (busRbRd m s).2 := by
  have hadmits : admits s.activePort (.rbRd m) = true := by rw [hp]; rfl
  rw [exec, execRbRd, onAdmittingPort_admitted _ hadmits]

/-- On the bus a TRYWR is the ring operation and the answer of the count admitted. -/
theorem busTryWr_snd_eq_respondOn (seq : List Byte) (s : State) :
    (busTryWr seq s).2 =
      respondOn .bus ⟨.ok, (admittedBy (.tryWr seq) s).length, []⟩ (afterRingOp (.tryWr seq) s) := by
  rcases busTryWr_cases seq s with ⟨hfit, e⟩ | ⟨hlt, e⟩
  · rw [e, admittedBy_fits hfit, afterRingOp, tryWrite_fits hfit]
  · rw [e, admittedBy_rejected hlt, afterRingOp, tryWrite_rejected hlt, List.length_nil]

/-- On the bus an RBRD is the ring operation and the answer of the bytes returned. -/
theorem busRbRd_snd_eq_respondOn (m : Nat) (s : State) :
    (busRbRd m s).2 =
      respondOn .bus ⟨.ok, (returnedBy (.rbRd m) s).length, returnedBy (.rbRd m) s⟩ (afterRingOp (.rbRd m) s) := by
  rw [busRbRd_eq, returnedBy, length_ringRead, afterRingOp]

theorem afterRingOp_port (o : RingOp) (s : State) (q : Port) : (afterRingOp o s).port q = s.port q := by
  rcases afterRingOp_cases o s with ⟨seq, -, -, -, e⟩ | ⟨-, -, e⟩ | ⟨m, -, -, e⟩ <;> rw [e]
  · exact admit_port seq s q
  · exact consume_port _ s q

theorem respondOn_sameRegisters (p : Port) (r : Response) (s : State) : SameRegisters s (respondOn p r s) :=
  ⟨respondOn_readCursor p r s, respondOn_writeCursor p r s, respondOn_occupancy p r s⟩

theorem respondOn_sameBytes (p : Port) (r : Response) (s : State) : SameBytes s (respondOn p r s) := fun a => by
  rw [respondOn_storage]

/-- A response given after a change that keeps every stream is the only answer of the two. -/
theorem respondOn_onlyAnswered {s u : State} (p : Port) (r : Response) (h : ∀ q, u.port q = s.port q) :
    OnlyAnswered p r s (respondOn p r u) := by
  intro q
  by_cases hq : q = p
  · subst hq; simp [h]
  · simp [respondOn_port_other r u hq, hq, h]

/-- A ring operation followed by its response on port `I`: the response leaves the registers and the bytes alone, the
operation the streams. -/
theorem respondOn_afterRingOp (o : RingOp) (r : Response) (s : State) :
    SameRegisters (afterRingOp o s) (respondOn .bus r (afterRingOp o s)) ∧
      SameBytes (afterRingOp o s) (respondOn .bus r (afterRingOp o s)) ∧
      OnlyAnswered .bus r s (respondOn .bus r (afterRingOp o s)) :=
  ⟨respondOn_sameRegisters _ _ _, respondOn_sameBytes _ _ _, respondOn_onlyAnswered _ _ (afterRingOp_port o s)⟩

/-- Settles O46, by induction on the sequence of operations; from reset the queue at the start is empty. -/
theorem firstInFirstOut : Obligations.FirstInFirstOut := by
  refine ⟨queue_append_ringRun, fun w n ops ⟨hpos, _, _⟩ => ?_, fun seq s hp => ?_, fun m s hp => ?_⟩
  · have h := queue_append_ringRun ops _ (resetWith_registersInRange w hpos) (resetWith_cursorsConsistent w n)
    rwa [queue_resetWith, List.nil_append] at h
  · refine ⟨_, exec_tryWr_bus seq hp, ?_⟩
    rw [busTryWr_snd_eq_respondOn]
    exact respondOn_afterRingOp (.tryWr seq) _ s
  · refine ⟨_, exec_rbRd_bus m hp, ?_⟩
    rw [busRbRd_snd_eq_respondOn]
    exact respondOn_afterRingOp (.rbRd m) _ s

end Sys2Proof.Machine
end

section
/-! The translation ROM (40_rom_translate.md): the supported set and the entries its bytes reach (R111), the two cases of a
letter (R112), the shape and the bound of every sequence (R113, R119), and the sequences the source spells out (R114). -/

namespace Sys2Proof.Machine

/-! ### The shape of a sequence (R113, R119) -/

theorem markByte_eq (m : Mark) : markByte m = 0x2E#8 ∨ markByte m = 0x2D#8 := by
  cases m with
  | dot => exact .inl rfl
  | dash => exact .inr rfl

theorem mem_map_markByte {marks : List Mark} {b : Byte} (h : b ∈ marks.map markByte) : b = 0x2E#8 ∨ b = 0x2D#8 := by
  obtain ⟨m, -, rfl⟩ := List.mem_map.1 h
  exact markByte_eq m

/-- A supported byte is answered by the sequence of one to seven marks. -/
theorem translateByte_of_supported {c : Byte} (h : supported c = true) :
    ∃ marks : List Mark, translateByte c = some (sequenceOf marks) ∧ 1 ≤ marks.length ∧ marks.length ≤ 7 := by
  rcases translateByte_cases c with ⟨hno, -⟩ | ⟨-, hseq⟩
  · rw [h] at hno
    cases hno
  · exact hseq

theorem length_sequenceFor_le (c : Byte) : (sequenceFor c).length ≤ Config.longest := by
  rcases translateByte_cases c with ⟨-, e⟩ | ⟨-, marks, e, -, hle⟩
  · simp [sequenceFor, e]
  · simpa [sequenceFor, e, Config.longest] using Nat.lt_succ_of_le hle

/-- Settles O15: the marks of the entry, as bytes, are the run before the separator. -/
theorem sequencesAreMarksAndOneSeparator : Obligations.SequencesAreMarksAndOneSeparator := by
  refine ⟨fun c hc => ?_, fun n ⟨_, _, hfits⟩ => ⟨hfits, fun c => (length_sequenceFor_le c).trans hfits⟩⟩
  obtain ⟨marks, e, hpos, hle⟩ := translateByte_of_supported hc
  have hlen : (marks.map markByte ++ [0x20#8]).length = marks.length + 1 := length_sequenceOf marks
  refine ⟨marks.map markByte, ?_, fun b => mem_map_markByte, e, ?_, ?_⟩
  · exact List.ne_nil_of_length_pos (by rwa [List.length_map])
  · rw [hlen]
    exact Nat.succ_le_succ hpos
  · rw [hlen]
    exact Nat.succ_le_succ hle

/-! ### The supported set (R111) -/

theorem supported_iff (c : Byte) : supported c = true ↔
    c.toNat = 0x22 ∨ (0x27 ≤ c.toNat ∧ c.toNat ≤ 0x2F) ∨ (0x30 ≤ c.toNat ∧ c.toNat ≤ 0x39) ∨ c.toNat = 0x3A ∨
    c.toNat = 0x3D ∨ c.toNat = 0x3F ∨ c.toNat = 0x40 ∨ (0x41 ≤ c.toNat ∧ c.toNat ≤ 0x5A) ∨
    (0x61 ≤ c.toNat ∧ c.toNat ≤ 0x7A) := by
  simp only [supported, Bool.or_eq_true, Bool.and_eq_true, beq_iff_eq, decide_eq_true_eq, or_assoc]

theorem length_filter_supported : ((List.range 256).filter fun n => supported (BitVec.ofNat 8 n)).length = 76 := by
  decide

/-- A byte that reaches each entry, in the order of R120; the upper case of a letter. -/
def entryByte (e : Nat) : Byte :=
  if e < 10 then BitVec.ofNat 8 (0x30 + e)
  else if e < 36 then BitVec.ofNat 8 (0x41 + (e - 10))
  else if e = 36 then 0x22#8
  else if e < 46 then BitVec.ofNat 8 (0x27 + (e - 37))
  else if e = 46 then 0x3A#8
  else if e = 47 then 0x3D#8
  else if e = 48 then 0x3F#8
  else 0x40#8

theorem romIndex_entryByte : ∀ e < 50, romIndex (entryByte e) = some e := by decide

/-! ### The two cases of a letter (R112) -/

theorem romIndex_of_upperCase {c : Byte} (h1 : 0x41 ≤ c.toNat) (h2 : c.toNat ≤ 0x5A) :
    romIndex c = some (c.toNat - 0x41 + 10) := by
  simp only [romIndex]
  rw [if_neg (by omega), if_pos ⟨h1, h2⟩]

theorem romIndex_of_lowerCase {c : Byte} (h1 : 0x61 ≤ c.toNat) (h2 : c.toNat ≤ 0x7A) :
    romIndex c = some (c.toNat - 0x61 + 10) := by
  simp only [romIndex]
  rw [if_neg (by omega), if_neg (by omega), if_pos ⟨h1, h2⟩]

/-- The two cases of a letter are the same distance into their ranges. -/
theorem romIndex_sub_of_lowerCase {c : Byte} (h1 : 0x61 ≤ c.toNat) (h2 : c.toNat ≤ 0x7A) :
    romIndex c = romIndex (c - 0x20#8) := by
  have hsub : (c - 0x20#8).toNat = c.toNat - 0x20 := by bv_omega
  rw [romIndex_of_lowerCase h1 h2, romIndex_of_upperCase (by omega) (by omega), hsub, Nat.sub_sub]

theorem translateByte_congr {c d : Byte} (h : romIndex c = romIndex d) : translateByte c = translateByte d :=
  congrArg (Option.map rom) h

/-- Settles O14: the two cases of a letter reach one entry. -/
theorem lettersAreCaseInsensitive : Obligations.LettersAreCaseInsensitive :=
  fun _ h1 h2 => translateByte_congr (romIndex_sub_of_lowerCase h1 h2)

/-- Settles O13: the ranges by `supported_iff`, the entries by `entryByte`, the letters by O14. -/
theorem supportedSetIsExact : Obligations.SupportedSetIsExact := by
  refine ⟨fun c => ?_, length_filter_supported, fun e he => ⟨entryByte e, romIndex_entryByte e he⟩, romIndex_lt,
    fun c h1 h2 => ⟨romIndex_sub_of_lowerCase h1 h2, lettersAreCaseInsensitive c h1 h2⟩⟩
  rw [translateByte_isSome]
  exact supported_iff c

/-! ### The sequences the source spells out (R114) -/

theorem translateByte_of_romIndex {c : Byte} {e : Nat} {seq : List Byte} (hi : romIndex c = some e) (hseq : rom e = seq) :
    translateByte c = some seq := by
  rw [translateByte, translateIn, hi, Option.map_some, hseq]

theorem rom_A : rom 10 = [0x2E#8, 0x2D#8, 0x20#8] := rfl

theorem rom_B : rom 11 = [0x2D#8, 0x2E#8, 0x2E#8, 0x2E#8, 0x20#8] := rfl

theorem rom_O : rom 24 = [0x2D#8, 0x2D#8, 0x2D#8, 0x20#8] := rfl

theorem rom_S : rom 28 = [0x2E#8, 0x2E#8, 0x2E#8, 0x20#8] := rfl

/-- Settles O16: the upper cases by the entries they reach, the lower cases by R112. -/
theorem sourceGivenSequences : Obligations.SourceGivenSequences :=
  ⟨translateByte_of_romIndex rfl rom_S, lettersAreCaseInsensitive 0x73#8 (by decide) (by decide),
    translateByte_of_romIndex rfl rom_O, lettersAreCaseInsensitive 0x6F#8 (by decide) (by decide),
    translateByte_of_romIndex rfl rom_A, lettersAreCaseInsensitive 0x61#8 (by decide) (by decide),
    translateByte_of_romIndex rfl rom_B, lettersAreCaseInsensitive 0x62#8 (by decide) (by decide)⟩

end Sys2Proof.Machine
end

section
/-! The ring buffer's two operations on port `I` (41_ring_buffer.md): their encodings and their port, the effect and the
frame of each (R132 to R139), what each does to `Q`, and the invariants every sequence of them keeps (R141). -/

namespace Sys2Proof.Machine

/-! ### The commands and the port that admits them (30_encoding.md R81 to R84) -/

/-- A payload that fits its length byte is read back whole, whatever follows. -/
theorem decodeS_ofNat_length (operation : List Byte → Instr) {payload : List Byte} (rest : List Byte)
    (h : payload.length ≤ 255) :
    decodeS operation (BitVec.ofNat 8 payload.length :: (payload ++ rest)) = .command (operation payload) rest := by
  have hlen : (BitVec.ofNat 8 payload.length).toNat = payload.length := by
    rw [BitVec.toNat_ofNat]
    exact Nat.mod_eq_of_lt (Nat.lt_succ_of_le h)
  rw [decodeS, hlen, if_neg (by simp), List.take_left, List.drop_left]

theorem decode_tryWr {seq : List Byte} (rest : List Byte) (h : seq.length ≤ 255) :
    decode (0x30#8 :: BitVec.ofNat 8 seq.length :: (seq ++ rest)) = .command (.tryWr seq) rest :=
  decodeS_ofNat_length .tryWr rest h

theorem decode_rbRd (m : Byte) (rest : List Byte) : decode (0x31#8 :: m :: rest) = .command (.rbRd m.toNat) rest := rfl

theorem admits_tryWr_iff (p : Port) (seq : List Byte) : admits p (.tryWr seq) = true ↔ p = .bus := by
  cases p <;> simp [admits]

theorem admits_rbRd_iff (p : Port) (m : Nat) : admits p (.rbRd m) = true ↔ p = .bus := by
  cases p <;> simp [admits]

/-! ### What an answer, an admission and a read leave unchanged -/

theorem respondOn_sameSurroundings (p : Port) (r : Response) (s : State) : SameSurroundings s (respondOn p r s) := by
  simp [SameSurroundings]

theorem busTryWr_sameSurroundings (seq : List Byte) (s : State) : SameSurroundings s (busTryWr seq s).2 := by
  simp [SameSurroundings]

theorem busRbRd_sameSurroundings (m : Nat) (s : State) : SameSurroundings s (busRbRd m s).2 := by
  simp [SameSurroundings]

/-- An answer given with no operation behind it changes nothing but the outward stream of its port. -/
theorem respondOn_frame (p : Port) (r : Response) (s : State) :
    SameRegisters s (respondOn p r s) ∧ SameBytes s (respondOn p r s) ∧ (respondOn p r s).writing = s.writing ∧
      SameSurroundings s (respondOn p r s) ∧ OnlyAnswered p r s (respondOn p r s) :=
  ⟨respondOn_sameRegisters p r s, respondOn_sameBytes p r s, respondOn_writing p r s,
    respondOn_sameSurroundings p r s, respondOn_onlyAnswered p r fun _ => rfl⟩

/-! ### TRYWR: the whole candidate or nothing (R132) -/

theorem admitBytes_admissionEffect {seq : List Byte} {s : State} (hlen : seq.length ≤ s.capacity) :
    AdmissionEffect seq s (admitBytes seq s) :=
  ⟨admit_writeCursor seq s, admit_occupancy seq s, admit_readCursor seq s, admit_read_at seq s hlen,
    admit_read_other seq s⟩

/-- The effect of an admission is on the registers and the bytes, which an answer leaves alone. -/
theorem admissionEffect_respondOn {seq : List Byte} {s u : State} (p : Port) (r : Response)
    (h : AdmissionEffect seq s u) : AdmissionEffect seq s (respondOn p r u) := by
  simpa only [AdmissionEffect, respondOn_writeCursor, respondOn_occupancy, respondOn_readCursor, respondOn_storage]
    using h

/-- Settles O23, by whether the candidate fits. -/
theorem tryWriteAdmitsAllOrNothing : Obligations.TryWriteAdmitsAllOrNothing := by
  refine ⟨fun seq rest => decode_tryWr rest, admits_tryWr_iff, fun seq s hp =>
    ⟨_, exec_tryWr_bus seq hp, busTryWr_writing seq s, busTryWr_sameSurroundings seq s, ?_⟩⟩
  rw [← freeCapacity]
  rcases busTryWr_cases seq s with ⟨hfit, e⟩ | ⟨hlt, e⟩
  · have heffect : AdmissionEffect seq s (admitBytes seq s) := admitBytes_admissionEffect (hfit.trans (Nat.sub_le _ _))
    rw [e, if_pos hfit]
    exact ⟨admissionEffect_respondOn _ _ heffect, respondOn_onlyAnswered _ _ (admit_port seq s)⟩
  · rw [e, if_neg (Nat.not_le.2 hlt)]
    exact ⟨respondOn_sameRegisters _ _ s, respondOn_sameBytes _ _ s, respondOn_onlyAnswered _ _ fun _ => rfl⟩

/-! ### The empty candidate, and the one longer than the storage (R133) -/

theorem admitBytes_nil {s : State} (h : s.writeCursor < s.capacity) : admitBytes [] s = s := by
  have hwc : advanceCursor s.capacity s.writeCursor 0 = s.writeCursor := Nat.mod_eq_of_lt h
  simp [admitBytes, Memory.store, hwc]

/-- Of the two only the empty candidate fits, and admitting it is no change. -/
theorem busTryWr_of_nil_or_long {seq : List Byte} {s : State} (hwc : s.writeCursor < s.capacity)
    (h : seq = [] ∨ s.capacity < seq.length) : (busTryWr seq s).2 = respondOn .bus ⟨.ok, 0, []⟩ s := by
  rcases busTryWr_cases seq s with ⟨hfit, e⟩ | ⟨-, e⟩
  · obtain rfl : seq = [] := h.resolve_right (Nat.not_lt.2 (hfit.trans (Nat.sub_le _ _)))
    rw [e, admitBytes_nil hwc, List.length_nil]
  · rw [e]

theorem two_le_length_of_translateByte {c : Byte} {seq : List Byte} (h : translateByte c = some seq) :
    2 ≤ seq.length := by
  rcases translateByte_cases c with ⟨-, e⟩ | ⟨-, marks, e, hpos, -⟩
  · simp [e] at h
  · obtain rfl : sequenceOf marks = seq := Option.some.inj (e.symm.trans h)
    rw [length_sequenceOf]
    omega

theorem length_le_longest_of_translateByte {c : Byte} {seq : List Byte} (h : translateByte c = some seq) :
    seq.length ≤ Config.longest := by
  simpa [sequenceFor, h] using length_sequenceFor_le c

/-- Settles O24: admitting no byte is no change, and more than `N` bytes never fit. -/
theorem degenerateCandidatesChangeNothing : Obligations.DegenerateCandidatesChangeNothing := by
  refine ⟨fun seq s hp ⟨_, hwc, _⟩ h => ⟨_, exec_tryWr_bus seq hp, ?_⟩,
    fun n c seq ⟨_, _, hn⟩ hseq =>
      ⟨two_le_length_of_translateByte hseq, (length_le_longest_of_translateByte hseq).trans hn⟩⟩
  rw [busTryWr_of_nil_or_long hwc h]
  exact respondOn_frame .bus ⟨.ok, 0, []⟩ s

/-! ### TRYWR on the queue (R134) -/

@[simp] theorem queue_respondOn (p : Port) (r : Response) (s : State) : queue (respondOn p r s) = queue s :=
  queue_congr (respondOn_capacity p r s) (respondOn_storage p r s) (respondOn_readCursor p r s)
    (respondOn_occupancy p r s)

/-- Settles O25: an admission appends to `Q`, and a rejection keeps the state. -/
theorem tryWriteAppendsToTheQueue : Obligations.TryWriteAppendsToTheQueue := by
  refine fun seq s hp hr hc => ⟨_, exec_tryWr_bus seq hp, busTryWr_readCursor seq s, ?_⟩
  rw [← freeCapacity]
  rcases busTryWr_cases seq s with ⟨hfit, e⟩ | ⟨hlt, e⟩
  · rw [e, if_pos hfit, queue_respondOn, queue_admit hr hc hfit]
  · rw [e, if_neg (Nat.not_le.2 hlt), queue_respondOn]

/-! ### RBRD: the contiguous run from `readCursor` on (R135, R139) -/

theorem busRbRd_readEffect (m : Nat) (s : State) : ReadEffect (readCount m s) s (busRbRd m s).2 := by
  refine ⟨by simp [advanceCursor], by simp, by simp, fun a => ?_⟩
  rw [busRbRd_storage, consume_storage]

theorem busRbRd_onlyAnswered (m : Nat) (s : State) :
    OnlyAnswered .bus ⟨.ok, readCount m s, bytesFromCursor (readCount m s) s⟩ s (busRbRd m s).2 := by
  rw [busRbRd_eq]
  exact respondOn_onlyAnswered _ _ (consume_port _ s)

/-- Settles O26: the run is `readCount`, and the answer leaves what the read has done. -/
theorem ringReadReturnsTheContiguousRun : Obligations.RingReadReturnsTheContiguousRun :=
  ⟨decode_rbRd, admits_rbRd_iff, fun m s hp =>
    ⟨_, readCount m s, exec_rbRd_bus m hp, rfl, busRbRd_readEffect m s, by simp, busRbRd_sameSurroundings m s,
      busRbRd_onlyAnswered m s⟩⟩

/-! ### The invariants under every sequence of ring operations (R141) -/

theorem registersInRange_congr {s t : State} (hn : t.capacity = s.capacity) (h : SameRegisters s t)
    (hr : RegistersInRange s) : RegistersInRange t := by
  obtain ⟨hrc, hwc, hocc⟩ := h
  rwa [RegistersInRange, hn, hrc, hwc, hocc]

theorem cursorsConsistent_congr {s t : State} (hn : t.capacity = s.capacity) (h : SameRegisters s t)
    (hc : CursorsConsistent s) : CursorsConsistent t := by
  obtain ⟨hrc, hwc, hocc⟩ := h
  rwa [CursorsConsistent, hn, hrc, hwc, hocc]

/-- An answer keeps the registers, so it keeps what is said of them. -/
theorem respondOn_registers {s : State} (p : Port) (r : Response) (h : RegistersInRange s ∧ CursorsConsistent s) :
    RegistersInRange (respondOn p r s) ∧ CursorsConsistent (respondOn p r s) := by
  obtain ⟨hr, hc⟩ := h
  have hn := respondOn_capacity p r s
  have hregs := respondOn_sameRegisters p r s
  exact ⟨registersInRange_congr hn hregs hr, cursorsConsistent_congr hn hregs hc⟩

theorem afterRingOp_registers {s : State} (o : RingOp) (h : RegistersInRange s ∧ CursorsConsistent s) :
    RegistersInRange (afterRingOp o s) ∧ CursorsConsistent (afterRingOp o s) := by
  obtain ⟨hr, hc⟩ := h
  exact ⟨afterRingOp_registersInRange o hr, afterRingOp_cursorsConsistent o hc⟩

/-- An operation whose effect is a ring operation and an answer keeps both, on the port that admits it and, being an
answer alone, on the others. -/
theorem onAdmittingPort_registers {i : Instr} {s : State} {effect : State → StepOutcome} {o : RingOp} {p : Port}
    {r : Response} (he : effect s = .next (respondOn p r (afterRingOp o s)))
    (h : RegistersInRange s ∧ CursorsConsistent s) :
    ∃ t, onAdmittingPort i s effect = .next t ∧ RegistersInRange t ∧ CursorsConsistent t := by
  rcases onAdmittingPort_cases (i := i) (s := s) (effect := effect) rfl with ⟨-, e⟩ | ⟨-, e⟩
  · exact ⟨_, e.symm.trans he, respondOn_registers p r (afterRingOp_registers o h)⟩
  · exact ⟨_, e, respondOn_registers _ _ h⟩

theorem exec_tryWr_registers {s : State} (seq : List Byte) (h : RegistersInRange s ∧ CursorsConsistent s) :
    ∃ t, exec (.tryWr seq) s = .next t ∧ RegistersInRange t ∧ CursorsConsistent t := by
  rw [exec, execTryWr]
  exact onAdmittingPort_registers (congrArg Host.Outcome.next (busTryWr_snd_eq_respondOn seq s)) h

theorem exec_rbRd_registers {s : State} (m : Nat) (h : RegistersInRange s ∧ CursorsConsistent s) :
    ∃ t, exec (.rbRd m) s = .next t ∧ RegistersInRange t ∧ CursorsConsistent t := by
  rw [exec, execRbRd]
  exact onAdmittingPort_registers (congrArg Host.Outcome.next (busRbRd_snd_eq_respondOn m s)) h

/-- What every ring operation keeps, every sequence of them keeps. -/
theorem ringRun_keeps {P : State → Prop} (hstep : ∀ o s, P s → P (afterRingOp o s)) (ops : List RingOp) {s : State}
    (h : P s) : P (ringRun ops s).2.2 := by
  induction ops generalizing s with
  | nil => exact h
  | cons o rest ih => exact ih (hstep o s h)

theorem tryWrite_count (seq : List Byte) (s : State) : (tryWrite seq s).1 = 0 ∨ (tryWrite seq s).1 = seq.length := by
  rcases tryWrite_cases seq s with ⟨-, e⟩ | ⟨-, e⟩
  · exact .inr (by rw [e])
  · exact .inl (by rw [e])

/-- Settles O43: one operation keeps both equations, so by induction every sequence from reset does. -/
theorem ringOperationsKeepTheInvariants : Obligations.RingOperationsKeepTheInvariants := by
  refine ⟨fun s hr hc => ⟨fun seq => exec_tryWr_registers seq ⟨hr, hc⟩, fun m => exec_rbRd_registers m ⟨hr, hc⟩⟩,
    fun w n ⟨hpos, _, _⟩ => ?_⟩
  have hr := resetWith_registersInRange w hpos
  have hc := resetWith_cursorsConsistent w n
  refine ⟨hr, hc, fun ops => ?_⟩
  obtain ⟨hr', hc'⟩ := ringRun_keeps (P := fun s => RegistersInRange s ∧ CursorsConsistent s)
    (fun o _ => afterRingOp_registers o) ops ⟨hr, hc⟩
  exact ⟨hr', hc', fun seq => tryWrite_count seq _⟩

/-! ### The machine's invariant under ring operations -/

theorem afterRingOp_frame (o : RingOp) (s : State) :
    (afterRingOp o s).capacity = s.capacity ∧ (afterRingOp o s).writing = s.writing ∧
      (afterRingOp o s).wiring = s.wiring := by
  rcases afterRingOp_cases o s with ⟨seq, -, -, -, e⟩ | ⟨-, -, e⟩ | ⟨m, -, -, e⟩ <;> rw [e]
  · exact ⟨admit_capacity seq s, admit_writing seq s, admit_wiring seq s⟩
  · exact ⟨rfl, rfl, rfl⟩
  · exact ⟨consume_capacity _ s, consume_writing _ s, consume_wiring _ s⟩

theorem afterRingOp_storage_wf {s : State} (o : RingOp) (hn : 0 < s.capacity)
    (h : Memory.wf s.capacity s.storage = true) : Memory.wf s.capacity (afterRingOp o s).storage = true := by
  rcases afterRingOp_cases o s with ⟨seq, -, -, -, e⟩ | ⟨-, -, e⟩ | ⟨m, -, -, e⟩ <;> rw [e]
  · rw [admit_storage]
    exact Memory.wf_store hn _ _ h
  · exact h
  · rwa [consume_storage]

/-- An admission takes no cell's value away, and its own bytes fill the positions it adds to the valid region. -/
theorem admitBytes_unreadBytesWritten {s : State} {seq : List Byte} (hc : CursorsConsistent s)
    (hfit : seq.length ≤ freeCapacity s) (h : UnreadBytesWritten s) : UnreadBytesWritten (admitBytes seq s) := by
  intro j hj
  rw [admit_occupancy] at hj
  rw [admit_readCursor, admit_capacity, admit_storage]
  rcases Nat.lt_or_ge j s.occupancy with hold | hnew
  · exact Memory.isSome_lookup_store _ _ _ _ _ (h j hold)
  · obtain ⟨k, rfl⟩ := Nat.exists_eq_add_of_le hnew
    rw [← writeIndex_eq hc, writeIndex,
      Memory.lookup_store_at _ _ _ _ (hfit.trans (Nat.sub_le _ _)) k (Nat.lt_of_add_lt_add_left hj)]
    rfl

/-- A read moves the start of the valid region inside it. -/
theorem consume_unreadBytesWritten {s : State} (k : Nat) (h : UnreadBytesWritten s) :
    UnreadBytesWritten (consume k s) := by
  intro j hj
  rw [consume_occupancy] at hj
  rw [consume_readCursor, consume_capacity, consume_storage, advanceCursor, Nat.mod_add_mod, Nat.add_assoc]
  exact h (k + j) (by omega)

theorem afterRingOp_unreadBytesWritten {s : State} (o : RingOp) (hc : CursorsConsistent s)
    (h : UnreadBytesWritten s) : UnreadBytesWritten (afterRingOp o s) := by
  rcases afterRingOp_cases o s with ⟨seq, hfit, -, -, e⟩ | ⟨-, -, e⟩ | ⟨m, -, -, e⟩ <;> rw [e]
  · exact admitBytes_unreadBytesWritten hc hfit h
  · exact h
  · exact consume_unreadBytesWritten _ h

/-- What the invariant says of the ports and of the WRITE in progress, no ring operation touches. -/
theorem afterRingOp_inv {s : State} (o : RingOp) (h : Inv s) : Inv (afterRingOp o s) := by
  obtain ⟨hn, hw, hwiring⟩ := afterRingOp_frame o s
  have hport := afterRingOp_port o s
  obtain ⟨hpos, -, -⟩ := h.legal
  obtain ⟨hsilent, hwriting⟩ := h.wiring_respected
  constructor
  case legal => rw [hn]; exact h.legal
  case storage_wf => rw [hn]; exact afterRingOp_storage_wf o hpos h.storage_wf
  case in_range => exact afterRingOp_registersInRange o h.in_range
  case consistent => exact afterRingOp_cursorsConsistent o h.consistent
  case written => exact afterRingOp_unreadBytesWritten o h.consistent h.written
  case writing_fits => rw [WriteInProgressFits, hw]; exact h.writing_fits
  case responses_fit => intro p; rw [hport]; exact h.responses_fit p
  case wiring_respected =>
    refine ⟨fun p => ?_, ?_⟩
    · rw [reached_congr hwiring, hport]; exact hsilent p
    · rw [reached_congr hwiring, hw]; exact hwriting
  case empty_writes_answered => rw [EmptyWritesAnswered, hw, hport]; exact h.empty_writes_answered

/-- After reset nothing is stored, nothing waits, and nothing has been answered. -/
theorem resetWith_inv (w : Wiring) {n : Nat} (h : Config.LegalCapacity n) : Inv (State.resetWith w n) where
  legal := h
  storage_wf := rfl
  in_range := by
    obtain ⟨hpos, -, -⟩ := h
    exact resetWith_registersInRange w hpos
  consistent := resetWith_cursorsConsistent w n
  written := fun j hj => absurd hj (Nat.not_lt_zero j)
  writing_fits := nofun
  responses_fit := fun p r hr => by simp at hr
  wiring_respected := ⟨fun p _ => by simp, nofun⟩
  empty_writes_answered := fun _ rest => nofun

theorem reset_inv : Inv State.reset := resetWith_inv .everyPort (by decide)

/-! ### RBRD on the queue (R136) -/

theorem bytesFromCursor_eq_take (m : Nat) {s : State} (h : s.readCursor < s.capacity) :
    bytesFromCursor (readCount m s) s = (queue s).take (readCount m s) :=
  ringRead_eq_take m s h

theorem queue_busRbRd (m : Nat) (s : State) : queue (busRbRd m s).2 = (queue s).drop (readCount m s) := by
  rw [busRbRd, queue_respondOn, ringRead_snd, queue_consume]

/-- `d` bytes written and read back, then a mark and a separator written, from reset at index `d` on. -/
def markAfter (d : Nat) : List RingOp :=
  [.tryWr (List.replicate d 0x2D#8), .rbRd d, .tryWr [0x2E#8, 0x20#8]]

/-- Settles O28. The two states hold the same two bytes, one at the start of the storage, the other across its end. -/
theorem ringReadTakesFromTheQueue : Obligations.RingReadTakesFromTheQueue := by
  refine ⟨fun m s hp ⟨hrc, _, _⟩ => ?_, (ringRun (markAfter 0) State.reset).2.2,
    (ringRun (markAfter 29) State.reset).2.2, ringRun_keeps (fun o _ => afterRingOp_inv o) _ reset_inv,
    ringRun_keeps (fun o _ => afterRingOp_inv o) _ reset_inv, by decide, by decide⟩
  refine ⟨_, readCount m s, exec_rbRd_bus m hp, rfl, ?_, queue_busRbRd m s, by simp⟩
  rw [← bytesFromCursor_eq_take m hrc]
  exact busRbRd_onlyAnswered m s

/-! ### The empty read (R137) -/

theorem consume_zero {s : State} (h : s.readCursor < s.capacity) : consume 0 s = s := by
  have hrc : advanceCursor s.capacity s.readCursor 0 = s.readCursor := Nat.mod_eq_of_lt h
  simp [consume, hrc]

/-- A read of no byte is an answer alone. -/
theorem busRbRd_of_readCount_eq_zero {m : Nat} {s : State} (hrc : s.readCursor < s.capacity)
    (h : readCount m s = 0) : (busRbRd m s).2 = respondOn .bus ⟨.ok, 0, []⟩ s := by
  have hbytes : (ringRead m s).1 = [] := List.eq_nil_of_length_eq_zero (by rw [length_ringRead, h])
  rw [busRbRd_eq, hbytes, ringRead_snd, h, consume_zero hrc]

/-- Settles O29: with nothing held or nothing asked for the run is empty. -/
theorem emptyReadIsNoError : Obligations.EmptyReadIsNoError := by
  intro m s hp ⟨hrc, _, _⟩ h
  have hcount : readCount m s = 0 := by
    rcases h with hempty | rfl
    · exact readCount_of_isEmpty (isEmpty_iff.2 hempty) m
    · exact Nat.le_zero.1 (readCount_le_maxCount 0 s)
  refine ⟨_, exec_rbRd_bus m hp, ?_⟩
  rw [busRbRd_of_readCount_eq_zero hrc hcount]
  exact respondOn_frame .bus ⟨.ok, 0, []⟩ s

/-! ### How much one read and two reads return (R138) -/

theorem readCount_eq_occupancy {m : Nat} {s : State} (hm : s.occupancy ≤ m)
    (hrun : s.occupancy ≤ s.capacity - s.readCursor) : readCount m s = s.occupancy := by
  rw [readCount, Nat.min_eq_left hrun, Nat.min_eq_right hm]

theorem readCount_eq_run {m : Nat} {s : State} (hm : s.occupancy ≤ m)
    (hrun : s.capacity - s.readCursor ≤ s.occupancy) : readCount m s = s.capacity - s.readCursor := by
  rw [readCount, Nat.min_eq_right hrun, Nat.min_eq_right (hrun.trans hm)]

theorem readCount_pos {m : Nat} {s : State} (hm : 0 < m) (hocc : 0 < s.occupancy) (hrc : s.readCursor < s.capacity) :
    0 < readCount m s :=
  Nat.lt_min.2 ⟨hm, Nat.lt_min.2 ⟨hocc, Nat.sub_pos_of_lt hrc⟩⟩

@[simp] theorem length_bytesFromCursor (k : Nat) (s : State) : (bytesFromCursor k s).length = k := by
  simp [bytesFromCursor]

/-- A read up to the end of the storage brings `readCursor` back to 0. -/
theorem busRbRd_readCursor_of_run {m : Nat} {s : State} (hrc : s.readCursor < s.capacity)
    (hk : readCount m s = s.capacity - s.readCursor) : (busRbRd m s).2.readCursor = 0 := by
  rw [busRbRd_readCursor, consume_readCursor, hk, advanceCursor, Nat.add_sub_cancel' hrc.le, Nat.mod_self]

theorem busRbRd_registersInRange {s : State} (m : Nat) (hr : RegistersInRange s) :
    RegistersInRange (busRbRd m s).2 :=
  registersInRange_congr (respondOn_capacity _ _ _) (respondOn_sameRegisters _ _ _)
    (consume_registersInRange (readCount m s) hr)

/-- The first read takes all, or all up to the end of the storage; then the second starts at 0 and takes the rest. -/
theorem busRbRd_busRbRd_occupancy {s : State} {m₁ m₂ : Nat} (hr : RegistersInRange s) (h₁ : s.capacity ≤ m₁)
    (h₂ : s.capacity ≤ m₂) : (busRbRd m₂ (busRbRd m₁ s).2).2.occupancy = 0 := by
  obtain ⟨hrc, -, hocc⟩ := hr
  have hafter : (busRbRd m₁ s).2.occupancy = s.occupancy - readCount m₁ s := by simp
  have hlast : (busRbRd m₂ (busRbRd m₁ s).2).2.occupancy =
      (busRbRd m₁ s).2.occupancy - readCount m₂ (busRbRd m₁ s).2 := by simp
  rw [hlast]
  rcases Nat.le_total s.occupancy (s.capacity - s.readCursor) with hall | hshort
  · rw [hafter, readCount_eq_occupancy (hocc.trans h₁) hall, Nat.sub_self, Nat.zero_sub]
  · have hzero := busRbRd_readCursor_of_run hrc (readCount_eq_run (hocc.trans h₁) hshort)
    have hle : (busRbRd m₁ s).2.occupancy ≤ s.capacity := by
      rw [hafter]
      exact (Nat.sub_le _ _).trans hocc
    rw [readCount_eq_occupancy (hle.trans h₂), Nat.sub_self]
    rw [hzero, busRbRd_capacity, consume_capacity]
    exact hle

/-- The bytes answered and the queue left are the queue. -/
theorem bytesFromCursor_append_queue (m : Nat) {s : State} (hr : RegistersInRange s) :
    bytesFromCursor (readCount m s) s ++ queue (busRbRd m s).2 = queue s := by
  obtain ⟨hrc, -, -⟩ := hr
  rw [bytesFromCursor_eq_take m hrc, queue_busRbRd, List.take_append_drop]

theorem busRbRd_onlyAnswered_length (m : Nat) (s : State) :
    OnlyAnswered .bus ⟨.ok, (bytesFromCursor (readCount m s) s).length, bytesFromCursor (readCount m s) s⟩ s
      (busRbRd m s).2 := by
  rw [length_bytesFromCursor]
  exact busRbRd_onlyAnswered m s

/-- The two reads answer all of the queue, as the second leaves none of it. -/
theorem bytesFromCursor_append_bytesFromCursor {s : State} {m₁ m₂ : Nat} (hr : RegistersInRange s)
    (h₁ : s.capacity ≤ m₁) (h₂ : s.capacity ≤ m₂) :
    bytesFromCursor (readCount m₁ s) s ++
      bytesFromCursor (readCount m₂ (busRbRd m₁ s).2) (busRbRd m₁ s).2 = queue s := by
  have hsecond := bytesFromCursor_append_queue m₂ (busRbRd_registersInRange m₁ hr)
  rw [queue_eq_nil_iff.2 (busRbRd_busRbRd_occupancy hr h₁ h₂), List.append_nil] at hsecond
  rw [hsecond, bytesFromCursor_append_queue m₁ hr]

/-- Settles O30: the short read by `readCount_eq_run`, progress by `readCount_pos`, the two reads by the occupancy the
second leaves. -/
theorem twoReadsEmptyTheBuffer : Obligations.TwoReadsEmptyTheBuffer := by
  intro s hp hr
  have ⟨hrc, _, _⟩ := hr
  refine ⟨fun m hm hshort => ?_, fun m hm hocc => ?_, fun m₁ m₂ m₃ h₁ h₂ => ?_⟩
  · have hk := readCount_eq_run hm hshort.le
    refine ⟨_, exec_rbRd_bus m hp, busRbRd_readCursor_of_run hrc hk, ?_, ?_⟩
    · rw [busRbRd_occupancy, consume_occupancy, hk]
    · rw [← hk]
      exact busRbRd_onlyAnswered m s
  · refine ⟨_, _, exec_rbRd_bus m hp, ?_, busRbRd_onlyAnswered_length m s⟩
    rw [length_bytesFromCursor]
    exact readCount_pos hm hocc hrc
  · have hp₁ : (busRbRd m₁ s).2.activePort = .bus := by simpa using hp
    have hp₂ : (busRbRd m₂ (busRbRd m₁ s).2).2.activePort = .bus := by simpa using hp
    have hempty := busRbRd_busRbRd_occupancy hr h₁ h₂
    refine ⟨_, _, _, _, _, exec_rbRd_bus m₁ hp, exec_rbRd_bus m₂ hp₁, exec_rbRd_bus m₃ hp₂,
      busRbRd_onlyAnswered_length m₁ s, busRbRd_onlyAnswered_length m₂ _,
      bytesFromCursor_append_bytesFromCursor hr h₁ h₂, hempty, ?_⟩
    have hans := busRbRd_onlyAnswered m₃ (busRbRd m₂ (busRbRd m₁ s).2).2
    rwa [readCount_of_isEmpty (isEmpty_iff.2 hempty)] at hans

end Sys2Proof.Machine
end

section
/-! The encoder service's lifecycle calls (42_encoder_service.md R160, R161): OPEN and CLOSE have one effect, the answer
`OK 0`, on the two ports that admit them. -/

namespace Sys2Proof.Machine

/-! ### The commands and the ports that admit them (30_encoding.md R82, R84) -/

theorem decode_openService (rest : List Byte) : decode (0x01#8 :: rest) = .command .openService rest := rfl

theorem decode_closeService (rest : List Byte) : decode (0x02#8 :: rest) = .command .closeService rest := rfl

theorem admits_openService_iff (p : Port) : admits p .openService = true ↔ p = .producer ∨ p = .consumer := by
  cases p <;> simp [admits]

theorem admits_closeService_eq_openService (p : Port) : admits p .closeService = admits p .openService := by
  cases p <;> rfl

theorem admits_closeService_iff (p : Port) : admits p .closeService = true ↔ p = .producer ∨ p = .consumer := by
  rw [admits_closeService_eq_openService, admits_openService_iff]

/-! ### The answer `OK 0`, and nothing else (30_encoding.md R87, R88) -/

theorem responseBytes_ok_empty : responseBytes ⟨.ok, 0, []⟩ = [0x00#8, 0x00#8] := rfl

/-- The state after a command whose whole meaning is the answer `OK 0` on its port. -/
def answeredOk (s : State) : State := respondOn s.activePort ⟨.ok, 0, []⟩ s

theorem answer_none_zero_nil (s : State) : answer none 0 [] s = answeredOk s := rfl

theorem answeredOk_frame (s : State) :
    SameRegisters s (answeredOk s) ∧ SameBytes s (answeredOk s) ∧ (answeredOk s).writing = s.writing ∧
      SameSurroundings s (answeredOk s) ∧ OnlyAnswered s.activePort ⟨.ok, 0, []⟩ s (answeredOk s) :=
  respondOn_frame s.activePort ⟨.ok, 0, []⟩ s

/-! ### OPEN and CLOSE (R160, R161) -/

theorem exec_openService {s : State} (h : admits s.activePort .openService = true) :
    exec .openService s = .next (answeredOk s) := by
  rw [exec, execOpen, onAdmittingPort_admitted _ h, answer_none_zero_nil]

theorem exec_closeService {s : State} (h : admits s.activePort .closeService = true) :
    exec .closeService s = .next (answeredOk s) := by
  rw [exec, execClose, onAdmittingPort_admitted _ h, answer_none_zero_nil]

/-- Settles O20: OPEN is the answer `OK 0` alone (`exec_openService`), which leaves all else (`answeredOk_frame`). -/
theorem openSucceedsAndChangesNothing : Obligations.OpenSucceedsAndChangesNothing :=
  ⟨decode_openService, admits_openService_iff, responseBytes_ok_empty, fun s hp =>
    ⟨answeredOk s, exec_openService ((admits_openService_iff _).2 hp), answeredOk_frame s⟩⟩

/-- Settles O21: CLOSE is the same answer alone (`exec_closeService`), so unread bytes stay. -/
theorem closeSucceedsAndChangesNothing : Obligations.CloseSucceedsAndChangesNothing :=
  ⟨decode_closeService, admits_closeService_iff, responseBytes_ok_empty, fun s hp =>
    ⟨answeredOk s, exec_closeService ((admits_closeService_iff _).2 hp), answeredOk_frame s⟩⟩

end Sys2Proof.Machine
end

section
/-! The command encoding (30_encoding.md R81 to R89): what the decoder makes of each opcode, that it and the encoder are
inverse to each other, and the length of a command. -/

namespace Sys2Proof.Machine

/-! ### The encoder's bytes decode to their operation (R81 to R83) -/

theorem fitsByte_iff (n : Nat) : fitsByte n = true ↔ n ≤ 255 := decide_eq_true_iff

theorem toNat_ofNat_of_fitsByte {n : Nat} (h : fitsByte n = true) : (BitVec.ofNat 8 n).toNat = n := by
  rw [BitVec.toNat_ofNat]
  exact Nat.mod_eq_of_lt (Nat.lt_succ_of_le ((fitsByte_iff n).1 h))

theorem decode_xlate (c : Byte) (rest : List Byte) : decode (0x10#8 :: c :: rest) = .command (.xlate c) rest := rfl

theorem decode_read (m : Byte) (rest : List Byte) : decode (0x21#8 :: m :: rest) = .command (.read m.toNat) rest := rfl

theorem decode_write {input : List Byte} (rest : List Byte) (h : input.length ≤ 255) :
    decode (0x20#8 :: BitVec.ofNat 8 input.length :: (input ++ rest)) = .command (.write input) rest :=
  decodeS_ofNat_length .write rest h

theorem decode_encode_append {i : Instr} (rest : List Byte) (h : i.wellFormed = true) :
    decode (encode i ++ rest) = .command i rest := by
  cases i with
  | openService => exact decode_openService rest
  | closeService => exact decode_closeService rest
  | xlate c => exact decode_xlate c rest
  | write input => exact decode_write rest ((fitsByte_iff _).1 h)
  | read m =>
    have hm : (BitVec.ofNat 8 m).toNat = m := toNat_ofNat_of_fitsByte h
    exact (decode_read _ rest).trans (by rw [hm])
  | tryWr seq => exact decode_tryWr rest ((fitsByte_iff _).1 h)
  | rbRd m =>
    have hm : (BitVec.ofNat 8 m).toNat = m := toNat_ofNat_of_fitsByte h
    exact (decode_rbRd _ rest).trans (by rw [hm])

/-- Settles O1, by the operation's format: one byte, an operand byte, or a counted payload. -/
theorem decodeOfEncodeIsTheInstruction : Obligations.DecodeOfEncodeIsTheInstruction :=
  fun _ rest h => decode_encode_append rest h

/-- Settles O3: the seven commands are encodings, with nothing behind them. -/
theorem writtenOutCommandsDecode : Obligations.WrittenOutCommandsDecode :=
  ⟨decode_openService [], decode_closeService [], decode_xlate 0x53#8 [],
    decode_write (input := [0x53#8, 0x4F#8, 0x53#8]) [] (by decide), decode_read 0x1E#8 [],
    decode_tryWr (seq := [0x2E#8, 0x2E#8, 0x2E#8, 0x20#8]) [] (by decide), decode_rbRd 0x1E#8 []⟩

/-! ### What the decoder makes of any bytes (R85, R86) -/

/-- The opcodes of the seven operations (30_encoding.md R82). -/
def assignedOpcodes : List Byte := [0x01#8, 0x02#8, 0x10#8, 0x20#8, 0x21#8, 0x30#8, 0x31#8]

theorem not_mem_assignedOpcodes_iff (opcode : Byte) : opcode ∉ assignedOpcodes ↔
    opcode ≠ 0x01#8 ∧ opcode ≠ 0x02#8 ∧ opcode ≠ 0x10#8 ∧ opcode ≠ 0x20#8 ∧ opcode ≠ 0x21#8 ∧ opcode ≠ 0x30#8 ∧
      opcode ≠ 0x31#8 := by
  simp [assignedOpcodes]

theorem decode_of_reserved {opcode : Byte} (rest : List Byte) (h : opcode ∉ assignedOpcodes) :
    decode (opcode :: rest) = .reserved opcode rest := by
  obtain ⟨h1, h2, h3, h4, h5, h6, h7⟩ := (not_mem_assignedOpcodes_iff opcode).1 h
  simp [decode, h1, h2, h3, h4, h5, h6, h7]

theorem commandLength_of_reserved {opcode : Byte} (rest : List Byte) (h : opcode ∉ assignedOpcodes) :
    commandLength (opcode :: rest) = some 1 := by
  obtain ⟨h1, h2, h3, h4, h5, h6, h7⟩ := (not_mem_assignedOpcodes_iff opcode).1 h
  simp [commandLength, h1, h2, h3, h4, h5, h6, h7]

/-- The bytes are the encoding of a well-formed operation and what the decoder leaves of them. -/
def IsCommand (bytes : List Byte) (d : Decoded) : Prop :=
  ∃ i rest, i.wellFormed = true ∧ bytes = encode i ++ rest ∧ d = .command i rest

/-- The last byte of the command has not arrived: if its length is known, fewer bytes than that have. -/
def IsIncomplete (bytes : List Byte) (d : Decoded) : Prop :=
  d = .incomplete ∧ ∀ n, commandLength bytes = some n → bytes.length < n

theorem fitsByte_toNat (imm : Byte) : fitsByte imm.toNat = true :=
  (fitsByte_iff _).2 (Nat.le_of_lt_succ imm.isLt)

theorem ofNat_toNat_byte (imm : Byte) : BitVec.ofNat 8 imm.toNat = imm := by
  rw [BitVec.ofNat_toNat, BitVec.setWidth_eq]

/-- Everything format `B` makes of the bytes after the opcode. -/
theorem decodeB_cases {opcode : Byte} {operation : Byte → Instr} (tail : List Byte)
    (hencode : ∀ imm, (operation imm).wellFormed = true ∧ encode (operation imm) = [opcode, imm])
    (hlength : ∀ rest, commandLength (opcode :: rest) = some 2) :
    IsCommand (opcode :: tail) (decodeB operation tail) ∨ IsIncomplete (opcode :: tail) (decodeB operation tail) := by
  cases tail with
  | nil =>
    refine .inr ⟨rfl, fun n hn => ?_⟩
    rw [hlength] at hn
    cases hn
    exact Nat.lt_succ_self 1
  | cons imm rest =>
    obtain ⟨hwf, he⟩ := hencode imm
    exact .inl ⟨operation imm, rest, hwf, by rw [he]; rfl, rfl⟩

/-- Everything format `S` makes of the bytes after the opcode: the payload is whole, or it is short. -/
theorem decodeS_cases {opcode : Byte} {operation : List Byte → Instr} (tail : List Byte)
    (hencode : ∀ payload, payload.length ≤ 255 → (operation payload).wellFormed = true ∧
      encode (operation payload) = opcode :: BitVec.ofNat 8 payload.length :: payload)
    (hlength : ∀ rest, commandLength (opcode :: rest) = rest.head?.map fun len => 2 + len.toNat) :
    IsCommand (opcode :: tail) (decodeS operation tail) ∨ IsIncomplete (opcode :: tail) (decodeS operation tail) := by
  cases tail with
  | nil => exact .inr ⟨rfl, fun n hn => by rw [hlength] at hn; cases hn⟩
  | cons len rest =>
    rcases Nat.lt_or_ge rest.length len.toNat with hshort | hwhole
    · refine .inr ⟨by simp [decodeS, hshort], fun n hn => ?_⟩
      rw [hlength] at hn
      cases hn
      simp only [List.length_cons]
      omega
    · have hlen : (rest.take len.toNat).length = len.toNat := List.length_take_of_le hwhole
      obtain ⟨hwf, he⟩ := hencode (rest.take len.toNat) (hlen.trans_le (Nat.le_of_lt_succ len.isLt))
      refine .inl ⟨operation (rest.take len.toNat), rest.drop len.toNat, hwf, ?_, ?_⟩
      · rw [he, hlen, ofNat_toNat_byte, List.cons_append, List.cons_append, List.take_append_drop]
      · simp [decodeS, Nat.not_lt.2 hwhole]

/-- Everything the decoder makes of any bytes. -/
theorem decode_cases (bytes : List Byte) :
    IsCommand bytes (decode bytes) ∨
    (∃ opcode rest, opcode ∉ assignedOpcodes ∧ bytes = opcode :: rest ∧ decode bytes = .reserved opcode rest) ∨
    IsIncomplete bytes (decode bytes) := by
  cases bytes with
  | nil => exact .inr (.inr ⟨rfl, nofun⟩)
  | cons opcode tail =>
    by_cases h : opcode ∈ assignedOpcodes
    · rw [← or_assoc, or_right_comm]
      refine .inl ?_
      simp only [assignedOpcodes, List.mem_cons, List.not_mem_nil, or_false] at h
      rcases h with rfl | rfl | rfl | rfl | rfl | rfl | rfl
      · exact .inl ⟨.openService, tail, rfl, rfl, rfl⟩
      · exact .inl ⟨.closeService, tail, rfl, rfl, rfl⟩
      · exact decodeB_cases tail (fun c => ⟨rfl, rfl⟩) fun _ => rfl
      · exact decodeS_cases tail (fun input h => ⟨(fitsByte_iff _).2 h, rfl⟩) fun _ => rfl
      · exact decodeB_cases tail (fun m => ⟨fitsByte_toNat m, by rw [encode, ofNat_toNat_byte]⟩) fun _ => rfl
      · exact decodeS_cases tail (fun seq h => ⟨(fitsByte_iff _).2 h, rfl⟩) fun _ => rfl
      · exact decodeB_cases tail (fun m => ⟨fitsByte_toNat m, by rw [encode, ofNat_toNat_byte]⟩) fun _ => rfl
    · exact .inr (.inl ⟨opcode, tail, h, rfl, decode_of_reserved tail h⟩)

/-- The decoder reads an operation exactly from its encoding. -/
theorem decode_eq_command_iff {bytes : List Byte} {i : Instr} {rest : List Byte} :
    decode bytes = .command i rest ↔ i.wellFormed = true ∧ bytes = encode i ++ rest := by
  refine ⟨fun h => ?_, ?_⟩
  · rcases decode_cases bytes with ⟨j, more, hwf, hb, hd⟩ | ⟨_, _, -, -, hd⟩ | ⟨hd, -⟩ <;> rw [hd] at h <;> cases h
    exact ⟨hwf, hb⟩
  · rintro ⟨hi, rfl⟩
    exact decode_encode_append rest hi

theorem decode_eq_reserved_iff {bytes : List Byte} {opcode : Byte} {rest : List Byte} :
    decode bytes = .reserved opcode rest ↔ opcode ∉ assignedOpcodes ∧ bytes = opcode :: rest := by
  refine ⟨fun h => ?_, ?_⟩
  · rcases decode_cases bytes with ⟨_, _, -, -, hd⟩ | ⟨_, _, hop, hb, hd⟩ | ⟨hd, -⟩ <;> rw [hd] at h <;> cases h
    exact ⟨hop, hb⟩
  · rintro ⟨hop, rfl⟩
    exact decode_of_reserved rest hop

/-- Settles O2: the decoder reads an operation exactly from its encoding. -/
theorem decodedBytesAreTheEncoding : Obligations.DecodedBytesAreTheEncoding :=
  fun _ _ _ h => decode_eq_command_iff.1 h

/-! ### More bytes behind a whole command, and fewer than a whole one (R86) -/

theorem decode_append_command {bytes : List Byte} {i : Instr} {rest : List Byte} (more : List Byte)
    (h : decode bytes = .command i rest) : decode (bytes ++ more) = .command i (rest ++ more) := by
  obtain ⟨hi, hb⟩ := decode_eq_command_iff.1 h
  exact decode_eq_command_iff.2 ⟨hi, by rw [hb, List.append_assoc]⟩

theorem decode_append_reserved {bytes : List Byte} {opcode : Byte} {rest : List Byte} (more : List Byte)
    (h : decode bytes = .reserved opcode rest) : decode (bytes ++ more) = .reserved opcode (rest ++ more) := by
  obtain ⟨hop, hb⟩ := decode_eq_reserved_iff.1 h
  exact decode_eq_reserved_iff.2 ⟨hop, by rw [hb, List.cons_append]⟩

theorem decode_encode {i : Instr} (h : i.wellFormed = true) : decode (encode i) = .command i [] := by
  simpa using decode_encode_append [] h

/-- What a proper first part decoded to, the whole encoding would decode to, with bytes to spare. -/
theorem decode_take_encode {i : Instr} {n : Nat} (h : i.wellFormed = true) (hn : n < (encode i).length) :
    decode ((encode i).take n) = .incomplete := by
  have hsplit : (encode i).take n ++ (encode i).drop n = encode i := List.take_append_drop n _
  have hrest : (encode i).drop n ≠ [] := by simpa using hn
  have hwhole := decode_encode h
  rw [← hsplit] at hwhole
  cases hd : decode ((encode i).take n) with
  | command j rest =>
    rw [decode_append_command _ hd] at hwhole
    exact absurd (List.append_eq_nil_iff.1 (Decoded.command.inj hwhole).2).2 hrest
  | reserved opcode rest =>
    rw [decode_append_reserved _ hd] at hwhole
    cases hwhole
  | incomplete => rfl

/-! ### The length of a command (R89) -/

theorem commandLength_take_two (bytes : List Byte) : commandLength (bytes.take 2) = commandLength bytes := by
  match bytes with
  | [] => rfl
  | [_] => rfl
  | _ :: _ :: _ => rfl

/-- Every operation's length is the one its own law gives. -/
theorem commandLength_encode_append {i : Instr} (h : i.wellFormed = true) (rest : List Byte) :
    commandLength (encode i ++ rest) = some (encode i).length := by
  cases i with
  | openService => exact Laws.EncodedLength.openService h rest
  | closeService => exact Laws.EncodedLength.closeService h rest
  | xlate c => exact Laws.EncodedLength.xlate c h rest
  | write input => exact Laws.EncodedLength.write input h rest
  | read m => exact Laws.EncodedLength.read m h rest
  | tryWr seq => exact Laws.EncodedLength.tryWr seq h rest
  | rbRd m => exact Laws.EncodedLength.rbRd m h rest

theorem length_lt_of_incomplete {bytes : List Byte} {n : Nat} (h : decode bytes = .incomplete)
    (hn : commandLength bytes = some n) : bytes.length < n := by
  rcases decode_cases bytes with ⟨_, _, -, -, hd⟩ | ⟨_, _, -, -, hd⟩ | ⟨-, hlt⟩
  · rw [hd] at h; cases h
  · rw [hd] at h; cases h
  · exact hlt n hn

/-- Settles O9: the length law of an encoding, and what each answer of the decoder says of the bytes. -/
theorem lengthIsKnownFromTheFirstTwoBytes : Obligations.LengthIsKnownFromTheFirstTwoBytes := by
  refine ⟨fun bytes _ => (commandLength_take_two bytes).symm, fun bytes i rest h => ?_, fun bytes opcode rest h => ?_,
    fun bytes n => length_lt_of_incomplete⟩
  · obtain ⟨hi, rfl⟩ := decode_eq_command_iff.1 h
    rw [commandLength_encode_append hi, List.length_append, Nat.add_sub_cancel]
  · obtain ⟨hop, rfl⟩ := decode_eq_reserved_iff.1 h
    exact ⟨rfl, commandLength_of_reserved rest hop⟩

end Sys2Proof.Machine
end

section
/-! The lengths of the ROM's sequences (40_rom_translate.md R115, R118; logs 2 and 3): the at-sign's is the longest, and
both tables meet the conditions of a configuration (70_reset_and_hazards.md R222). -/

namespace Sys2Proof.Machine

/-! ### The at-sign (R115) -/

theorem romIndex_at_sign : romIndex 0x40#8 = some 49 := rfl

/-- No other byte reaches the entry of `@`. -/
theorem romIndex_ne_at_sign : ∀ c : Byte, c ≠ 0x40#8 → romIndex c ≠ some 49 := by decide

theorem romMarks_at_sign : romMarks 49 = (List.range 7).map Config.romAtMark := rfl

theorem length_rom (entry : Nat) : (rom entry).length = (romMarks entry).length + 1 := length_sequenceOf _

theorem length_rom_at_sign : (rom 49).length = Config.longest := by
  rw [length_rom, romMarks_at_sign, List.length_map, List.length_range, Config.longest]

/-- Every other entry has at most six marks (log 2). -/
theorem length_rom_lt {entry : Nat} (h : entry ≠ 49) : (rom entry).length < (rom 49).length := by
  obtain ⟨-, hle⟩ := romMarks_length entry
  rw [if_neg h] at hle
  rw [length_rom_at_sign, length_rom, Config.longest]
  omega

theorem sequenceFor_eq (c : Byte) : sequenceFor c = ((romIndex c).map rom).getD [] := rfl

theorem length_sequenceFor_at_sign : (sequenceFor 0x40#8).length = Config.longest := length_rom_at_sign

/-- Settles O17: the at-sign's entry has seven marks, and no sequence is longer than `LMAX`. -/
theorem atSignHasTheLongestSequence : Obligations.AtSignHasTheLongestSequence := by
  refine ⟨length_sequenceFor_at_sign, rfl, ⟨(romMarks 49).map markByte, ?_, fun b => mem_map_markByte, ?_⟩,
    fun c => ?_⟩
  · rw [romMarks_at_sign, List.length_map, List.length_map, List.length_range]
  · exact translateByte_of_romIndex romIndex_at_sign rfl
  · rw [length_sequenceFor_at_sign]
    exact length_sequenceFor_le c

/-- Settles O18: another byte reaches another entry, or none. -/
theorem otherSequencesAreShorterThanAtSign : Obligations.OtherSequencesAreShorterThanAtSign := by
  intro c hc
  have hentry := romIndex_ne_at_sign c hc
  rw [sequenceFor_eq c]
  cases hi : romIndex c with
  | none =>
    rw [length_sequenceFor_at_sign]
    decide
  | some e => exact length_rom_lt fun he => hentry (by rw [hi, he])

/-! ### Both tables are well formed (R222) -/

theorem rom_wellFormed {n : Nat} (h : Config.LegalCapacity n) : RomWellFormed n rom := by
  refine ⟨fun entry _ => ?_, rom_A, rom_B, rom_O, rom_S, length_rom_at_sign, fun entry he => length_rom_lt he.ne, h⟩
  obtain ⟨hpos, hle⟩ := romMarks_length entry
  refine ⟨romMarks entry, List.ne_nil_of_length_pos hpos, rfl, ?_⟩
  rw [length_rom, Config.longest]
  split at hle <;> omega

theorem mem_referenceMarks_length : ∀ marks ∈ referenceMarks, 1 ≤ marks.length ∧ marks.length ≤ 6 := by decide

/-- A reference entry is one of the 49 listed, or that of `@`. -/
theorem referenceRom_cases (atMarks : List Mark) (entry : Nat) :
    (entry < 49 ∧ ∃ marks ∈ referenceMarks, referenceRom atMarks entry = sequenceOf marks) ∨
      (49 ≤ entry ∧ referenceRom atMarks entry = sequenceOf atMarks) := by
  rcases Nat.lt_or_ge entry 49 with h | h
  · have hlt : entry < referenceMarks.length := h
    exact .inl ⟨h, _, List.getElem_mem hlt, by rw [referenceRom, List.getElem?_eq_getElem hlt]; rfl⟩
  · have hge : referenceMarks.length ≤ entry := h
    exact .inr ⟨h, by rw [referenceRom, List.getElem?_eq_none hge]; rfl⟩

theorem referenceRom_at_sign (atMarks : List Mark) : referenceRom atMarks 49 = sequenceOf atMarks := rfl

theorem referenceRom_wellFormed {n : Nat} (h : Config.LegalCapacity n) {atMarks : List Mark}
    (hat : atMarks.length = 7) : RomWellFormed n (referenceRom atMarks) := by
  refine ⟨fun entry _ => ?_, rfl, rfl, rfl, rfl, ?_, fun entry he => ?_, h⟩
  · rcases referenceRom_cases atMarks entry with ⟨-, marks, hmem, e⟩ | ⟨-, e⟩
    · obtain ⟨hpos, hle⟩ := mem_referenceMarks_length marks hmem
      exact ⟨marks, List.ne_nil_of_length_pos hpos, e, by rw [e, length_sequenceOf, Config.longest]; omega⟩
    · exact ⟨atMarks, List.ne_nil_of_length_pos (by omega), e, by rw [e, length_sequenceOf, hat, Config.longest]⟩
  · rw [referenceRom_at_sign, length_sequenceOf, hat, Config.longest]
  · rcases referenceRom_cases atMarks entry with ⟨-, marks, hmem, e⟩ | ⟨hge, -⟩
    · obtain ⟨-, hle⟩ := mem_referenceMarks_length marks hmem
      rw [e, referenceRom_at_sign, length_sequenceOf, length_sequenceOf, hat]
      omega
    · omega

/-- Settles O19: every entry's length is bounded by its number of marks, the machine's by `romMarks_length`, the
reference table's by its list. -/
theorem bothTablesAreWellFormed : Obligations.BothTablesAreWellFormed :=
  fun _ h => ⟨rom_wellFormed h, fun _ => referenceRom_wellFormed h⟩

end Sys2Proof.Machine
end

section
/-! What each operation does (30_encoding.md R82 to R87): the ports that take it, the one inversion of `exec`, the
effect of one iteration of a WRITE (42_encoder_service.md R162, R163), and how often a command is answered. -/

namespace Sys2Proof.Machine

/-! ### Which ports take an operation, and which the outside reaches (R82, R84) -/

theorem admits_xlate_iff (p : Port) (c : Byte) : admits p (.xlate c) = true ↔ p = .producer := by
  cases p <;> simp [admits]

theorem admits_write_iff (p : Port) (input : List Byte) : admits p (.write input) = true ↔ p = .producer := by
  cases p <;> simp [admits]

theorem admits_read_iff (p : Port) (m : Nat) : admits p (.read m) = true ↔ p = .consumer := by
  cases p <;> simp [admits]

theorem reaches_everyPort (p : Port) : reaches .everyPort p = true := rfl

theorem reaches_wholeBlock_iff (p : Port) : reaches .wholeBlock p = true ↔ p = .producer ∨ p = .consumer := by
  cases p <;> simp [reaches]

theorem reaches_ringAlone_iff (p : Port) : reaches .ringAlone p = true ↔ p = .bus := decide_eq_true_iff

/-! ### The inversion of `exec` -/

/-- What an operation does on a port that admits it. -/
def effectOf : Instr → State → StepOutcome
  | .openService, s => .next (answeredOk s)
  | .closeService, s => .next (answeredOk s)
  | .xlate c, s =>
    .next (answer (translateCondition c) ((translateByte c).getD []).length ((translateByte c).getD []) s)
  | .write input, s =>
    match s.writing with
    | none => .next (writeIteration ⟨input, 0⟩ s)
    | some _ => .refused .secondProducer
  | .read m, s => .next (answer (readCondition s) (readCount m s) (busRbRd m s).1 (busRbRd m s).2)
  | .tryWr seq, s => .next (busTryWr seq s).2
  | .rbRd m, s => .next (busRbRd m s).2

theorem exec_eq_onAdmittingPort (i : Instr) (s : State) : exec i s = onAdmittingPort i s (effectOf i) := by
  cases i <;> rfl

theorem exec_of_admits {i : Instr} {s : State} (h : admits s.activePort i = true) : exec i s = effectOf i s := by
  rw [exec_eq_onAdmittingPort, onAdmittingPort_admitted _ h]

theorem exec_of_not_admits {i : Instr} {s : State} (h : admits s.activePort i = false) :
    exec i s = .next (answerIllegal s) := by
  rw [exec_eq_onAdmittingPort, onAdmittingPort_illegal _ h]

theorem answerIllegal_eq (s : State) : answerIllegal s = respondOn s.activePort ⟨.illegal, 0, []⟩ s := rfl

/-- What XLATE answers (40_rom_translate.md R110). -/
def xlateAnswer (c : Byte) : Response :=
  if supported c then ⟨.ok, (sequenceFor c).length, sequenceFor c⟩ else ⟨.unsupported, 0, []⟩

/-- What a read of the ring buffer answers, on port `I` and, for a READ, on port `C` (41_ring_buffer.md R131). -/
def readAnswer (m : Nat) (s : State) : Response := ⟨.ok, readCount m s, bytesFromCursor (readCount m s) s⟩

theorem exec_xlate_producer {s : State} (c : Byte) (hp : s.activePort = .producer) :
    exec (.xlate c) s = .next (respondOn .producer (xlateAnswer c) s) := by
  rw [exec_of_admits ((admits_xlate_iff _ _).2 hp), effectOf, answer, hp]
  rcases translateByte_cases c with ⟨hs, e⟩ | ⟨hs, marks, e, -⟩ <;>
    simp [xlateAnswer, translateCondition, sequenceFor, statusOf, hs, e]

theorem exec_write_producer {s : State} (input : List Byte) (hp : s.activePort = .producer) (hw : s.writing = none) :
    exec (.write input) s = .next (writeIteration ⟨input, 0⟩ s) := by
  rw [exec_of_admits ((admits_write_iff _ _).2 hp), effectOf, hw]

theorem exec_write_refused {s : State} (input : List Byte) {w : WriteProgress} (hp : s.activePort = .producer)
    (hw : s.writing = some w) : exec (.write input) s = .refused .secondProducer := by
  rw [exec_of_admits ((admits_write_iff _ _).2 hp), effectOf, hw]

theorem busRbRd_snd_eq_readAnswer (m : Nat) (s : State) :
    (busRbRd m s).2 = respondOn .bus (readAnswer m s) (consume (readCount m s) s) := by
  rw [busRbRd_eq]
  rfl

theorem exec_read_consumer {s : State} (m : Nat) (hp : s.activePort = .consumer) :
    exec (.read m) s = .next (respondOn .consumer (readAnswer m s) (busRbRd m s).2) := by
  have hok : statusOf (readCondition s) = .ok := by unfold readCondition; split <;> rfl
  rw [exec_of_admits ((admits_read_iff _ _).2 hp), effectOf, answer, busRbRd_activePort, consume_activePort, hp, hok]
  rfl

/-- Everything an operation that has a next state does. -/
inductive Executes (s : State) : Instr → State → Prop where
  | illegal {i : Instr} (h : admits s.activePort i = false) : Executes s i (answerIllegal s)
  | opened (h : admits s.activePort .openService = true) : Executes s .openService (answeredOk s)
  | closed (h : admits s.activePort .closeService = true) : Executes s .closeService (answeredOk s)
  | translated (c : Byte) (hp : s.activePort = .producer) :
    Executes s (.xlate c) (respondOn .producer (xlateAnswer c) s)
  | began (input : List Byte) (hp : s.activePort = .producer) (hw : s.writing = none) :
    Executes s (.write input) (writeIteration ⟨input, 0⟩ s)
  | delivered (m : Nat) (hp : s.activePort = .consumer) :
    Executes s (.read m) (respondOn .consumer (readAnswer m s) (busRbRd m s).2)
  | tried (seq : List Byte) (hp : s.activePort = .bus) : Executes s (.tryWr seq) (busTryWr seq s).2
  | returned (m : Nat) (hp : s.activePort = .bus) : Executes s (.rbRd m) (busRbRd m s).2

theorem exec_eq_next_of_executes {i : Instr} {s t : State} (h : Executes s i t) : exec i s = .next t := by
  cases h with
  | illegal h => exact exec_of_not_admits h
  | opened h => exact exec_openService h
  | closed h => exact exec_closeService h
  | translated c hp => exact exec_xlate_producer c hp
  | began input hp hw => exact exec_write_producer input hp hw
  | delivered m hp => exact exec_read_consumer m hp
  | tried seq hp => exact exec_tryWr_bus seq hp
  | returned m hp => exact exec_rbRd_bus m hp

/-- Only a WRITE inside a WRITE, on the port that admits it, has no next state. -/
theorem executes_or_refused (i : Instr) (s : State) :
    (∃ t, Executes s i t) ∨ s.activePort = .producer ∧ s.writing.isSome = true ∧ ∃ input, i = .write input := by
  cases ha : admits s.activePort i with
  | false => exact .inl ⟨_, .illegal ha⟩
  | true =>
    cases i with
    | openService => exact .inl ⟨_, .opened ha⟩
    | closeService => exact .inl ⟨_, .closed ha⟩
    | xlate c => exact .inl ⟨_, .translated c ((admits_xlate_iff _ _).1 ha)⟩
    | write input =>
      have hp := (admits_write_iff _ _).1 ha
      cases hw : s.writing with
      | none => exact .inl ⟨_, .began input hp hw⟩
      | some w => exact .inr ⟨hp, rfl, input, rfl⟩
    | read m => exact .inl ⟨_, .delivered m ((admits_read_iff _ _).1 ha)⟩
    | tryWr seq => exact .inl ⟨_, .tried seq ((admits_tryWr_iff _ _).1 ha)⟩
    | rbRd m => exact .inl ⟨_, .returned m ((admits_rbRd_iff _ _).1 ha)⟩

theorem exec_eq_next_iff {i : Instr} {s t : State} : exec i s = .next t ↔ Executes s i t := by
  refine ⟨fun h => ?_, exec_eq_next_of_executes⟩
  rcases executes_or_refused i s with ⟨u, hu⟩ | ⟨hp, hw, input, rfl⟩
  · obtain rfl : u = t := Host.Outcome.next.inj ((exec_eq_next_of_executes hu).symm.trans h)
    exact hu
  · obtain ⟨w, hw⟩ := Option.isSome_iff_exists.1 hw
    rw [exec_write_refused input hp hw] at h
    cases h

/-- Settles O5: the admission table, and `exec` on any other port. -/
theorem operationsRunOnlyOnTheirPorts : Obligations.OperationsRunOnlyOnTheirPorts :=
  ⟨admits_openService_iff, admits_closeService_iff, admits_xlate_iff, admits_write_iff, admits_read_iff,
    admits_tryWr_iff, admits_rbRd_iff, reaches_everyPort, rfl, reaches_wholeBlock_iff, reaches_ringAlone_iff,
    fun _ s h => ⟨_, exec_of_not_admits h, respondOn_frame s.activePort ⟨.illegal, 0, []⟩ s⟩⟩

/-- Settles O12, condition by condition. -/
theorem conditionCodesAndStatuses : Obligations.ConditionCodesAndStatuses := by
  refine ⟨rfl, rfl, rfl, rfl, rfl, rfl, rfl, ?_, ?_⟩
  · simp [statusOf, statusByte, conditionCode]
  · simp [statusOf, statusByte]

/-- Settles O22: XLATE is its answer alone. -/
theorem xlateAnswersTheSequence : Obligations.XlateAnswersTheSequence :=
  ⟨decode_xlate, admits_xlate_iff, rfl, rfl, fun c s hp =>
    ⟨_, exec_xlate_producer c hp, respondOn_frame .producer (xlateAnswer c) s⟩⟩

/-! ### READ (42_encoder_service.md R166) -/

theorem answered_of_port_eq {s t : State} (h : ∀ q, t.port q = s.port q) : Answered [] [] [] s t := by
  intro q
  cases q <;> simp [h]

theorem Answered.producer {onP onC onI : List Response} {s u : State} (h : Answered onP onC onI s u) (r : Response) :
    Answered (onP ++ [r]) onC onI s (respondOn .producer r u) := by
  intro q
  obtain ⟨hin, hout⟩ := h q
  cases q
  · simp [hin, hout]
  · rw [respondOn_port_other r u (by decide)]; exact ⟨hin, hout⟩
  · rw [respondOn_port_other r u (by decide)]; exact ⟨hin, hout⟩

theorem Answered.consumer {onP onC onI : List Response} {s u : State} (h : Answered onP onC onI s u) (r : Response) :
    Answered onP (onC ++ [r]) onI s (respondOn .consumer r u) := by
  intro q
  obtain ⟨hin, hout⟩ := h q
  cases q
  · rw [respondOn_port_other r u (by decide)]; exact ⟨hin, hout⟩
  · simp [hin, hout]
  · rw [respondOn_port_other r u (by decide)]; exact ⟨hin, hout⟩

theorem Answered.bus {onP onC onI : List Response} {s u : State} (h : Answered onP onC onI s u) (r : Response) :
    Answered onP onC (onI ++ [r]) s (respondOn .bus r u) := by
  intro q
  obtain ⟨hin, hout⟩ := h q
  cases q
  · rw [respondOn_port_other r u (by decide)]; exact ⟨hin, hout⟩
  · rw [respondOn_port_other r u (by decide)]; exact ⟨hin, hout⟩
  · simp [hin, hout]

theorem Answered.congr {onP onC onI : List Response} {s u t : State} (h : Answered onP onC onI s u)
    (hport : ∀ q, t.port q = u.port q) : Answered onP onC onI s t := fun q => by
  rw [hport q]
  exact h q

theorem busRbRd_answered (m : Nat) (s : State) : Answered [] [] [readAnswer m s] s (busRbRd m s).2 := by
  rw [busRbRd_snd_eq_readAnswer]
  exact (answered_of_port_eq (consume_port _ s)).bus _

/-- The state a READ leaves: RBRD on port `I`, its answer handed through to port `C`. -/
def afterRead (m : Nat) (s : State) : State := respondOn .consumer (readAnswer m s) (busRbRd m s).2

theorem afterRead_answered (m : Nat) (s : State) :
    Answered [] [readAnswer m s] [readAnswer m s] s (afterRead m s) :=
  (busRbRd_answered m s).consumer _

theorem afterRead_readEffect (m : Nat) (s : State) : ReadEffect (readCount m s) s (afterRead m s) := by
  simpa only [afterRead, ReadEffect, SameBytes, respondOn_readCursor, respondOn_occupancy, respondOn_writeCursor,
    respondOn_storage] using busRbRd_readEffect m s

theorem afterRead_sameSurroundings (m : Nat) (s : State) : SameSurroundings s (afterRead m s) := by
  simp [afterRead, SameSurroundings]

/-- Which port runs the read makes no difference to its registers and bytes. -/
theorem busRbRd_withActivePort_same (m : Nat) (p : Port) (s : State) :
    SameRegisters (busRbRd m (s.withActivePort p)).2 (afterRead m s) ∧
      SameBytes (busRbRd m (s.withActivePort p)).2 (afterRead m s) := by
  have hk : readCount m (s.withActivePort p) = readCount m s := rfl
  exact ⟨by simp [afterRead, SameRegisters, hk], fun a => by simp [afterRead]⟩

/-- Settles O27: READ is RBRD on the bus and its answer handed through. -/
theorem readDelegatesToTheRing : Obligations.ReadDelegatesToTheRing := by
  refine ⟨decode_read, admits_read_iff, fun m s hp => ⟨afterRead m s, readCount m s, exec_read_consumer m hp, rfl,
    afterRead_readEffect m s, by simp [afterRead], afterRead_sameSurroundings m s, afterRead_answered m s,
    (busRbRd m (s.withActivePort .bus)).2, exec_rbRd_bus m rfl, ?_⟩⟩
  obtain ⟨hregs, hbytes⟩ := busRbRd_withActivePort_same m .bus s
  refine ⟨hregs, hbytes, fun q => ?_⟩
  have h := busRbRd_onlyAnswered m (s.withActivePort .bus) q
  rwa [withActivePort_port] at h

/-! ### Counts above the field (30_encoding.md R83) -/

/-- A count that is no less than the storage asks for all there is. -/
theorem readCount_of_capacity_le {m : Nat} {s : State} (h : s.capacity ≤ m) :
    readCount m s = min s.occupancy (s.capacity - s.readCursor) := by
  rw [readCount, Nat.min_eq_right]
  exact (Nat.min_le_right _ _).trans ((Nat.sub_le _ _).trans h)

theorem busRbRd_congr {m n : Nat} {s : State} (h : readCount m s = readCount n s) : busRbRd m s = busRbRd n s := by
  simp only [busRbRd, ringRead, h]

/-- Settles O11: the two counts read the same number of bytes. -/
theorem countsAboveTheFieldReadAsTheLargest : Obligations.CountsAboveTheFieldReadAsTheLargest := by
  intro m s ⟨_, hle, _⟩ hm
  have hk : readCount m s = readCount 255 s := by
    rw [readCount_of_capacity_le (hle.trans hm), readCount_of_capacity_le hle]
  refine ⟨?_, ?_⟩
  · have ha : admits s.activePort (.read m) = admits s.activePort (.read 255) := by cases s.activePort <;> rfl
    simp only [exec_eq_onAdmittingPort, onAdmittingPort, effectOf, ha, hk, busRbRd_congr hk]
  · have ha : admits s.activePort (.rbRd m) = admits s.activePort (.rbRd 255) := by cases s.activePort <;> rfl
    simp only [exec_eq_onAdmittingPort, onAdmittingPort, effectOf, ha, busRbRd_congr hk]

/-! ### One iteration of a WRITE (42_encoder_service.md R162, R163) -/

theorem statusOf_writeCondition (n : Nat) :
    statusOf (writeCondition n) = if n = 0 then .noProgress else .ok := by
  unfold writeCondition
  split <;> rfl

theorem finishWrite_writeEnds {onI : List Response} {s u : State} (n : Nat) (h : Answered [] [] onI s u) :
    WriteEnds n onI s (finishWrite n u) := by
  have hport : ∀ q, ({ u with writing := none } : State).port q = u.port q := fun q => by cases q <;> rfl
  refine ⟨finishWrite_writing n u, ?_⟩
  rw [finishWrite, statusOf_writeCondition]
  exact (h.congr hport).producer _

theorem continueWrite_writeAdvances {onI : List Response} {s u : State} (input : List Byte) (cursor : Nat)
    (h : Answered [] [] onI s u) : WriteAdvances input cursor onI s (continueWrite input cursor u) := by
  unfold WriteAdvances continueWrite
  split
  · exact ⟨rfl, h.congr fun q => by cases q <;> rfl⟩
  · exact finishWrite_writeEnds cursor h

theorem admitted_answered (seq : List Byte) (s : State) :
    Answered [] [] [tryWrAnswer seq.length] s (respondOn .bus (tryWrAnswer seq.length) (admitBytes seq s)) :=
  (answered_of_port_eq (admit_port seq s)).bus _

theorem rejected_answered (s : State) : Answered [] [] [tryWrAnswer 0] s (respondOn .bus (tryWrAnswer 0) s) :=
  (answered_of_port_eq fun _ => rfl).bus _

/-- Everything one iteration of a WRITE can do, by the byte at its cursor: end an exhausted input, skip an unsupported
byte, take in a sequence that fits, or end before one that does not. -/
inductive Iterates (w : WriteProgress) (s : State) : State → Prop where
  | exhausted (h : w.input[w.cursor]? = none) : Iterates w s (finishWrite w.cursor s)
  | skipped {c : Byte} (h : w.input[w.cursor]? = some c) (hc : supported c = false) :
    Iterates w s (continueWrite w.input (w.cursor + 1) s)
  | admitted {c : Byte} (h : w.input[w.cursor]? = some c) (hc : supported c = true)
    (hfit : (sequenceFor c).length ≤ freeCapacity s) :
    Iterates w s (continueWrite w.input (w.cursor + 1)
      (respondOn .bus (tryWrAnswer (sequenceFor c).length) (admitBytes (sequenceFor c) s)))
  | rejected {c : Byte} (h : w.input[w.cursor]? = some c) (hc : supported c = true)
    (hlong : freeCapacity s < (sequenceFor c).length) :
    Iterates w s (finishWrite w.cursor (respondOn .bus (tryWrAnswer 0) s))

theorem sequenceFor_of_translateByte {c : Byte} {seq : List Byte} (h : translateByte c = some seq) :
    sequenceFor c = seq := by
  rw [sequenceFor, h, Option.getD_some]

theorem translateByte_of_not_supported {c : Byte} (h : supported c = false) : translateByte c = none := by
  rw [← Option.isNone_iff_eq_none, ← Option.not_isSome, translateByte_isSome, h, Bool.not_false]

theorem translateByte_eq_sequenceFor {c : Byte} (h : supported c = true) : translateByte c = some (sequenceFor c) := by
  obtain ⟨marks, e, -⟩ := translateByte_of_supported h
  rw [sequenceFor_of_translateByte e, e]

theorem sequenceFor_of_not_supported {c : Byte} (h : supported c = false) : sequenceFor c = [] := by
  rw [sequenceFor, translateByte_of_not_supported h, Option.getD_none]

theorem two_le_length_sequenceFor {c : Byte} (h : supported c = true) : 2 ≤ (sequenceFor c).length :=
  two_le_length_of_translateByte (translateByte_eq_sequenceFor h)

theorem tryWrite_sequenceFor_ne_zero {c : Byte} {s : State} (hc : supported c = true)
    (hfit : (sequenceFor c).length ≤ freeCapacity s) : (tryWrite (sequenceFor c) s).1 ≠ 0 := by
  have hpos := two_le_length_sequenceFor hc
  rw [tryWrite_fits hfit]
  exact Nat.ne_of_gt (Nat.lt_of_succ_lt hpos)

/-- Every byte is unsupported, or its sequence fits, or it does not. -/
theorem byte_cases (c : Byte) (s : State) : supported c = false ∨
    (supported c = true ∧ (sequenceFor c).length ≤ freeCapacity s) ∨
    (supported c = true ∧ freeCapacity s < (sequenceFor c).length) := by
  cases hc : supported c with
  | false => exact .inl rfl
  | true => exact .inr ((Nat.lt_or_ge (freeCapacity s) (sequenceFor c).length).symm.imp (⟨rfl, ·⟩) (⟨rfl, ·⟩))

theorem writeIteration_skipped {w : WriteProgress} {c : Byte} (s : State) (h : w.input[w.cursor]? = some c)
    (hc : supported c = false) : writeIteration w s = continueWrite w.input (w.cursor + 1) s := by
  simp [writeIteration, h, translateByte_of_not_supported hc]

theorem writeIteration_admitted {w : WriteProgress} {c : Byte} {s : State} (h : w.input[w.cursor]? = some c)
    (hc : supported c = true) (hfit : (sequenceFor c).length ≤ freeCapacity s) :
    writeIteration w s = continueWrite w.input (w.cursor + 1)
      (respondOn .bus (tryWrAnswer (sequenceFor c).length) (admitBytes (sequenceFor c) s)) := by
  have hne := tryWrite_sequenceFor_ne_zero hc hfit
  rcases busTryWr_cases (sequenceFor c) s with ⟨-, e⟩ | ⟨hlong, -⟩
  · simp only [writeIteration, h, translateByte_eq_sequenceFor hc, busTryWr_fst, hne, if_false]
    rw [e]
    rfl
  · exact absurd hfit (Nat.not_le.2 hlong)

theorem writeIteration_rejected {w : WriteProgress} {c : Byte} {s : State} (h : w.input[w.cursor]? = some c)
    (hc : supported c = true) (hlong : freeCapacity s < (sequenceFor c).length) :
    writeIteration w s = finishWrite w.cursor (respondOn .bus (tryWrAnswer 0) s) := by
  rcases busTryWr_cases (sequenceFor c) s with ⟨hfit, -⟩ | ⟨-, e⟩
  · exact absurd hfit (Nat.not_le.2 hlong)
  · simp [writeIteration, h, translateByte_eq_sequenceFor hc, e, tryWrAnswer]

theorem writeIteration_iterates (w : WriteProgress) (s : State) : Iterates w s (writeIteration w s) := by
  cases h : w.input[w.cursor]? with
  | none =>
    have e : writeIteration w s = finishWrite w.cursor s := by simp [writeIteration, h]
    rw [e]
    exact .exhausted h
  | some c =>
    rcases byte_cases c s with hc | ⟨hc, hfit⟩ | ⟨hc, hlong⟩
    · rw [writeIteration_skipped s h hc]
      exact .skipped h hc
    · rw [writeIteration_admitted h hc hfit]
      exact .admitted h hc hfit
    · rw [writeIteration_rejected h hc hlong]
      exact .rejected h hc hlong

theorem iterates_sameSurroundings {w : WriteProgress} {s t : State} (h : Iterates w s t) : SameSurroundings s t := by
  cases h <;> simp [SameSurroundings]

theorem iterates_effect {w : WriteProgress} {s t : State} (h : Iterates w s t) : IterationEffect w s t := by
  refine ⟨iterates_sameSurroundings h, ?_⟩
  cases h with
  | exhausted h =>
    rw [h]
    exact ⟨by simp [SameRegisters], fun a => by simp,
      finishWrite_writeEnds _ (answered_of_port_eq fun _ => rfl)⟩
  | skipped h hc =>
    simp only [h, hc, if_true]
    exact ⟨by simp [SameRegisters], fun a => by simp,
      continueWrite_writeAdvances _ _ (answered_of_port_eq fun _ => rfl)⟩
  | @admitted c h hc hfit =>
    have heffect := admitBytes_admissionEffect (hfit.trans (Nat.sub_le _ _))
    have hfit' : (sequenceFor c).length ≤ s.capacity - s.occupancy := hfit
    simp only [h, hc, hfit', if_true, Bool.true_eq_false, if_false]
    refine ⟨?_, continueWrite_writeAdvances _ _ (admitted_answered (sequenceFor c) s)⟩
    simpa only [AdmissionEffect, continueWrite_writeCursor, continueWrite_occupancy, continueWrite_readCursor,
      continueWrite_storage, respondOn_writeCursor, respondOn_occupancy, respondOn_readCursor, respondOn_storage]
      using heffect
  | @rejected c h hc hlong =>
    have hlong' : ¬(sequenceFor c).length ≤ s.capacity - s.occupancy := Nat.not_le.2 hlong
    simp only [h, hc, hlong', Bool.true_eq_false, if_false]
    exact ⟨by simp [SameRegisters], fun a => by simp, finishWrite_writeEnds _ (rejected_answered s)⟩

theorem writeIteration_effect (w : WriteProgress) (s : State) : IterationEffect w s (writeIteration w s) :=
  iterates_effect (writeIteration_iterates w s)

/-- Settles O32: the meaning of a WRITE is its first iteration. -/
theorem writeTakesItsFirstIteration : Obligations.WriteTakesItsFirstIteration :=
  ⟨fun _ rest => decode_write rest, admits_write_iff, fun input s hp hw =>
    ⟨_, exec_write_producer input hp hw, writeIteration_effect ⟨input, 0⟩ s⟩⟩

/-! ### One response to a command (30_encoding.md R87) -/

/-- A WRITE that goes on is not answered yet, and one that ends is answered on port `P`. -/
theorem writeAdvances_cases {input : List Byte} {cursor : Nat} {onI : List Response} {s t : State}
    (h : WriteAdvances input cursor onI s t) :
    (t.writing = some ⟨input, cursor⟩ ∧ cursor < input.length ∧ Answered [] [] onI s t) ∨ WriteEnds cursor onI s t := by
  unfold WriteAdvances at h
  split at h
  · next hlt => exact .inl ⟨h.1, hlt, h.2⟩
  · exact .inr h

/-- An iteration goes on with the next byte or ends; it answers at most one TRYWR. -/
theorem iterates_answers {w : WriteProgress} {s t : State} (h : Iterates w s t) :
    ∃ onI : List Response, onI.length ≤ 1 ∧
      ((t.writing = some ⟨w.input, w.cursor + 1⟩ ∧ w.cursor + 1 < w.input.length ∧ Answered [] [] onI s t) ∨
        ∃ n, n ≤ w.cursor + 1 ∧ WriteEnds n onI s t) := by
  cases h with
  | exhausted h =>
    exact ⟨[], by simp, .inr ⟨_, Nat.le_succ _, finishWrite_writeEnds _ (answered_of_port_eq fun _ => rfl)⟩⟩
  | skipped h hc =>
    have hadv := continueWrite_writeAdvances w.input (w.cursor + 1) (answered_of_port_eq (s := s) fun _ => rfl)
    exact ⟨[], by simp, (writeAdvances_cases hadv).imp_right fun he => ⟨_, Nat.le_refl _, he⟩⟩
  | @admitted c h hc hfit =>
    have hadv := continueWrite_writeAdvances w.input (w.cursor + 1) (admitted_answered (sequenceFor c) s)
    exact ⟨_, by simp, (writeAdvances_cases hadv).imp_right fun he => ⟨_, Nat.le_refl _, he⟩⟩
  | rejected h hc hlong =>
    exact ⟨_, by simp, .inr ⟨_, Nat.le_succ _, finishWrite_writeEnds _ (rejected_answered s)⟩⟩

/-- A response on the running port alone, in the form that also allows one on port `I`. -/
theorem onlyAnswered_without_bus {p : Port} {r : Response} {s t : State} (h : OnlyAnswered p r s t) (q : Port) :
    (t.port q).inward = (s.port q).inward ∧
      (t.port q).outward = (s.port q).outward ++ if q = p then [r] else if q = .bus then [] else [] := by
  obtain ⟨hin, hout⟩ := h q
  refine ⟨hin, hout.trans ?_⟩
  by_cases hq : q = p <;> simp [hq]

theorem onlyAnswered_answerIllegal (s : State) :
    OnlyAnswered s.activePort ⟨.illegal, 0, []⟩ s (answerIllegal s) :=
  respondOn_onlyAnswered _ _ fun _ => rfl

theorem busTryWr_onlyAnswered (seq : List Byte) (s : State) :
    OnlyAnswered .bus (tryWrAnswer (admittedBy (.tryWr seq) s).length) s (busTryWr seq s).2 := by
  rw [busTryWr_snd_eq_respondOn]
  exact respondOn_onlyAnswered _ _ (afterRingOp_port (.tryWr seq) s)

theorem payload_length_xlateAnswer (c : Byte) : (xlateAnswer c).payload.length = (xlateAnswer c).count := by
  unfold xlateAnswer
  split <;> rfl

theorem payload_length_readAnswer (m : Nat) (s : State) : (readAnswer m s).payload.length = (readAnswer m s).count :=
  length_bytesFromCursor _ s

/-- Settles O10, by the inversion of `exec`: everything but a WRITE and a READ answers on its own port alone. -/
theorem everyCommandIsAnsweredOnce : Obligations.EveryCommandIsAnsweredOnce := by
  intro i s t h
  cases exec_eq_next_iff.1 h with
  | illegal h =>
    refine ⟨[], by simp, by simp, .inr ⟨_, onlyAnswered_without_bus (onlyAnswered_answerIllegal s), ?_⟩⟩
    cases i <;> rfl
  | opened h =>
    obtain ⟨-, -, -, -, hans⟩ := answeredOk_frame s
    exact ⟨[], by simp, by simp, .inr ⟨_, onlyAnswered_without_bus hans, rfl⟩⟩
  | closed h =>
    obtain ⟨-, -, -, -, hans⟩ := answeredOk_frame s
    exact ⟨[], by simp, by simp, .inr ⟨_, onlyAnswered_without_bus hans, rfl⟩⟩
  | translated c hp =>
    have hans : OnlyAnswered s.activePort (xlateAnswer c) s (respondOn .producer (xlateAnswer c) s) := by
      rw [hp]
      exact respondOn_onlyAnswered _ _ fun _ => rfl
    exact ⟨[], by simp, by simp, .inr ⟨_, onlyAnswered_without_bus hans, payload_length_xlateAnswer c⟩⟩
  | began input hp hw =>
    obtain ⟨onI, hlen, ⟨hgo, -, hans⟩ | ⟨n, -, -, hans⟩⟩ := iterates_answers (writeIteration_iterates ⟨input, 0⟩ s)
    · exact ⟨onI, hlen, fun _ => ⟨by simp [hp], .inl ⟨input, rfl⟩⟩, .inl ⟨input, rfl, by simp [hgo], hans⟩⟩
    · refine ⟨onI, hlen, fun _ => ⟨by simp [hp], .inl ⟨input, rfl⟩⟩, 
        .inr ⟨⟨if n = 0 then .noProgress else .ok, n, []⟩, fun q => ?_, rfl⟩⟩
      obtain ⟨hin, hout⟩ := hans q
      refine ⟨hin, hout.trans ?_⟩
      cases q <;> simp [hp]
  | delivered m hp =>
    refine ⟨[readAnswer m s], by simp, fun _ => ⟨by simp [hp], .inr ⟨m, rfl⟩⟩,
      .inr ⟨readAnswer m s, fun q => ?_, payload_length_readAnswer m s⟩⟩
    obtain ⟨hin, hout⟩ := afterRead_answered m s q
    refine ⟨hin, hout.trans ?_⟩
    cases q <;> simp [hp]
  | tried seq hp =>
    have hans := busTryWr_onlyAnswered seq s
    rw [← hp] at hans
    exact ⟨[], by simp, by simp, .inr ⟨_, onlyAnswered_without_bus hans, rfl⟩⟩
  | returned m hp =>
    have hans := busRbRd_onlyAnswered m s
    rw [← hp] at hans
    exact ⟨[], by simp, by simp, .inr ⟨_, onlyAnswered_without_bus hans, payload_length_readAnswer m s⟩⟩

end Sys2Proof.Machine
end

section
/-! One turn of a port and one step of the machine: their inversions, what they leave unchanged, and the statements of
single events (30_encoding.md R80, R85, R86; 60_exceptions.md R199, R204; 70_reset_and_hazards.md R223, R232, R235). -/

namespace Sys2Proof.Machine

/-! ### What an operation leaves unchanged -/

theorem iterates_inward {w : WriteProgress} {s t : State} (h : Iterates w s t) (q : Port) :
    (t.port q).inward = (s.port q).inward := by
  cases h <;> simp

theorem executes_inward {i : Instr} {s t : State} (h : Executes s i t) (q : Port) :
    (t.port q).inward = (s.port q).inward := by
  cases h with
  | illegal h => exact answer_inward _ _ _ s q
  | opened h => exact respondOn_inward _ _ s q
  | closed h => exact respondOn_inward _ _ s q
  | translated c hp => exact respondOn_inward _ _ s q
  | began input hp hw => exact iterates_inward (writeIteration_iterates _ s) q
  | delivered m hp => rw [respondOn_inward, busRbRd_inward]
  | tried seq hp => exact busTryWr_inward seq s q
  | returned m hp => exact busRbRd_inward m s q

theorem executes_sameSurroundings {i : Instr} {s t : State} (h : Executes s i t) : SameSurroundings s t := by
  cases h with
  | illegal h => exact respondOn_sameSurroundings _ _ s
  | opened h => exact respondOn_sameSurroundings _ _ s
  | closed h => exact respondOn_sameSurroundings _ _ s
  | translated c hp => exact respondOn_sameSurroundings _ _ s
  | began input hp hw => exact iterates_sameSurroundings (writeIteration_iterates _ s)
  | delivered m hp => exact afterRead_sameSurroundings m s
  | tried seq hp => exact busTryWr_sameSurroundings seq s
  | returned m hp => exact busRbRd_sameSurroundings m s

/-- Only a WRITE, on port `P`, changes the WRITE in progress. -/
theorem executes_writing {i : Instr} {s t : State} (h : Executes s i t) (hp : s.activePort ≠ .producer) :
    t.writing = s.writing := by
  cases h with
  | illegal h => exact answer_writing _ _ _ s
  | opened h => exact respondOn_writing _ _ s
  | closed h => exact respondOn_writing _ _ s
  | translated c hp' => exact absurd hp' hp
  | began input hp' hw => exact absurd hp' hp
  | delivered m hp' => rw [respondOn_writing, busRbRd_writing, consume_writing]
  | tried seq hp' => exact busTryWr_writing seq s
  | returned m hp' => rw [busRbRd_writing, consume_writing]

/-- An operation on port `I` leaves the streams of the other two. -/
theorem executes_bus_port {i : Instr} {s t : State} (h : Executes s i t) (hp : s.activePort = .bus) {q : Port}
    (hq : q ≠ .bus) : t.port q = s.port q := by
  cases h with
  | illegal h => rw [answerIllegal_eq, hp, respondOn_port_other _ _ hq]
  | opened h => simp [hp, admits] at h
  | closed h => simp [hp, admits] at h
  | translated c hp' => simp [hp] at hp'
  | began input hp' hw => simp [hp] at hp'
  | delivered m hp' => simp [hp] at hp'
  | tried seq hp' => exact busTryWr_port_other seq s hq
  | returned m hp' => exact busRbRd_port_other m s hq

/-! ### One turn of a port -/

theorem runTurn_write {s : State} {w : WriteProgress} (hw : s.writing = some w) :
    runTurn .producer s = .next (writeIteration w (s.withActivePort .producer)) := by
  simp [runTurn, hw]

theorem runTurn_command {p : Port} {s : State} {i : Instr} {rest : List Byte} (hw : p = .producer → s.writing = none)
    (hb : heldBack p s = false) (hd : decode (s.port p).inward = .command i rest) :
    runTurn p s = exec i (fetched p rest s) := by
  rw [runTurn_eq_runNextCommand hw, runNextCommand_command hb hd]

theorem runTurn_reserved {p : Port} {s : State} {opcode : Byte} {rest : List Byte}
    (hw : p = .producer → s.writing = none) (hd : decode (s.port p).inward = .reserved opcode rest) :
    runTurn p s = .next (answerIllegal (fetched p rest s)) := by
  have hb : heldBack p s = false := by
    rw [Bool.eq_false_iff, Ne, heldBack_iff]
    rintro ⟨rfl, -, seq, more, he⟩
    rw [hd] at he
    cases he
  rw [runTurn_eq_runNextCommand hw]
  simp [runNextCommand, hb, hd]

theorem runTurn_incomplete {p : Port} {s : State} (hw : p = .producer → s.writing = none)
    (hd : decode (s.port p).inward = .incomplete) : runTurn p s = .next s := by
  rw [runTurn_eq_runNextCommand hw]
  simp [runNextCommand, hd]

theorem runTurn_heldBack {p : Port} {s : State} (hb : heldBack p s = true) : runTurn p s = .next s := by
  obtain ⟨rfl, -, -⟩ := heldBack_iff.1 hb
  simp [runTurn, runNextCommand, hb]

/-- Everything a turn of a port leaves, before empty WRITEs are answered. -/
inductive TakesTurn (p : Port) (s : State) : State → Prop where
  | iterated {w : WriteProgress} {u : State} (hp : p = .producer) (hw : s.writing = some w)
    (h : Iterates w (s.withActivePort .producer) u) : TakesTurn p s u
  | waited (hw : p = .producer → s.writing = none)
    (h : heldBack p s = true ∨ decode (s.port p).inward = .incomplete) : TakesTurn p s s
  | turnedAway {opcode : Byte} {rest : List Byte} (hw : p = .producer → s.writing = none)
    (hd : decode (s.port p).inward = .reserved opcode rest) : TakesTurn p s (answerIllegal (fetched p rest s))
  | ran {i : Instr} {rest : List Byte} {u : State} (hw : p = .producer → s.writing = none) (hb : heldBack p s = false)
    (hd : decode (s.port p).inward = .command i rest) (h : Executes (fetched p rest s) i u) : TakesTurn p s u

/-- With no WRITE in progress on `P`, whatever is decoded has a next state. -/
theorem exists_executes_fetched {p : Port} {s : State} (i : Instr) (rest : List Byte)
    (hw : p = .producer → s.writing = none) : ∃ u, Executes (fetched p rest s) i u := by
  rcases executes_or_refused i (fetched p rest s) with h | ⟨hp, hsome, -⟩
  · exact h
  · rw [fetched_writing, hw hp] at hsome
    cases hsome

/-- Every turn has a next state (41_ring_buffer.md R142). -/
theorem runTurn_takesTurn (p : Port) (s : State) : ∃ u, runTurn p s = .next u ∧ TakesTurn p s u := by
  by_cases hw : p = .producer → s.writing = none
  · cases hb : heldBack p s with
    | true => exact ⟨s, runTurn_heldBack hb, .waited hw (.inl hb)⟩
    | false =>
      cases hd : decode (s.port p).inward with
      | command i rest =>
        obtain ⟨u, hu⟩ := exists_executes_fetched i rest hw
        exact ⟨u, (runTurn_command hw hb hd).trans (exec_eq_next_of_executes hu), .ran hw hb hd hu⟩
      | reserved opcode rest => exact ⟨_, runTurn_reserved hw hd, .turnedAway hw hd⟩
      | incomplete => exact ⟨s, runTurn_incomplete hw hd, .waited hw (.inr hd)⟩
  · obtain ⟨rfl, hne⟩ := Classical.not_imp.1 hw
    obtain ⟨w, hw⟩ := Option.ne_none_iff_exists'.1 hne
    exact ⟨_, runTurn_write hw, .iterated rfl hw (writeIteration_iterates w _)⟩

theorem takesTurn_of_runTurn {p : Port} {s u : State} (h : runTurn p s = .next u) : TakesTurn p s u := by
  obtain ⟨u', h', ht⟩ := runTurn_takesTurn p s
  obtain rfl : u' = u := Host.Outcome.next.inj (h'.symm.trans h)
  exact ht

theorem exists_takeTurn (p : Port) (s : State) : ∃ t, takeTurn p s = .next t := by
  obtain ⟨u, hu, -⟩ := runTurn_takesTurn p s
  exact ⟨_, takeTurn_of_runTurn hu⟩

theorem takeTurn_ne_refused (p : Port) (s : State) (r : Refusal) : takeTurn p s ≠ .refused r := by
  obtain ⟨t, ht⟩ := exists_takeTurn p s
  rw [ht]
  nofun

/-! ### What a turn leaves unchanged -/

theorem takesTurn_wiring {p : Port} {s u : State} (h : TakesTurn p s u) : u.wiring = s.wiring := by
  cases h with
  | iterated hp hw h =>
    obtain ⟨-, -, hwiring, -⟩ := iterates_sameSurroundings h
    exact hwiring
  | waited hw h => rfl
  | turnedAway hw hd => rw [answerIllegal, answer_wiring, fetched_wiring]
  | ran hw hb hd h =>
    obtain ⟨-, -, hwiring, -⟩ := executes_sameSurroundings h
    exact hwiring.trans (fetched_wiring _ _ _)

theorem takesTurn_capacity {p : Port} {s u : State} (h : TakesTurn p s u) : u.capacity = s.capacity := by
  cases h with
  | iterated hp hw h => exact (iterates_sameSurroundings h).1
  | waited hw h => rfl
  | turnedAway hw hd => rw [answerIllegal, answer_capacity, fetched_capacity]
  | ran hw hb hd h => exact (executes_sameSurroundings h).1.trans (fetched_capacity _ _ _)

theorem fetched_port_other {p q : Port} (rest : List Byte) (s : State) (h : q ≠ p) :
    (fetched p rest s).port q = s.port q := by
  rw [fetched_port, if_neg h]

/-- A turn takes bytes from its own port alone. -/
theorem takesTurn_inward_other {p q : Port} {s u : State} (h : TakesTurn p s u) (hq : q ≠ p) :
    (u.port q).inward = (s.port q).inward := by
  cases h with
  | iterated hp hw h => rw [iterates_inward h q, withActivePort_port]
  | waited hw h => rfl
  | turnedAway hw hd => rw [answerIllegal, answer_inward, fetched_port_other _ _ hq]
  | ran hw hb hd h => rw [executes_inward h q, fetched_port_other _ _ hq]

/-- A turn of another port than `P` leaves the WRITE in progress. -/
theorem takesTurn_writing {p : Port} {s u : State} (h : TakesTurn p s u) (hp : p ≠ .producer) :
    u.writing = s.writing := by
  cases h with
  | iterated hp' hw h => exact absurd hp' hp
  | waited hw h => rfl
  | turnedAway hw hd => rw [answerIllegal, answer_writing, fetched_writing]
  | ran hw hb hd h => rw [executes_writing h hp, fetched_writing]

theorem takesTurn_bus_port {q : Port} {s u : State} (h : TakesTurn .bus s u) (hq : q ≠ .bus) :
    u.port q = s.port q := by
  cases h with
  | iterated hp hw h => cases hp
  | waited hw h => rfl
  | turnedAway hw hd =>
    rw [answerIllegal_eq, fetched_activePort, respondOn_port_other _ _ hq, fetched_port_other _ _ hq]
  | ran hw hb hd h => rw [executes_bus_port h rfl hq, fetched_port_other _ _ hq]

/-! ### One step -/

/-- Two states with the same ring buffer. -/
structure SameRing (s t : State) : Prop where
  capacity : t.capacity = s.capacity
  storage : t.storage = s.storage
  readCursor : t.readCursor = s.readCursor
  writeCursor : t.writeCursor = s.writeCursor
  occupancy : t.occupancy = s.occupancy

theorem SameRing.refl (s : State) : SameRing s s := ⟨rfl, rfl, rfl, rfl, rfl⟩

theorem SameRing.trans {s t u : State} (h : SameRing s t) (h' : SameRing t u) : SameRing s u :=
  ⟨h'.capacity.trans h.capacity, h'.storage.trans h.storage, h'.readCursor.trans h.readCursor,
    h'.writeCursor.trans h.writeCursor, h'.occupancy.trans h.occupancy⟩

theorem SameRing.symm {s t : State} (h : SameRing s t) : SameRing t s :=
  ⟨h.capacity.symm, h.storage.symm, h.readCursor.symm, h.writeCursor.symm, h.occupancy.symm⟩

theorem SameRing.queue {s t : State} (h : SameRing s t) : queue t = queue s :=
  queue_congr h.capacity h.storage h.readCursor h.occupancy

/-- Two states that differ only in the schedule: the script, the free choices, the running port and the lifetime. -/
structure SameMachine (s t : State) : Prop extends SameRing s t where
  writing : t.writing = s.writing
  wiring : t.wiring = s.wiring
  port : ∀ p, t.port p = s.port p

theorem SameMachine.refl (s : State) : SameMachine s s := ⟨.refl s, rfl, rfl, fun _ => rfl⟩

theorem withScript_sameMachine (s : State) (events : List Event) : SameMachine s (s.withScript events) :=
  ⟨⟨rfl, rfl, rfl, rfl, rfl⟩, rfl, rfl, withScript_port s events⟩

theorem choiceTaken_sameMachine (s : State) : SameMachine s s.choiceTaken :=
  ⟨⟨rfl, rfl, rfl, rfl, rfl⟩, rfl, rfl, choiceTaken_port s⟩

theorem SameMachine.reached {s t : State} (h : SameMachine s t) (p : Port) :
    Machine.reached t p = Machine.reached s p := reached_congr h.wiring p

/-- Everything a step that has a next state does: wait or shut down, a turn of a port, or an arrival at one. -/
inductive Steps (s : State) : State → Prop where
  | waited {t : State} (h : SameMachine s t) : Steps s t
  | turned {p : Port} {r u : State} (hr : SameMachine s r) (hp : reached s p = true) (h : TakesTurn p r u) :
    Steps s (settled p u)
  | arrived {p : Port} {r : State} (bytes : List Byte) (hr : SameMachine s r) (hp : reached s p = true) :
    Steps s (settled p (arriveAt p bytes r))

theorem steps_of_takeTurn {p : Port} {s r t : State} (hr : SameMachine s r) (hp : reached s p = true)
    (h : takeTurn p r = .next t) : Steps s t := by
  obtain ⟨u, hu, rfl⟩ := takeTurn_eq_next.1 h
  exact .turned hr hp (takesTurn_of_runTurn hu)

theorem mem_readyPorts_iff {p : Port} {s : State} : p ∈ readyPorts s ↔ portReady s p = true := by
  cases p <;> simp [readyPorts]

theorem reached_of_portReady {p : Port} {s : State} (h : portReady s p = true) : reached s p = true := by
  simp only [portReady, commandInProgress, Bool.and_eq_true] at h
  obtain ⟨⟨hr, -⟩, -⟩ := h
  exact hr

theorem steps_of_step {s t : State} (h : step s = .next t) : Steps s t := by
  rcases step_cases h with ⟨-, he⟩ | ⟨-, -, hu⟩ | ⟨e, events, -, -, hu⟩
  · cases he
  · rcases undirectedStep_cases hu with ⟨-, he⟩ | ⟨p, hr, he⟩ | ⟨p, -, hr, he⟩
    · cases he
      exact .waited (.refl s)
    · have hp : p ∈ readyPorts s := by rw [hr]; exact List.mem_singleton_self p
      exact steps_of_takeTurn (.refl s) (reached_of_portReady (mem_readyPorts_iff.1 hp)) he
    · exact steps_of_takeTurn (choiceTaken_sameMachine s) (reached_of_portReady (mem_readyPorts_iff.1 hr)) he
  · have hs := withScript_sameMachine s events
    rcases runEvent_cases hu with ⟨p, -, hp, he⟩ | ⟨p, bytes, -, hp, he⟩ | ⟨_, -, -, he⟩ | ⟨-, -, he⟩ | ⟨-, -, he⟩
    · exact steps_of_takeTurn hs hp he
    · cases he
      exact .arrived bytes hs hp
    · cases he
    · cases he
      exact .waited ⟨⟨rfl, rfl, rfl, rfl, rfl⟩, rfl, rfl, fun p => by cases p <;> rfl⟩
    · cases he

/-- A step that the script gives to a port. -/
theorem takesTurn_of_step {p : Port} {s t : State} {events : List Event} (hs : s.script = .turn p :: events)
    (h : step s = .next t) : ∃ u, TakesTurn p (s.withScript events) u ∧ t = settled p u := by
  rcases step_cases h with ⟨-, he⟩ | ⟨-, hs', -⟩ | ⟨e, events', ha, hs', he⟩
  · cases he
  · rw [hs] at hs'
    cases hs'
  · rw [hs] at hs'
    cases hs'
    rcases runEvent_cases he with ⟨p', hp', -, he⟩ | ⟨_, _, hp', -⟩ | ⟨_, -, -, he⟩ | ⟨hp', -⟩ | ⟨hp', -⟩
    · cases hp'
      obtain ⟨u, hu, rfl⟩ := takeTurn_eq_next.1 he
      exact ⟨u, takesTurn_of_runTurn hu, rfl⟩
    · cases hp'
    · cases he
    · cases hp'
    · cases hp'

/-! ### A turn of a port whose next command is illegal, incomplete or whole (30_encoding.md R80, R85, R86) -/

theorem heldBack_withScript (p : Port) (s : State) (events : List Event) :
    heldBack p (s.withScript events) = heldBack p s := by
  cases p <;> rfl

/-- What is decoded is held back only where it is a TRYWR on port `I` with a WRITE in progress. -/
theorem heldBack_of_command {p : Port} {s : State} {i : Instr} {rest : List Byte}
    (hd : decode (s.port p).inward = .command i rest) (h : ∀ seq, i = .tryWr seq → p = .bus → s.writing = none) :
    heldBack p s = false := by
  rw [Bool.eq_false_iff, Ne, heldBack_iff]
  rintro ⟨rfl, hsome, seq, more, he⟩
  rw [hd] at he
  cases he
  rw [h seq rfl rfl] at hsome
  cases hsome

/-- What `fetched` leaves of everything but the port's waiting bytes and the running port. -/
theorem fetched_frame (p : Port) (rest : List Byte) (s : State) :
    (fetched p rest s).activePort = p ∧ ((fetched p rest s).port p).inward = rest ∧
    ((fetched p rest s).port p).outward = (s.port p).outward ∧
    (∀ q, q ≠ p → (fetched p rest s).port q = s.port q) ∧
    SameRegisters s (fetched p rest s) ∧ SameBytes s (fetched p rest s) ∧ (fetched p rest s).writing = s.writing ∧
    (fetched p rest s).alive = s.alive ∧ (fetched p rest s).capacity = s.capacity ∧
    (fetched p rest s).wiring = s.wiring ∧ (fetched p rest s).script = s.script ∧
    (fetched p rest s).freeChoices = s.freeChoices :=
  ⟨rfl, by simp [fetched_port], by simp, fun q => fetched_port_other rest s, by simp [SameRegisters], fun a => by simp,
    by simp, by simp, by simp, by simp, by simp, by simp⟩

/-- Settles O7: the turn decodes, and nothing holds the command back. -/
theorem stepRunsTheDecodedInstruction : Obligations.StepRunsTheDecodedInstruction := by
  intro s p events i rest ha hs hr hw hd hfree
  have hrun : runTurn p (s.withScript events) = exec i (fetched p rest (s.withScript events)) :=
    runTurn_command hw (by rw [heldBack_withScript]; exact heldBack_of_command hd hfree) (by simpa using hd)
  have hstep : step s = settleOutcome p (exec i (fetched p rest (s.withScript events))) := by
    rw [step_turn ha hs hr, takeTurn, hrun]
  refine ⟨hstep, fun u hu => ⟨settled p u, by rw [hstep, hu, settleOutcome_next], settled_leaves p u⟩, ?_⟩
  simpa [SameRegisters, SameBytes] using fetched_frame p rest (s.withScript events)

/-- The turn of a port whose next command is illegal: both kinds of it are answered alike. -/
theorem runTurn_illegal {p : Port} {s : State} {rest : List Byte} (hw : p = .producer → s.writing = none)
    (h : (∃ opcode, opcode ∉ assignedOpcodes ∧ (s.port p).inward = opcode :: rest) ∨
      ∃ i : Instr, i.wellFormed = true ∧ admits p i = false ∧ (s.port p).inward = encode i ++ rest) :
    runTurn p s = .next (answerIllegal (fetched p rest s)) := by
  rcases h with ⟨opcode, hop, hin⟩ | ⟨i, hi, ha, hin⟩
  · exact runTurn_reserved hw (decode_eq_reserved_iff.2 ⟨hop, hin⟩)
  · have hd := decode_eq_command_iff.2 ⟨hi, hin⟩
    have hb : heldBack p s = false := by
      refine heldBack_of_command hd fun seq hseq hbus => ?_
      subst hseq hbus
      cases ha
    rw [runTurn_command hw hb hd, exec_of_not_admits ha]

/-- Settles O4: a turn that answers IllegalCommand on the fetched state. -/
theorem illegalCommandsAreConsumedAndAnswered : Obligations.IllegalCommandsAreConsumedAndAnswered := by
  refine ⟨rfl, fun s p events rest ha hs hr hw hcmd => ?_⟩
  have hrun : runTurn p (s.withScript events) = .next (answerIllegal (fetched p rest (s.withScript events))) :=
    runTurn_illegal hw (by rw [withScript_port]; exact hcmd)
  refine ⟨_, _, (step_turn ha hs hr).trans (takeTurn_of_runTurn hrun), settled_leaves p _, ?_⟩
  rw [answerIllegal_eq, fetched_activePort]
  refine ⟨by simp [SameRegisters], fun a => by simp, by simp, by simp, by simp, by simp, by simp, by simp,
    by simp [fetched_port], by simp, fun q hq => ?_⟩
  rw [respondOn_port_other _ _ hq, fetched_port_other _ _ hq, withScript_port]

/-- A port with no whole command has no empty WRITE to answer. -/
theorem settled_of_incomplete {p : Port} {s : State} (h : decode (s.port p).inward = .incomplete) :
    settled p s = s := by
  cases p with
  | producer => exact settled_of_no_empty_write fun rest => by rw [h]; nofun
  | consumer => rfl
  | bus => rfl

theorem step_turn_incomplete {s : State} {p : Port} {events : List Event} (ha : s.alive = true)
    (hs : s.script = .turn p :: events) (hr : reached s p = true) (hw : p = .producer → s.writing = none)
    (hd : decode (s.port p).inward = .incomplete) : step s = .next (s.withScript events) := by
  have hd' : decode ((s.withScript events).port p).inward = .incomplete := by simpa using hd
  have hrun := runTurn_incomplete (s := s.withScript events) hw hd'
  rw [step_turn ha hs hr, takeTurn_of_runTurn hrun, settled_of_incomplete hd']

/-- Settles O6: the decoder on a proper first part, and a turn that decodes nothing. -/
theorem incompleteCommandWaits : Obligations.IncompleteCommandWaits :=
  ⟨fun _ _ => decode_take_encode, fun _ _ _ => step_turn_incomplete⟩

/-- Settles O33: the turn is the iteration. -/
theorem writeGoesOnByIterations : Obligations.WriteGoesOnByIterations := by
  intro s w events ha hs hr hw
  have hrun : runTurn .producer (s.withScript events) = _ := runTurn_write hw
  exact ⟨_, _, (step_turn ha hs hr).trans (takeTurn_of_runTurn hrun), settled_leaves .producer _,
    writeIteration_effect w _⟩

/-! ### The host's word (30_encoding.md section 6; log 11) -/

theorem decodeTableWord_eq_some {nbits w : Nat} {i : Instr} (h : decodeTableWord nbits w = some i) :
    ∃ rest, decode (tableWordBytes nbits w) = .command i rest := by
  unfold decodeTableWord at h
  split at h
  · next j rest hd => cases h; exact ⟨rest, hd⟩
  · cases h
  · cases h

/-- The word cut to the command's length is the encoding of what it decodes to. -/
theorem tableCommand_eq_encode {nbits w : Nat} {i : Instr} {rest : List Byte}
    (h : decode (tableWordBytes nbits w) = .command i rest) :
    i.wellFormed = true ∧ tableCommand nbits w = encode i := by
  obtain ⟨hi, hb⟩ := decode_eq_command_iff.1 h
  refine ⟨hi, ?_⟩
  rw [tableCommand, hb, commandLength_encode_append hi, Option.getD_some, List.take_left]

theorem admits_portFor_encode {i : Instr} (h : i.wellFormed = true) : admits (portFor (encode i)) i = true := by
  rw [portFor, decode_encode h]
  cases i <;> rfl

/-- The configuration of a state that a word was placed in. -/
def wordWiring (p : Port) (s : State) : Wiring := if reached s p then s.wiring else .everyPort

theorem reaches_wordWiring (p : Port) (s : State) : reaches (wordWiring p s) p = true := by
  unfold wordWiring
  split
  · next h => exact h
  · rfl

/-- The state in which the command of a word runs on port `p` (log 11). -/
def wordFetched (p : Port) (s : State) : State :=
  { s with activePort := p, writing := none, alive := true, wiring := wordWiring p s }

/-- A turn that takes the placed command off again finds what stood there before. -/
theorem fetched_withCommand {bytes : List Byte} {p : Port} (hp : portFor bytes = p) (s : State) :
    fetched p (s.port p).inward ((withCommand bytes s).withScript s.script) = wordFetched p s := by
  simp only [withCommand, hp, wordFetched, wordWiring]
  cases p <;> rfl

theorem runTurn_withCommand {i : Instr} (h : i.wellFormed = true) {p : Port} (hp : portFor (encode i) = p) (s : State) :
    runTurn p ((withCommand (encode i) s).withScript s.script) =
      exec i (wordFetched p s) := by
  have hin : (((withCommand (encode i) s).withScript s.script).port p).inward = encode i ++ (s.port p).inward := by
    simp only [withCommand, hp]
    cases p <;> rfl
  have hd := decode_eq_command_iff.2 ⟨h, hin⟩
  rw [← fetched_withCommand hp s]
  exact runTurn_command (fun _ => rfl) (heldBack_eq_false rfl) hd

/-- Settles O8: the placed word is an encoding, and the turn that follows runs it. -/
theorem fetchedWordIsTheNextInstruction : Obligations.FetchedWordIsTheNextInstruction := by
  intro s nbits w i hword
  obtain ⟨rest, hd⟩ := decodeTableWord_eq_some hword
  obtain ⟨hi, hcmd⟩ := tableCommand_eq_encode hd
  have hstep : step (s.withFetchWord nbits w) =
      settleOutcome (portFor (encode i)) (exec i (wordFetched (portFor (encode i)) s)) := by
    rw [State.withFetchWord, hcmd, ← runTurn_withCommand hi rfl s]
    exact step_turn rfl rfl (reaches_wordWiring _ s)
  refine ⟨portFor (encode i), wordWiring (portFor (encode i)) s, admits_portFor_encode hi, reaches_wordWiring _ s,
    fun h => if_pos h, hstep, fun u hu => ⟨_, ?_, settled_leaves _ u⟩⟩
  rw [hstep, wordFetched, hu, settleOutcome_next]

/-! ### The schedule (60_exceptions.md R199; 70_reset_and_hazards.md R223, R235) -/

/-- A scripted turn of a port, from an empty script and any count of free choices. -/
theorem step_freeChoices_turn {s : State} {p : Port} (k : Nat) (ha : s.alive = true) (hs : s.script = [])
    (hp : portReady s p = true) :
    step ({ s with freeChoices := k }.withScript [.turn p]) = takeTurn p { s with freeChoices := k } := by
  have hsame : ({ s with freeChoices := k }.withScript [.turn p]).withScript [] = { s with freeChoices := k } := by
    rw [← hs]
    rfl
  have hstep := step_turn (s := ({ s with freeChoices := k } : State).withScript [.turn p]) ha rfl
    (reached_of_portReady hp)
  rw [hstep, hsame]

/-- Settles O53: of one ready port its turn, of several the turn of the one chosen. -/
theorem undirectedStepIsSomePortsTurn : Obligations.UndirectedStepIsSomePortsTurn := by
  intro s ha hs hne
  have hstep : step s = undirectedStep s := by simp [step, ha, hs]
  rcases undirectedStep_cases (rfl : undirectedStep s = _) with ⟨hnil, -⟩ | ⟨p, hr, he⟩ | ⟨p, -, hr, he⟩
  · exact absurd hnil hne
  · have hp := mem_readyPorts_iff.1 (hr ▸ List.mem_singleton_self p)
    exact ⟨p, s.freeChoices, hp, by rw [hstep, ← he, step_freeChoices_turn _ ha hs hp]⟩
  · have hp := mem_readyPorts_iff.1 hr
    exact ⟨p, s.freeChoices + 1, hp, by rw [hstep, ← he, step_freeChoices_turn _ ha hs hp, State.choiceTaken]⟩

theorem commandWaiting_eq_false_iff {s : State} {p : Port} :
    commandWaiting s p = false ↔ decode (s.port p).inward = .incomplete := by
  unfold commandWaiting
  split <;> simp_all

theorem commandInProgress_eq_false_iff {s : State} {p : Port} : commandInProgress s p = false ↔
    (reached s p = true → decode (s.port p).inward = .incomplete ∧ (p = .producer → s.writing = none)) := by
  rw [← commandWaiting_eq_false_iff]
  cases hr : reached s p <;> cases hw : s.writing <;> simp [commandInProgress, hr, hw]

theorem quiescent_iff {s : State} : quiescent s = true ↔ ∀ p, commandInProgress s p = false := by
  simp only [quiescent, Bool.and_eq_true, Bool.not_eq_true']
  exact ⟨fun ⟨⟨hP, hC⟩, hI⟩ p => by cases p <;> assumption, fun h => ⟨⟨h _, h _⟩, h _⟩⟩

theorem readyPorts_of_quiescent {s : State} (h : quiescent s = true) : readyPorts s = [] := by
  refine List.eq_nil_iff_forall_not_mem.2 fun p hp => ?_
  have hready := mem_readyPorts_iff.1 hp
  rw [portReady, quiescent_iff.1 h p, Bool.false_and] at hready
  cases hready

/-- Settles O54: no command in progress on any port, so no port can step. -/
theorem quiescentMachineWaits : Obligations.QuiescentMachineWaits := by
  refine ⟨fun s => quiescent_iff.trans (forall_congr' fun p => commandInProgress_eq_false_iff), fun s ha hs hq => ?_⟩
  simp [step, ha, hs, undirectedStep, readyPorts_of_quiescent hq]

theorem step_arrive {s : State} {p : Port} {bytes : List Byte} {events : List Event} (ha : s.alive = true)
    (hs : s.script = .arrive p bytes :: events) (hr : reached s p = true) :
    step s = .next (settled p (arriveAt p bytes (s.withScript events))) := by
  rw [step_event ha hs, runEvent, reached_withScript, if_pos hr]

/-- Settles O55: the arrival, and the empty WRITEs that `settled` answers. -/
theorem arrivalAppendsToItsPort : Obligations.ArrivalAppendsToItsPort := by
  intro s p bytes events ha hs hr
  refine ⟨arriveAt p bytes (s.withScript events), _, step_arrive ha hs hr, settled_leaves p _, by simp [arriveAt_port],
    by simp, fun q hq => ?_, by simp [SameRegisters], fun a => by simp, by simp, by simpa using ha, by simp, by simp,
    by simp, by simp, by simp⟩
  rw [arriveAt_port, if_neg hq, withScript_port]

theorem quiescent_withScript (s : State) (events : List Event) : quiescent (s.withScript events) = quiescent s := rfl

/-- Settles O56: the shutdown event by quiescence, and every step after it. -/
theorem shutdownEndsTheRun : Obligations.ShutdownEndsTheRun := by
  refine ⟨fun s events ha hs hq => ?_, fun s events ha hs hq => ?_, fun s ha => by simp [step, ha]⟩
  · rw [step_event ha hs, runEvent, quiescent_withScript, if_pos hq]
    rfl
  · rw [step_event ha hs, runEvent, quiescent_withScript, hq]
    rfl

/-! ### No second producer (60_exceptions.md R204; log 7) -/

theorem step_ne_refused_secondProducer (s : State) : step s ≠ .refused .secondProducer := by
  intro h
  rcases step_cases h with ⟨-, he⟩ | ⟨-, -, hu⟩ | ⟨e, events, -, -, hu⟩
  · cases he
  · rcases undirectedStep_cases hu with ⟨-, he⟩ | ⟨p, -, he⟩ | ⟨p, -, -, he⟩
    · cases he
    · exact takeTurn_ne_refused _ _ _ he
    · exact takeTurn_ne_refused _ _ _ he
  · rcases runEvent_cases hu with ⟨p, -, -, he⟩ | ⟨_, _, -, -, he⟩ | ⟨_, -, -, he⟩ | ⟨-, -, he⟩ | ⟨-, -, he⟩
    · exact takeTurn_ne_refused _ _ _ he
    all_goals cases he

theorem step_turn_heldBack {s : State} {p : Port} {events : List Event} (ha : s.alive = true)
    (hs : s.script = .turn p :: events) (hr : reached s p = true) (hb : heldBack p s = true) :
    step s = .next (s.withScript events) := by
  obtain ⟨hp, -, -⟩ := heldBack_iff.1 hb
  rw [step_turn ha hs hr, takeTurn_of_runTurn (runTurn_heldBack (by rwa [heldBack_withScript])), hp, settled_bus]

theorem step_unreached {s : State} {p : Port} {events : List Event} (ha : s.alive = true) (hr : reached s p = false)
    (hs : s.script = .turn p :: events ∨ ∃ bytes, s.script = .arrive p bytes :: events) :
    step s = .refused .unreachedPort := by
  rcases hs with hs | ⟨bytes, hs⟩ <;> rw [step_event ha hs, runEvent, reached_withScript, hr] <;> rfl

theorem steps_wiring {s t : State} (h : Steps s t) : t.wiring = s.wiring := by
  cases h with
  | waited h => exact h.wiring
  | turned hr hp h => rw [settled_wiring, takesTurn_wiring h, hr.wiring]
  | arrived bytes hr hp => rw [settled_wiring, arriveAt_wiring, hr.wiring]

theorem steps_capacity {s t : State} (h : Steps s t) : t.capacity = s.capacity := by
  cases h with
  | waited h => exact h.capacity
  | turned hr hp h => rw [settled_capacity, takesTurn_capacity h, hr.capacity]
  | arrived bytes hr hp => rw [settled_capacity, arriveAt_capacity, hr.capacity]

theorem arriveAt_port_other {p q : Port} (bytes : List Byte) (s : State) (h : q ≠ p) :
    (arriveAt p bytes s).port q = s.port q := by
  rw [arriveAt_port, if_neg h]

theorem ne_of_reached {s : State} {p q : Port} (hp : reached s p = true) (hq : reached s q = false) : q ≠ p := by
  rintro rfl
  rw [hp] at hq
  cases hq

/-- No byte comes to, or goes from, a port the outside does not reach. -/
theorem steps_inward_unreached {s t : State} {q : Port} (h : Steps s t) (hq : reached s q = false) :
    (t.port q).inward = (s.port q).inward := by
  cases h with
  | waited h => rw [h.port]
  | turned hr hp h =>
    have hne := ne_of_reached hp hq
    rw [settled_port_other _ hne, takesTurn_inward_other h hne, hr.port]
  | arrived bytes hr hp =>
    have hne := ne_of_reached hp hq
    rw [settled_port_other _ hne, arriveAt_port_other _ _ hne, hr.port]

/-- In the ring buffer alone every event is one of port `I`. -/
theorem steps_ringAlone {s t : State} (h : Steps s t) (hw : s.wiring = .ringAlone) :
    t.port .producer = s.port .producer ∧ t.port .consumer = s.port .consumer ∧ t.writing = s.writing := by
  have hbus : ∀ p, reached s p = true → p = .bus := fun p hp => by
    rw [reached, hw] at hp
    exact (reaches_ringAlone_iff p).1 hp
  cases h with
  | waited h => exact ⟨h.port _, h.port _, h.writing⟩
  | turned hr hp h =>
    cases hbus _ hp
    rw [settled_bus, takesTurn_bus_port h (by decide), takesTurn_bus_port h (by decide),
      takesTurn_writing h (by decide), hr.writing, hr.port, hr.port]
    exact ⟨rfl, rfl, rfl⟩
  | arrived bytes hr hp =>
    cases hbus _ hp
    rw [settled_bus, arriveAt_port_other _ _ (by decide), arriveAt_port_other _ _ (by decide), arriveAt_writing,
      hr.writing, hr.port, hr.port]
    exact ⟨rfl, rfl, rfl⟩

/-- Settles O57: every turn has a next state, so no step is refused for a second producer; the frame by the inversion of
a step. -/
theorem secondProducerIsRefused : Obligations.SecondProducerIsRefused := by
  refine ⟨fun input s w hp hw => exec_write_refused input hp hw, step_ne_refused_secondProducer,
    fun s seq rest events ha hs hr hw hd => step_turn_heldBack ha hs hr (heldBack_iff.2 ⟨rfl, hw, seq, rest, hd⟩),
    fun s p events => step_unreached, fun s t h => ?_⟩
  have hsteps := steps_of_step h
  refine ⟨steps_wiring hsteps, fun hw => ?_, steps_ringAlone hsteps⟩
  exact steps_inward_unreached (q := .bus) hsteps (by rw [reached, hw]; rfl)

end Sys2Proof.Machine
end

section
/-! What a step does to the ring buffer and to what the outside sees of it: which agent moves what (10_state.md R30),
what enters and leaves `Q` (42_encoder_service.md R163, 20_memory.md R57), and that a command on a free port is accepted
(42_encoder_service.md R167). -/

namespace Sys2Proof.Machine

/-! ### The ring operation of a turn -/

/-- The ring operations a turn of a port can come to: a WRITE's TRYWR of one character's sequence, a READ's RBRD, and on
port `I` an RBRD or the TRYWR that waits there. -/
inductive TurnOp (s : State) : Port → RingOp → Prop where
  | character {c : Byte} (hc : supported c = true) : TurnOp s .producer (.tryWr (sequenceFor c))
  | read (m : Nat) : TurnOp s .consumer (.rbRd m)
  | busRead (m : Nat) : TurnOp s .bus (.rbRd m)
  | busWrite {seq rest : List Byte} (hd : decode (s.port .bus).inward = .command (.tryWr seq) rest) :
    TurnOp s .bus (.tryWr seq)

theorem respondOn_sameRing (p : Port) (r : Response) (s : State) : SameRing s (respondOn p r s) :=
  ⟨by simp, by simp, by simp, by simp, by simp⟩

theorem finishWrite_sameRing (n : Nat) (s : State) : SameRing s (finishWrite n s) :=
  ⟨by simp, by simp, by simp, by simp, by simp⟩

theorem continueWrite_sameRing (input : List Byte) (i : Nat) (s : State) : SameRing s (continueWrite input i s) :=
  ⟨by simp, by simp, by simp, by simp, by simp⟩

theorem fetched_sameRing (p : Port) (rest : List Byte) (s : State) : SameRing s (fetched p rest s) :=
  ⟨by simp, by simp, by simp, by simp, by simp⟩

theorem settled_sameRing (p : Port) (s : State) : SameRing s (settled p s) :=
  ⟨by simp, by simp, by simp, by simp, by simp⟩

theorem arriveAt_sameRing (p : Port) (bytes : List Byte) (s : State) : SameRing s (arriveAt p bytes s) :=
  ⟨by simp, by simp, by simp, by simp, by simp⟩

theorem busTryWr_sameRing (seq : List Byte) (s : State) : SameRing (afterRingOp (.tryWr seq) s) (busTryWr seq s).2 := by
  rw [busTryWr_snd_eq_respondOn]
  exact respondOn_sameRing _ _ _

theorem busRbRd_sameRing (m : Nat) (s : State) : SameRing (afterRingOp (.rbRd m) s) (busRbRd m s).2 := by
  rw [busRbRd_snd_eq_respondOn]
  exact respondOn_sameRing _ _ _

theorem SameRing.freeCapacity {s t : State} (h : SameRing s t) : freeCapacity t = freeCapacity s := by
  simp only [Machine.freeCapacity, h.capacity, h.occupancy]

theorem SameRing.readCount {s t : State} (h : SameRing s t) (m : Nat) : readCount m t = readCount m s := by
  simp only [Machine.readCount, h.occupancy, h.capacity, h.readCursor]

theorem SameRing.admitBytes {s t : State} (h : SameRing s t) (seq : List Byte) :
    SameRing (admitBytes seq s) (admitBytes seq t) :=
  ⟨h.capacity, by simp [h.capacity, h.storage, h.writeCursor], h.readCursor, by simp [h.capacity, h.writeCursor],
    by simp [h.occupancy]⟩

theorem SameRing.consume {s t : State} (h : SameRing s t) (k : Nat) : SameRing (consume k s) (consume k t) :=
  ⟨h.capacity, h.storage, by simp [h.capacity, h.readCursor], h.writeCursor, by simp [h.occupancy]⟩

/-- A ring operation reads and writes the ring buffer alone. -/
theorem SameRing.afterRingOp {s t : State} (h : SameRing s t) (o : RingOp) :
    SameRing (afterRingOp o s) (afterRingOp o t) := by
  cases o with
  | tryWr seq =>
    rcases tryWrite_cases seq s with ⟨hfit, e⟩ | ⟨hlong, e⟩
    · simp only [Machine.afterRingOp, e, tryWrite_fits (hfit.trans_eq h.freeCapacity.symm)]
      exact h.admitBytes seq
    · simp only [Machine.afterRingOp, e, tryWrite_rejected (h.freeCapacity.trans_lt hlong)]
      exact h
  | rbRd m =>
    simp only [Machine.afterRingOp, ringRead_snd, h.readCount]
    exact h.consume _

/-- An iteration of a WRITE leaves the ring buffer, or does the TRYWR of one character. -/
theorem iterates_ring {w : WriteProgress} {s t : State} (h : Iterates w s t) :
    SameRing s t ∨ ∃ c, supported c = true ∧ SameRing (afterRingOp (.tryWr (sequenceFor c)) s) t := by
  cases h with
  | exhausted h => exact .inl (finishWrite_sameRing _ s)
  | skipped h hc => exact .inl (continueWrite_sameRing _ _ s)
  | admitted h hc hfit =>
    refine .inr ⟨_, hc, ?_⟩
    rw [afterRingOp, tryWrite_fits hfit]
    exact (respondOn_sameRing _ _ _).trans (continueWrite_sameRing _ _ _)
  | rejected h hc hlong => exact .inl ((respondOn_sameRing _ _ s).trans (finishWrite_sameRing _ _))

/-- An operation leaves the ring buffer, or is one of the ring operations of its port. -/
theorem executes_ring {i : Instr} {s t : State} (h : Executes s i t) :
    SameRing s t ∨ (s.activePort = .producer ∧
      ∃ c, supported c = true ∧ SameRing (afterRingOp (.tryWr (sequenceFor c)) s) t) ∨
    (s.activePort ≠ .producer ∧ ∃ m, SameRing (afterRingOp (.rbRd m) s) t) ∨
    (s.activePort = .bus ∧ ∃ seq, i = .tryWr seq ∧ SameRing (afterRingOp (.tryWr seq) s) t) := by
  cases h with
  | illegal h => exact .inl (respondOn_sameRing _ _ s)
  | opened h => exact .inl (respondOn_sameRing _ _ s)
  | closed h => exact .inl (respondOn_sameRing _ _ s)
  | translated c hp => exact .inl (respondOn_sameRing _ _ s)
  | began input hp hw => exact (iterates_ring (writeIteration_iterates _ s)).imp_right fun h => .inl ⟨hp, h⟩
  | delivered m hp =>
    exact .inr (.inr (.inl ⟨by simp [hp], m, (busRbRd_sameRing m s).trans (respondOn_sameRing _ _ _)⟩))
  | tried seq hp => exact .inr (.inr (.inr ⟨hp, seq, rfl, busTryWr_sameRing seq s⟩))
  | returned m hp => exact .inr (.inr (.inl ⟨by simp [hp], m, busRbRd_sameRing m s⟩))

/-- A turn leaves the ring buffer, or does one ring operation. -/
theorem takesTurn_ring {p : Port} {s u : State} (h : TakesTurn p s u) :
    SameRing s u ∨ ∃ o, TurnOp s p o ∧ SameRing (afterRingOp o s) u := by
  cases h with
  | iterated hp hw h =>
    subst hp
    exact (iterates_ring h).imp (fun h => ⟨h.1, h.2, h.3, h.4, h.5⟩) fun ⟨c, hc, h⟩ => ⟨_, .character hc,
      ((show SameRing s (s.withActivePort .producer) from ⟨rfl, rfl, rfl, rfl, rfl⟩).afterRingOp _).trans h⟩
  | waited hw h => exact .inl (.refl s)
  | turnedAway hw hd => exact .inl ((fetched_sameRing _ _ s).trans (respondOn_sameRing _ _ _))
  | @ran i rest u hw hb hd h =>
    have hf := fetched_sameRing p rest s
    rcases executes_ring h with h | ⟨hp, c, hc, h⟩ | ⟨hp, m, h⟩ | ⟨hp, seq, rfl, h'⟩
    · exact .inl (hf.trans h)
    · cases hp
      exact .inr ⟨_, .character hc, (hf.afterRingOp _).trans h⟩
    · refine .inr ⟨.rbRd m, ?_, (hf.afterRingOp _).trans h⟩
      cases p with
      | producer => exact absurd rfl hp
      | consumer => exact .read m
      | bus => exact .busRead m
    · cases hp
      exact .inr ⟨_, .busWrite hd, (hf.afterRingOp _).trans h'⟩

theorem SameMachine.turnOp {s r : State} (h : SameMachine s r) {p : Port} {o : RingOp} (ho : TurnOp r p o) :
    TurnOp s p o := by
  cases ho with
  | character hc => exact .character hc
  | read m => exact .read m
  | busRead m => exact .busRead m
  | busWrite hd => exact .busWrite (by rwa [← h.port])

theorem steps_ring {s t : State} (h : Steps s t) :
    SameRing s t ∨ ∃ p o, TurnOp s p o ∧ SameRing (afterRingOp o s) t := by
  cases h with
  | waited h => exact .inl h.toSameRing
  | turned hr hp h =>
    rcases takesTurn_ring h with h | ⟨o, ho, h⟩
    · exact .inl ((hr.toSameRing.trans h).trans (settled_sameRing _ _))
    · exact .inr ⟨_, o, hr.turnOp ho, ((hr.toSameRing.afterRingOp o).trans h).trans (settled_sameRing _ _)⟩
  | arrived bytes hr hp =>
    exact .inl ((hr.toSameRing.trans (arriveAt_sameRing _ _ _)).trans (settled_sameRing _ _))

/-- The ring operation of a step that the script gives to a port. -/
theorem step_turn_ring {p : Port} {s t : State} {events : List Event} (hs : s.script = .turn p :: events)
    (h : step s = .next t) : SameRing s t ∨ ∃ o, TurnOp s p o ∧ SameRing (afterRingOp o s) t := by
  obtain ⟨u, hu, rfl⟩ := takesTurn_of_step hs h
  have hr := withScript_sameMachine s events
  rcases takesTurn_ring hu with h | ⟨o, ho, h⟩
  · exact .inl ((hr.toSameRing.trans h).trans (settled_sameRing _ _))
  · exact .inr ⟨o, hr.turnOp ho, ((hr.toSameRing.afterRingOp o).trans h).trans (settled_sameRing _ _)⟩

/-! ### Each agent's side (10_state.md R30) -/

theorem afterTryWr_side (seq : List Byte) (s : State) :
    (afterRingOp (.tryWr seq) s).readCursor = s.readCursor ∧ s.occupancy ≤ (afterRingOp (.tryWr seq) s).occupancy := by
  rcases tryWrite_cases seq s with ⟨-, e⟩ | ⟨-, e⟩ <;> simp [afterRingOp, e]

theorem afterRbRd_side (m : Nat) (s : State) :
    (afterRingOp (.rbRd m) s).writeCursor = s.writeCursor ∧ (afterRingOp (.rbRd m) s).storage = s.storage ∧
      (afterRingOp (.rbRd m) s).occupancy ≤ s.occupancy := by
  simp [afterRingOp]

/-- Settles O49: the producer's ring operation is a TRYWR, the consumer's an RBRD. -/
theorem eachAgentOwnsItsSide : Obligations.EachAgentOwnsItsSide := by
  refine ⟨fun s t events hs h => ?_, fun s t events hs h => ?_⟩
  · rcases step_turn_ring hs h with h | ⟨o, ho, h⟩
    · exact ⟨h.readCursor, h.occupancy.ge⟩
    · cases ho with | @character c hc =>
      obtain ⟨hrc, hocc⟩ := afterTryWr_side (sequenceFor c) s
      exact ⟨h.readCursor.trans hrc, hocc.trans h.occupancy.ge⟩
  · rcases step_turn_ring hs h with h | ⟨o, ho, h⟩
    · exact ⟨h.writeCursor, fun a => by rw [h.storage], h.occupancy.le⟩
    · cases ho with | read m =>
      obtain ⟨hwc, hst, hocc⟩ := afterRbRd_side m s
      exact ⟨h.writeCursor.trans hwc, fun a => by rw [h.storage, hst], h.occupancy.le.trans hocc⟩

/-! ### What enters and leaves the queue (42_encoder_service.md R163, 20_memory.md R57, R62) -/

theorem queue_afterTryWr {s : State} (seq : List Byte) (hr : RegistersInRange s) (hc : CursorsConsistent s) :
    queue (afterRingOp (.tryWr seq) s) = queue s ∨ queue (afterRingOp (.tryWr seq) s) = queue s ++ seq := by
  rcases tryWrite_cases seq s with ⟨hfit, e⟩ | ⟨-, e⟩ <;> rw [afterRingOp, e]
  · exact .inr (queue_admit hr hc hfit)
  · exact .inl rfl

theorem queue_afterRbRd (m : Nat) (s : State) : queue (afterRingOp (.rbRd m) s) = (queue s).drop (readCount m s) :=
  queue_consume _ s

/-- Settles O50: the producer's ring operation is the TRYWR of one character's sequence. -/
theorem charactersEnterWhole : Obligations.CharactersEnterWhole := by
  intro s t events hinv hs h
  rcases step_turn_ring hs h with h | ⟨o, ho, h⟩
  · exact .inl h.queue
  · cases ho with | @character c hc =>
    rw [h.queue]
    exact (queue_afterTryWr _ hinv.in_range hinv.consistent).imp_right fun hq => ⟨c, hc, hq⟩

/-- `Q` is as before, and at most one response without a payload was added on port `C`. -/
def AnswersNoByte (s u : State) : Prop :=
  queue u = queue s ∧ ∃ added : List Response, added.length ≤ 1 ∧ (∀ r ∈ added, r.payload = []) ∧
    (u.port .consumer).outward = (s.port .consumer).outward ++ added

/-- The first bytes of `Q` were taken from it, and answered on port `C`. -/
def AnswersHead (s u : State) : Prop :=
  ∃ k, k ≤ s.occupancy ∧ queue u = (queue s).drop k ∧
    (u.port .consumer).outward = (s.port .consumer).outward ++ [⟨.ok, k, (queue s).take k⟩]

/-- A fetched command whose whole meaning is an answer without a payload. -/
theorem answersNoByte_respondOn_fetched (rest : List Byte) (s : State) {r : Response} (hr : r.payload = []) :
    AnswersNoByte s (respondOn .consumer r (fetched .consumer rest s)) :=
  ⟨((fetched_sameRing _ rest s).trans (respondOn_sameRing _ r _)).queue, [r], by simp, by simpa using hr, by simp⟩

theorem readAnswer_eq_of_sameRing {s t : State} (m : Nat) (h : SameRing s t) (hrc : s.readCursor < s.capacity) :
    readAnswer m t = ⟨.ok, readCount m s, (queue s).take (readCount m s)⟩ := by
  have hrc' : t.readCursor < t.capacity := by rwa [h.readCursor, h.capacity]
  rw [readAnswer, bytesFromCursor_eq_take m hrc', h.queue, h.readCount]

/-- A fetched READ. -/
theorem answersHead_afterRead_fetched (m : Nat) (rest : List Byte) {s : State} (hrc : s.readCursor < s.capacity) :
    AnswersHead s (afterRead m (fetched .consumer rest s)) := by
  have hf := fetched_sameRing .consumer rest s
  refine ⟨readCount m s, readCount_le_occupancy m s, ?_, ?_⟩
  · rw [afterRead, queue_respondOn, queue_busRbRd, hf.readCount, hf.queue]
  · obtain ⟨-, hout⟩ := afterRead_answered m (fetched .consumer rest s) .consumer
    rw [hout, fetched_outward, readAnswer_eq_of_sameRing m hf hrc]

/-- What a turn of the consumer answers: nothing of `Q`, or the bytes it takes from it. -/
theorem takesTurn_consumer {s u : State} (hr : RegistersInRange s) (h : TakesTurn .consumer s u) :
    AnswersNoByte s u ∨ AnswersHead s u := by
  cases h with
  | iterated hp hw h => cases hp
  | waited hw h => exact .inl ⟨rfl, [], by simp, by simp, by simp⟩
  | turnedAway hw hd => exact .inl (answersNoByte_respondOn_fetched _ s rfl)
  | @ran i rest u hw hb hd h =>
    cases h with
    | illegal h => exact .inl (answersNoByte_respondOn_fetched rest s rfl)
    | opened h => exact .inl (answersNoByte_respondOn_fetched rest s rfl)
    | closed h => exact .inl (answersNoByte_respondOn_fetched rest s rfl)
    | translated c hp => cases hp
    | began input hp hw => cases hp
    | delivered m hp =>
      obtain ⟨hrc, -, -⟩ := hr
      exact .inr (answersHead_afterRead_fetched m rest hrc)
    | tried seq hp => cases hp
    | returned m hp => cases hp

/-- Settles O51: a turn of the consumer answers no empty WRITE, so the turn is all of the step. -/
theorem consumerGetsWhatLeavesTheQueue : Obligations.ConsumerGetsWhatLeavesTheQueue := by
  intro s t events hinv hs h
  obtain ⟨u, hu, rfl⟩ := takesTurn_of_step hs h
  have hscript := withScript_sameMachine s events
  have hturn := takesTurn_consumer (s := s.withScript events) hinv.in_range hu
  rwa [AnswersNoByte, AnswersHead, hscript.queue, hscript.port] at hturn

/-! ### Nothing blocks (41_ring_buffer.md R142; 42_encoder_service.md R167) -/

/-- Until shutdown only an event at an unreached port, or a shutdown, can leave a step without a next state. -/
theorem exists_step {s : State} (ha : s.alive = true)
    (h : s.script = [] ∨ (∃ p events, s.script = .turn p :: events ∧ reached s p = true) ∨
      ∃ p bytes events, s.script = .arrive p bytes :: events ∧ reached s p = true) : ∃ t, step s = .next t := by
  rcases h with hs | ⟨p, events, hs, hr⟩ | ⟨p, bytes, events, hs, hr⟩
  · have hstep : step s = undirectedStep s := by simp [step, ha, hs]
    rw [hstep]
    rcases undirectedStep_cases (rfl : undirectedStep s = _) with ⟨-, he⟩ | ⟨p, -, he⟩ | ⟨p, -, -, he⟩
    · exact ⟨s, he⟩
    · rw [← he]
      exact exists_takeTurn _ _
    · rw [← he]
      exact exists_takeTurn _ _
  · rw [step_turn ha hs hr]
    exact exists_takeTurn _ _
  · exact ⟨_, step_arrive ha hs hr⟩

/-- A WRITE of more bytes goes on after its first, and any other admitted operation is answered, not as illegal. -/
def AcceptedOn (p : Port) (i : Instr) (s t : State) : Prop :=
  (∃ input, i = .write input ∧ t.writing = some ⟨input, 1⟩ ∧ t.port p = s.port p) ∨
    (t.writing = none ∧ ∃ r : Response, r.status ≠ .illegal ∧ (t.port p).outward = (s.port p).outward ++ [r])

theorem acceptedOn_respondOn {p : Port} {i : Instr} {s u : State} {r : Response} (hr : r.status ≠ .illegal)
    (hw : u.writing = none) (hout : (u.port p).outward = (s.port p).outward) :
    AcceptedOn p i s (respondOn p r u) :=
  .inr ⟨by simpa using hw, r, hr, by simp [hout]⟩

theorem xlateAnswer_status (c : Byte) : (xlateAnswer c).status ≠ .illegal := by
  unfold xlateAnswer
  split <;> simp

theorem portStreams_ext {a b : PortStreams} (hin : a.inward = b.inward) (hout : a.outward = b.outward) : a = b := by
  obtain ⟨_, _⟩ := a
  cases hin
  cases hout
  rfl

theorem executes_accepted {i : Instr} {s t : State} (h : Executes s i t) (ha : admits s.activePort i = true)
    (hw : s.writing = none) : AcceptedOn s.activePort i s t := by
  cases h with
  | illegal h => rw [ha] at h; cases h
  | opened h => exact acceptedOn_respondOn (by simp) hw rfl
  | closed h => exact acceptedOn_respondOn (by simp) hw rfl
  | translated c hp =>
    rw [hp]
    exact acceptedOn_respondOn (xlateAnswer_status c) hw rfl
  | began input hp hw =>
    rw [hp]
    obtain ⟨onI, -, ⟨hgo, -, hans⟩ | ⟨n, -, hnone, hans⟩⟩ := iterates_answers (writeIteration_iterates ⟨input, 0⟩ s)
    · obtain ⟨hin, hout⟩ := hans .producer
      exact .inl ⟨input, rfl, hgo, portStreams_ext hin (by simpa using hout)⟩
    · exact .inr ⟨hnone, ⟨if n = 0 then .noProgress else .ok, n, []⟩, by dsimp only; split <;> simp,
        (hans .producer).2⟩
  | delivered m hp =>
    rw [hp]
    exact acceptedOn_respondOn (by simp [readAnswer]) (by simpa using hw) (by rw [busRbRd_port_other _ _ (by decide)])
  | tried seq hp =>
    rw [hp, busTryWr_snd_eq_respondOn]
    obtain ⟨-, hwriting, -⟩ := afterRingOp_frame (.tryWr seq) s
    exact acceptedOn_respondOn (by simp) (hwriting.trans hw) (by rw [afterRingOp_port])
  | returned m hp =>
    rw [hp, busRbRd_snd_eq_respondOn]
    obtain ⟨-, hwriting, -⟩ := afterRingOp_frame (.rbRd m) s
    exact acceptedOn_respondOn (by simp) (hwriting.trans hw) (by rw [afterRingOp_port])

/-- An empty WRITE that stands alone is answered, and nothing waits behind it. -/
theorem settled_of_encode_empty_write {s : State} (hw : s.writing = none)
    (hin : s.portP.inward = encode (.write [])) :
    settled .producer s = finishWrite 0 (s.setPort .producer { s.portP with inward := [] }) := by
  have hd : decode s.portP.inward = .command (.write []) [] := by rw [hin]; rfl
  have hlen : s.portP.inward.length = 2 := by rw [hin]; rfl
  rw [settled, hlen, answerEmptyWrites, hw, hd]
  rfl

theorem arriveAt_inward_of_nil {p : Port} {s : State} (bytes : List Byte) (h : (s.port p).inward = []) :
    ((arriveAt p bytes s).port p).inward = bytes := by
  simp [arriveAt_port, h]

theorem runSteps_two {s u t : State} (h1 : step s = .next u) (h2 : step u = .next t) : runSteps 2 s = .next t := by
  rw [runSteps_succ h1, runSteps_succ h2, runSteps]

/-- The arrival of an empty WRITE at a free port `P` is its answer alone. -/
theorem step_arrive_empty_write {s : State} (events : List Event) (ha : s.alive = true)
    (hr : reached s .producer = true) (hw : s.writing = none) (hin : (s.port .producer).inward = []) :
    step (s.withScript (.arrive .producer (encode (.write [])) :: events)) =
      .next (respondOn .producer ⟨.noProgress, 0, []⟩ (s.withScript events)) := by
  have hstep := step_arrive (s := s.withScript (.arrive .producer (encode (.write [])) :: events)) ha rfl hr
  rw [settled_of_encode_empty_write (by simpa using hw) (arriveAt_inward_of_nil _ (by simpa using hin))] at hstep
  rw [hstep]
  obtain ⟨_, _, _, _, _, _, ⟨_, _⟩, _, _, _, _, _, _, _⟩ := s
  cases hw
  cases hin
  rfl

/-- An empty WRITE is answered by its arrival; the turn then finds nothing. -/
theorem run_empty_write {s : State} (ha : s.alive = true) (hr : reached s .producer = true)
    (hin : (s.port .producer).inward = []) (hw : s.writing = none) :
    ∃ t, runSteps 2 (s.withScript [.arrive .producer (encode (.write [])), .turn .producer]) = .next t ∧
      t.script = [] ∧ t.wiring = s.wiring ∧ (t.port .producer).inward = [] ∧
      AcceptedOn .producer (.write []) s t := by
  have hturn := step_turn_incomplete (s := respondOn .producer ⟨.noProgress, 0, []⟩ (s.withScript [.turn .producer]))
    ha rfl hr (fun _ => hw) (by rw [respondOn_inward, withScript_port, hin]; rfl)
  refine ⟨_, runSteps_two (step_arrive_empty_write _ ha hr hw hin) hturn, rfl, rfl, hin, ?_⟩
  exact .inr ⟨hw, ⟨.noProgress, 0, []⟩, by simp, by simp⟩

theorem withScript_withScript (s : State) (a b : List Event) : (s.withScript a).withScript b = s.withScript b := rfl

/-- Where no empty WRITE stands at port `P`, an arrival is an arrival alone. -/
theorem settled_of_encode {p : Port} {s : State} {i : Instr} (hi : i.wellFormed = true) (hne : i ≠ .write [])
    (hin : (s.port p).inward = encode i) : settled p s = s := by
  cases p with
  | producer =>
    refine settled_of_no_empty_write fun rest h => hne ?_
    rw [hin, decode_encode hi] at h
    exact (Decoded.command.inj h).1
  | consumer => rfl
  | bus => rfl

/-- A turn takes an admitted operation off its stream, and accepts it. -/
theorem step_turn_accepted {s : State} {p : Port} {i : Instr} (ha : s.alive = true) (hs : s.script = [.turn p])
    (hr : reached s p = true) (hi : i.wellFormed = true) (hp : admits p i = true)
    (hin : (s.port p).inward = encode i) (hw : s.writing = none) :
    ∃ t, step s = .next t ∧ t.script = [] ∧ t.wiring = s.wiring ∧ (t.port p).inward = [] ∧
      AcceptedOn p i (fetched p [] (s.withScript [])) t := by
  have hd : decode ((s.withScript []).port p).inward = .command i [] := by
    rw [withScript_port, hin, decode_encode hi]
  obtain ⟨u, hu⟩ := exists_executes_fetched (p := p) (s := s.withScript []) i [] fun _ => hw
  have hrun : runTurn p (s.withScript []) = .next u :=
    (runTurn_command (s := s.withScript []) (fun _ => hw) (heldBack_eq_false hw) hd).trans (exec_eq_next_of_executes hu)
  have hin' : (u.port p).inward = [] := by rw [executes_inward hu p, fetched_port, if_pos rfl]
  obtain ⟨-, -, hwiring, -, hscript, -⟩ := executes_sameSurroundings hu
  have hstep : step s = .next u := by
    rw [step_turn ha hs hr, takeTurn_of_runTurn hrun, settled_of_incomplete (by rw [hin']; rfl)]
  exact ⟨u, hstep, hscript.trans (fetched_script _ _ _), hwiring.trans (fetched_wiring _ _ _), hin',
    executes_accepted hu hp (by simpa using hw)⟩

theorem acceptedOn_congr {p : Port} {i : Instr} {s r t : State} (hport : r.port p = s.port p)
    (h : AcceptedOn p i r t) : AcceptedOn p i s t := by
  rwa [AcceptedOn, ← hport]

/-- Any other operation than an empty WRITE waits for the turn, which runs it. -/
theorem run_command {s : State} {p : Port} {i : Instr} (ha : s.alive = true) (hr : reached s p = true)
    (hi : i.wellFormed = true) (hp : admits p i = true) (hne : i ≠ .write []) (hin : (s.port p).inward = [])
    (hw : s.writing = none) :
    ∃ t, runSteps 2 (s.withScript [.arrive p (encode i), .turn p]) = .next t ∧ t.script = [] ∧ t.wiring = s.wiring ∧
      (t.port p).inward = [] ∧ AcceptedOn p i s t := by
  have hin1 : ((arriveAt p (encode i) (s.withScript [.turn p])).port p).inward = encode i :=
    arriveAt_inward_of_nil _ (by simpa using hin)
  have hfirst := step_arrive (s := s.withScript [.arrive p (encode i), .turn p]) ha rfl hr
  rw [withScript_withScript, settled_of_encode hi hne hin1] at hfirst
  obtain ⟨t, hsecond, hscript, hwiring, hin', hacc⟩ := step_turn_accepted (by simpa using ha) (by simp)
    (by rwa [reached_congr (arriveAt_wiring _ _ _)]) hi hp hin1 (by simpa using hw)
  refine ⟨t, runSteps_two hfirst hsecond, hscript, hwiring.trans (by simp), hin', acceptedOn_congr ?_ hacc⟩
  exact portStreams_ext (by rw [fetched_port, if_pos rfl, hin]) (by simp)

/-- Settles O52: every turn has a next state; an empty WRITE is accepted in its arrival, every other operation in the
turn that follows. -/
theorem noOperationBlocks : Obligations.NoOperationBlocks := by
  refine ⟨fun s => exists_step, fun s i p ha hwiring hi hp hin hw => ?_⟩
  have hr : reached s p = true := by rw [reached, hwiring, reaches_everyPort]
  rw [← hwiring]
  by_cases hne : i = .write []
  · subst hne
    obtain rfl := (admits_write_iff p []).1 hp
    exact run_empty_write ha hr hin hw
  · exact run_command ha hr hi hp hne hin hw

end Sys2Proof.Machine
end

section
/-! The invariants of the machine: every step keeps `Inv` (10_state.md R25, R27; 30_encoding.md R87), and `Q` stays a
suffix of whole sequences (10_state.md R29). -/

namespace Sys2Proof.Machine

/-- Settles O44: nothing is stored, waits, or is answered after reset. -/
theorem invariantHoldsAtReset : Obligations.InvariantHoldsAtReset := ⟨reset_inv, fun w _ => resetWith_inv w⟩

/-! ### The ring buffer's part of the invariant -/

/-- What `Inv` says of the ring buffer. -/
structure RingSound (s : State) : Prop where
  legal : Config.LegalCapacity s.capacity
  storage_wf : Memory.wf s.capacity s.storage = true
  in_range : RegistersInRange s
  consistent : CursorsConsistent s
  written : UnreadBytesWritten s

theorem Inv.ringSound {s : State} (h : Inv s) : RingSound s :=
  ⟨h.legal, h.storage_wf, h.in_range, h.consistent, h.written⟩

theorem SameRing.ringSound {s t : State} (h : SameRing s t) (hs : RingSound s) : RingSound t := by
  have hregs : SameRegisters s t := ⟨h.readCursor, h.writeCursor, h.occupancy⟩
  refine ⟨?_, ?_, registersInRange_congr h.capacity hregs hs.in_range,
    cursorsConsistent_congr h.capacity hregs hs.consistent, fun j hj => ?_⟩
  · rw [h.capacity]
    exact hs.legal
  · rw [h.capacity, h.storage]
    exact hs.storage_wf
  · rw [h.storage, h.readCursor, h.capacity]
    exact hs.written j (hj.trans_eq h.occupancy)

theorem afterRingOp_ringSound {s : State} (o : RingOp) (h : RingSound s) : RingSound (afterRingOp o s) := by
  obtain ⟨hn, -, -⟩ := afterRingOp_frame o s
  obtain ⟨hpos, -, -⟩ := h.legal
  refine ⟨?_, ?_, afterRingOp_registersInRange o h.in_range, afterRingOp_cursorsConsistent o h.consistent,
    afterRingOp_unreadBytesWritten o h.consistent h.written⟩
  · rw [hn]
    exact h.legal
  · rw [hn]
    exact afterRingOp_storage_wf o hpos h.storage_wf

/-- A step leaves the ring buffer or does one ring operation, so it keeps the ring buffer's part. -/
theorem steps_ringSound {s t : State} (h : Steps s t) (hs : RingSound s) : RingSound t := by
  rcases steps_ring h with h | ⟨_, o, -, h⟩
  · exact h.ringSound hs
  · exact h.ringSound (afterRingOp_ringSound o hs)

/-! ### Responses within their encoding (30_encoding.md R87) -/

/-- A response whose count and payload its bytes can carry. -/
def FitsEncoding (r : Response) : Prop := r.count ≤ 255 ∧ (r.payload = [] ∨ r.payload.length = r.count)

theorem fitsEncoding_of_nil {status : Status} {n : Nat} (h : n ≤ 255) : FitsEncoding ⟨status, n, []⟩ :=
  ⟨h, .inl rfl⟩

theorem responsesFit_congr {s t : State} (h : ∀ p, (t.port p).outward = (s.port p).outward) (hs : ResponsesFit s) :
    ResponsesFit t := fun p r hr => hs p r (by rwa [← h p])

theorem responsesFit_respondOn {s : State} {p : Port} {r : Response} (hr : FitsEncoding r) (hs : ResponsesFit s) :
    ResponsesFit (respondOn p r s) := by
  intro q x hx
  by_cases hq : q = p
  · subst hq
    rw [respondOn_port_same] at hx
    rcases List.mem_append.1 hx with hx | hx
    · exact hs q x hx
    · rw [List.mem_singleton.1 hx]
      exact hr
  · rw [respondOn_port_other r s hq] at hx
    exact hs q x hx

theorem responsesFit_finishWrite {s : State} {n : Nat} (hn : n ≤ 255) (hs : ResponsesFit s) :
    ResponsesFit (finishWrite n s) :=
  responsesFit_respondOn (fitsEncoding_of_nil hn) (responsesFit_congr (fun p => by cases p <;> rfl) hs)

theorem responsesFit_continueWrite {s : State} {input : List Byte} {i : Nat} (hi : i ≤ 255) (hs : ResponsesFit s) :
    ResponsesFit (continueWrite input i s) := by
  unfold continueWrite
  split
  · exact responsesFit_congr (fun p => by cases p <;> rfl) hs
  · exact responsesFit_finishWrite hi hs

theorem responsesFit_settled {s : State} (p : Port) (hs : ResponsesFit s) : ResponsesFit (settled p s) := by
  intro q r hr
  rcases mem_settled_outward hr with hr | rfl
  · exact hs q r hr
  · exact fitsEncoding_of_nil (Nat.zero_le _)

/-- An iteration inside an input that a command can carry, or of an empty one. -/
theorem iterates_responsesFit {w : WriteProgress} {s t : State} (hn : s.capacity ≤ 255) (hlen : w.input.length ≤ 255)
    (hcur : w.cursor ≤ w.input.length) (hs : ResponsesFit s) (h : Iterates w s t) : ResponsesFit t := by
  have hnext : ∀ c, w.input[w.cursor]? = some c → w.cursor + 1 ≤ 255 := fun c hc => by
    obtain ⟨hlt, -⟩ := List.getElem?_eq_some_iff.1 hc
    omega
  cases h with
  | exhausted h => exact responsesFit_finishWrite (hcur.trans hlen) hs
  | skipped h hc => exact responsesFit_continueWrite (hnext _ h) hs
  | admitted h hc hfit =>
    refine responsesFit_continueWrite (hnext _ h) (responsesFit_respondOn (fitsEncoding_of_nil ?_) ?_)
    · exact hfit.trans ((Nat.sub_le _ _).trans hn)
    · exact responsesFit_congr (fun p => by rw [admit_port]) hs
  | rejected h hc hlong =>
    exact responsesFit_finishWrite (hcur.trans hlen)
      (responsesFit_respondOn (fitsEncoding_of_nil (Nat.zero_le _)) hs)

theorem fitsEncoding_xlateAnswer (c : Byte) : FitsEncoding (xlateAnswer c) := by
  refine ⟨?_, .inr (payload_length_xlateAnswer c)⟩
  unfold xlateAnswer
  split
  · exact (length_sequenceFor_le c).trans (by decide)
  · exact Nat.zero_le _

theorem fitsEncoding_readAnswer {s : State} (m : Nat) (hocc : s.occupancy ≤ 255) : FitsEncoding (readAnswer m s) :=
  ⟨(readCount_le_occupancy m s).trans hocc, .inr (payload_length_readAnswer m s)⟩

theorem responsesFit_busRbRd {s : State} (m : Nat) (hocc : s.occupancy ≤ 255) (hs : ResponsesFit s) :
    ResponsesFit (busRbRd m s).2 := by
  rw [busRbRd_snd_eq_readAnswer]
  exact responsesFit_respondOn (fitsEncoding_readAnswer m hocc) (responsesFit_congr (fun p => by rw [consume_port]) hs)

theorem responsesFit_busTryWr {s : State} (seq : List Byte) (hn : s.capacity ≤ 255) (hs : ResponsesFit s) :
    ResponsesFit (busTryWr seq s).2 := by
  rcases busTryWr_cases seq s with ⟨hfit, e⟩ | ⟨-, e⟩ <;> rw [e]
  · exact responsesFit_respondOn (fitsEncoding_of_nil (hfit.trans ((Nat.sub_le _ _).trans hn)))
      (responsesFit_congr (fun p => by rw [admit_port]) hs)
  · exact responsesFit_respondOn (fitsEncoding_of_nil (Nat.zero_le _)) hs

theorem executes_responsesFit {i : Instr} {s t : State} (hi : i.wellFormed = true) (hn : s.capacity ≤ 255)
    (hocc : s.occupancy ≤ 255) (hs : ResponsesFit s) (h : Executes s i t) : ResponsesFit t := by
  have hzero : ∀ status : Status, FitsEncoding ⟨status, 0, []⟩ := fun _ => fitsEncoding_of_nil (Nat.zero_le _)
  cases h with
  | illegal h => exact responsesFit_respondOn (hzero .illegal) hs
  | opened h => exact responsesFit_respondOn (hzero .ok) hs
  | closed h => exact responsesFit_respondOn (hzero .ok) hs
  | translated c hp => exact responsesFit_respondOn (fitsEncoding_xlateAnswer c) hs
  | began input hp hw =>
    have hlen : input.length ≤ 255 := (fitsByte_iff _).1 hi
    exact iterates_responsesFit hn hlen (Nat.zero_le _) hs (writeIteration_iterates _ s)
  | delivered m hp =>
    exact responsesFit_respondOn (fitsEncoding_readAnswer m hocc) (responsesFit_busRbRd m hocc hs)
  | tried seq hp => exact responsesFit_busTryWr seq hn hs
  | returned m hp => exact responsesFit_busRbRd m hocc hs

/-! ### The WRITE in progress, and the whole of the ports' part -/

theorem writeInProgressFits_of_none {s : State} (h : s.writing = none) : WriteInProgressFits s := fun w hw => by
  rw [h] at hw
  cases hw

theorem writeInProgressFits_congr {s t : State} (h : t.writing = s.writing) (hs : WriteInProgressFits s) :
    WriteInProgressFits t := fun w hw => hs w (by rwa [← h])

theorem iterates_writeInProgressFits {w : WriteProgress} {s t : State} (hlen : w.input.length ≤ 255)
    (h : Iterates w s t) : WriteInProgressFits t := by
  obtain ⟨_, -, ⟨hgo, hlt, -⟩ | ⟨_, -, hnone, -⟩⟩ := iterates_answers h
  · intro w' hw'
    rw [hgo] at hw'
    cases hw'
    exact ⟨hlt, hlen⟩
  · exact writeInProgressFits_of_none hnone

/-- Only a WRITE changes the WRITE in progress. -/
theorem executes_writeInProgressFits {i : Instr} {s t : State} (hi : i.wellFormed = true) (hs : WriteInProgressFits s)
    (h : Executes s i t) : WriteInProgressFits t := by
  cases h with
  | illegal h => exact writeInProgressFits_congr (answer_writing _ _ _ s) hs
  | opened h => exact writeInProgressFits_congr (respondOn_writing _ _ s) hs
  | closed h => exact writeInProgressFits_congr (respondOn_writing _ _ s) hs
  | translated c hp => exact writeInProgressFits_congr (respondOn_writing _ _ s) hs
  | began input hp hw =>
    have hlen : input.length ≤ 255 := (fitsByte_iff _).1 hi
    exact iterates_writeInProgressFits hlen (writeIteration_iterates _ s)
  | delivered m hp => exact writeInProgressFits_congr (by simp) hs
  | tried seq hp => exact writeInProgressFits_congr (busTryWr_writing seq s) hs
  | returned m hp => exact writeInProgressFits_congr (by simp) hs

/-- A turn keeps the WRITE in progress inside its input and every response within its encoding. -/
theorem takesTurn_ports {p : Port} {s u : State} (hring : RingSound s) (hw : WriteInProgressFits s)
    (hr : ResponsesFit s) (h : TakesTurn p s u) : WriteInProgressFits u ∧ ResponsesFit u := by
  obtain ⟨-, hn, -⟩ := hring.legal
  obtain ⟨-, -, hocc⟩ := hring.in_range
  cases h with
  | @iterated w u hp hsome h =>
    obtain ⟨hlt, hlen⟩ := hw w hsome
    refine ⟨iterates_writeInProgressFits hlen h, iterates_responsesFit (by simpa using hn) hlen hlt.le ?_ h⟩
    exact responsesFit_congr (fun p => by rw [withActivePort_port]) hr
  | waited hnone h => exact ⟨hw, hr⟩
  | turnedAway hnone hd =>
    refine ⟨writeInProgressFits_congr (by simp [answerIllegal]) hw, ?_⟩
    exact responsesFit_respondOn (fitsEncoding_of_nil (Nat.zero_le _)) (responsesFit_congr (fun p => by simp) hr)
  | ran hnone hb hd h =>
    obtain ⟨hi, -⟩ := decode_eq_command_iff.1 hd
    refine ⟨executes_writeInProgressFits hi (writeInProgressFits_congr (fetched_writing _ _ s) hw) h,
      executes_responsesFit hi ?_ ?_ (responsesFit_congr (fun p => by simp) hr) h⟩
    · rwa [fetched_capacity]
    · rw [fetched_occupancy]
      exact hocc.trans hn

theorem SameMachine.ports {s r : State} (h : SameMachine s r) (hw : WriteInProgressFits s) (hr : ResponsesFit s) :
    WriteInProgressFits r ∧ ResponsesFit r :=
  ⟨writeInProgressFits_congr h.writing hw, responsesFit_congr (fun p => by rw [h.port]) hr⟩

theorem steps_ports {s t : State} (h : Steps s t) (hring : RingSound s) (hw : WriteInProgressFits s)
    (hr : ResponsesFit s) : WriteInProgressFits t ∧ ResponsesFit t := by
  cases h with
  | waited h => exact h.ports hw hr
  | turned hsame hp h =>
    obtain ⟨hw', hr'⟩ := hsame.ports hw hr
    obtain ⟨hwu, hru⟩ := takesTurn_ports (hsame.toSameRing.ringSound hring) hw' hr' h
    exact ⟨writeInProgressFits_congr (settled_writing _ _) hwu, responsesFit_settled _ hru⟩
  | arrived bytes hsame hp =>
    obtain ⟨hw', hr'⟩ := hsame.ports hw hr
    exact ⟨writeInProgressFits_congr (by simp) hw',
      responsesFit_settled _ (responsesFit_congr (fun p => by simp) hr')⟩

/-- A WRITE comes into progress only by a turn of port `P`. -/
theorem steps_writing {s t : State} (h : Steps s t) : t.writing = s.writing ∨ reached s .producer = true := by
  cases h with
  | waited h => exact .inl h.writing
  | @turned p r u hsame hp h =>
    by_cases hP : p = .producer
    · subst hP
      exact .inr hp
    · exact .inl (by rw [settled_writing, takesTurn_writing h hP, hsame.writing])
  | arrived bytes hsame hp => exact .inl (by rw [settled_writing, arriveAt_writing, hsame.writing])

theorem steps_wiringRespected {s t : State} (h : Steps s t) (hs : WiringRespected s) : WiringRespected t := by
  obtain ⟨hsilent, hwriting⟩ := hs
  have hreach := reached_congr (steps_wiring h)
  refine ⟨fun p hp => ?_, fun hsome => ?_⟩
  · rw [hreach] at hp
    rw [steps_inward_unreached h hp, hsilent p hp]
  · rw [hreach]
    rcases steps_writing h with he | hr
    · exact hwriting (by rwa [← he])
    · exact hr

/-- What is said of empty WRITEs rests on the WRITE in progress and the bytes waiting at port `P`. -/
theorem emptyWritesAnswered_congr {s t : State} (hw : t.writing = s.writing)
    (hin : (t.port .producer).inward = (s.port .producer).inward) (hs : EmptyWritesAnswered s) :
    EmptyWritesAnswered t := by
  rwa [EmptyWritesAnswered, hw, hin]

/-- An event at port `P` answers the empty WRITEs, and another touches neither the WRITE in progress nor that stream. -/
theorem steps_emptyWritesAnswered {s t : State} (h : Steps s t) (hs : EmptyWritesAnswered s) :
    EmptyWritesAnswered t := by
  cases h with
  | waited h => exact emptyWritesAnswered_congr h.writing (by rw [h.port]) hs
  | @turned p r u hsame hp h =>
    by_cases hP : p = .producer
    · subst hP
      exact settled_producer_answered _
    · have hne : Port.producer ≠ p := Ne.symm hP
      refine emptyWritesAnswered_congr ?_ ?_ hs
      · rw [settled_writing, takesTurn_writing h hP, hsame.writing]
      · rw [settled_port_other _ hne, takesTurn_inward_other h hne, hsame.port]
  | @arrived p r bytes hsame hp =>
    by_cases hP : p = .producer
    · subst hP
      exact settled_producer_answered _
    · have hne : Port.producer ≠ p := Ne.symm hP
      refine emptyWritesAnswered_congr ?_ ?_ hs
      · rw [settled_writing, arriveAt_writing, hsame.writing]
      · rw [settled_port_other _ hne, arriveAt_port_other _ _ hne, hsame.port]

theorem steps_inv {s t : State} (h : Steps s t) (hs : Inv s) : Inv t := by
  have hring := steps_ringSound h hs.ringSound
  obtain ⟨hw, hr⟩ := steps_ports h hs.ringSound hs.writing_fits hs.responses_fit
  exact ⟨hring.legal, hring.storage_wf, hring.in_range, hring.consistent, hring.written, hw, hr,
    steps_wiringRespected h hs.wiring_respected, steps_emptyWritesAnswered h hs.empty_writes_answered⟩

/-- Settles O45: the ring buffer's part by the one ring operation of a step, the ports' part clause by clause. -/
theorem everyStepKeepsTheInvariant : Obligations.EveryStepKeepsTheInvariant :=
  fun _ _ hs h => ⟨steps_inv (steps_of_step h) hs, steps_capacity (steps_of_step h)⟩

/-! ### The Morse stream (10_state.md R29) -/

@[simp] theorem encodeText_nil : encodeText [] = [] := rfl

@[simp] theorem encodeText_cons (c : Byte) (rest : List Byte) :
    encodeText (c :: rest) = sequenceFor c ++ encodeText rest := rfl

theorem encodeText_append (a b : List Byte) : encodeText (a ++ b) = encodeText a ++ encodeText b :=
  List.flatMap_append

/-- A suffix of whole sequences, wherever it is cut, is one cut inside the first sequence or nowhere. -/
theorem isMorseTail_drop_encodeText {chars : List Byte} (h : ∀ c ∈ chars, supported c = true) (d : Nat) :
    IsMorseTail ((encodeText chars).drop d) := by
  induction chars generalizing d with
  | nil => exact .inl (by simp)
  | cons c rest ih =>
    rcases Nat.lt_or_ge d (sequenceFor c).length with hlt | hge
    · exact .inr ⟨c, rest, d, h, hlt, rfl⟩
    · rw [encodeText_cons, List.drop_append, List.drop_eq_nil_of_le hge, List.nil_append]
      exact ih (fun x hx => h x (List.mem_cons_of_mem c hx)) _

theorem isMorseTail_iff {q : List Byte} : IsMorseTail q ↔ ∃ chars d, (∀ c ∈ chars, supported c = true) ∧
    d ≤ (encodeText chars).length ∧ q = (encodeText chars).drop d := by
  refine ⟨?_, ?_⟩
  · rintro (rfl | ⟨c, chars, d, hsup, hd, rfl⟩)
    · exact ⟨[], 0, nofun, Nat.zero_le _, rfl⟩
    · refine ⟨c :: chars, d, hsup, ?_, rfl⟩
      rw [encodeText_cons, List.length_append]
      omega
  · rintro ⟨chars, d, hsup, -, rfl⟩
    exact isMorseTail_drop_encodeText hsup d

theorem IsMorseTail.drop {q : List Byte} (h : IsMorseTail q) (k : Nat) : IsMorseTail (q.drop k) := by
  obtain ⟨chars, d, hsup, -, rfl⟩ := isMorseTail_iff.1 h
  rw [List.drop_drop]
  exact isMorseTail_drop_encodeText hsup _

theorem IsMorseTail.append {q : List Byte} (h : IsMorseTail q) {c : Byte} (hc : supported c = true) :
    IsMorseTail (q ++ sequenceFor c) := by
  obtain ⟨chars, d, hsup, hd, rfl⟩ := isMorseTail_iff.1 h
  have happ : encodeText (chars ++ [c]) = encodeText chars ++ sequenceFor c := by simp [encodeText_append]
  rw [← List.drop_append_of_le_length hd, ← happ]
  refine isMorseTail_drop_encodeText (fun x hx => ?_) d
  rcases List.mem_append.1 hx with hx | hx
  · exact hsup x hx
  · rwa [List.mem_singleton.1 hx]

/-- Where no TRYWR of the producer's own waits at port `I`, the ring operation of a step keeps the stream. -/
theorem isMorseTail_afterRingOp {s : State} {p : Port} {o : RingOp} (hs : Inv s) (hq : IsMorseTail (queue s))
    (hbus : ∀ seq rest, decode (s.port .bus).inward ≠ .command (.tryWr seq) rest) (ho : TurnOp s p o) :
    IsMorseTail (queue (afterRingOp o s)) := by
  have hread : ∀ m, IsMorseTail (queue (afterRingOp (.rbRd m) s)) := fun m => by
    rw [queue_afterRbRd]
    exact hq.drop _
  cases ho with
  | @character c hc =>
    rcases queue_afterTryWr (sequenceFor c) hs.in_range hs.consistent with e | e <;> rw [e]
    · exact hq
    · exact hq.append hc
  | read m => exact hread m
  | busRead m => exact hread m
  | busWrite hd => exact absurd hd (hbus _ _)

/-- Behind the block's external ports nothing waits at port `I`. -/
theorem no_tryWr_of_wholeBlock {s : State} (hs : Inv s) (hw : s.wiring = .wholeBlock) (seq rest : List Byte) :
    decode (s.port .bus).inward ≠ .command (.tryWr seq) rest := by
  obtain ⟨hsilent, -⟩ := hs.wiring_respected
  rw [hsilent .bus (by rw [reached, hw]; rfl)]
  nofun

/-- Settles O47: a step leaves `Q`, drops some of its head, or adds a whole sequence. -/
theorem morseStreamIsKept : Obligations.MorseStreamIsKept := by
  refine ⟨fun w n => ⟨.inl (queue_resetWith w n), rfl⟩, fun s t hs hq hfree h => ?_⟩
  have hbus : ∀ seq rest, decode (s.port .bus).inward ≠ .command (.tryWr seq) rest :=
    hfree.elim (no_tryWr_of_wholeBlock hs) id
  have hsteps := steps_of_step h
  refine ⟨steps_wiring hsteps, ?_⟩
  rcases steps_ring hsteps with hring | ⟨p, o, ho, hring⟩
  · rwa [hring.queue]
  · rw [hring.queue]
    exact isMorseTail_afterRingOp hs hq hbus ho

theorem mem_sequenceFor {c b : Byte} (h : b ∈ sequenceFor c) : b = 0x2E#8 ∨ b = 0x2D#8 ∨ b = 0x20#8 := by
  rcases translateByte_cases c with ⟨-, e⟩ | ⟨-, marks, e, -, -⟩
  · simp [sequenceFor, e] at h
  · rw [sequenceFor_of_translateByte e] at h
    rcases List.mem_append.1 h with h | h
    · exact (mem_map_markByte h).imp_right .inl
    · exact .inr (.inr (List.mem_singleton.1 h))

theorem getLast?_sequenceFor {c : Byte} (h : supported c = true) : (sequenceFor c).getLast? = some 0x20#8 := by
  obtain ⟨marks, e, -⟩ := translateByte_of_supported h
  rw [sequenceFor_of_translateByte e, sequenceOf, List.getLast?_concat]
  rfl

/-- A text ends as its last character does. -/
theorem getLast?_encodeText {chars : List Byte} (h : ∀ c ∈ chars, supported c = true) (hne : chars ≠ []) :
    (encodeText chars).getLast? = some 0x20#8 := by
  rcases List.eq_nil_or_concat chars with rfl | ⟨front, c, rfl⟩
  · exact absurd rfl hne
  · have hc := getLast?_sequenceFor (h c (by simp))
    simp [encodeText_append, List.getLast?_append, hc]

/-- Settles O48: a suffix's bytes are bytes of sequences, and its last one is the last of a whole sequence. -/
theorem morseTailsEndWithASeparator : Obligations.MorseTailsEndWithASeparator := by
  intro q hq
  obtain ⟨chars, d, hsup, -, rfl⟩ := isMorseTail_iff.1 hq
  refine ⟨fun b hb => ?_, fun hne => ?_⟩
  · obtain ⟨c, -, hbc⟩ := List.mem_flatMap.1 (List.mem_of_mem_drop hb)
    exact mem_sequenceFor hbc
  · have hd : ¬(encodeText chars).length ≤ d := fun hle => hne (List.drop_eq_nil_of_le hle)
    rw [List.getLast?_drop, if_neg hd]
    refine getLast?_encodeText hsup ?_
    rintro rfl
    exact hd (Nat.zero_le _)

end Sys2Proof.Machine
end

section
/-! The whole loop of a WRITE (42_encoder_service.md R162 to R170): its inversion, what it consumes and appends, and
that it may be cut into chunks. -/

namespace Sys2Proof.Machine

/-! ### The loop, by the byte it looks at -/

theorem writeLoop_skipped {c : Byte} (rest : List Byte) (i : Nat) (s : State) (hc : supported c = false) :
    writeLoop (c :: rest) i s = writeLoop rest (i + 1) s := by
  simp [writeLoop, translateByte_of_not_supported hc]

theorem writeLoop_admitted {c : Byte} (rest : List Byte) (i : Nat) {s : State} (hc : supported c = true)
    (hfit : (sequenceFor c).length ≤ freeCapacity s) :
    writeLoop (c :: rest) i s = writeLoop rest (i + 1) (admitBytes (sequenceFor c) s) := by
  have hne := tryWrite_sequenceFor_ne_zero hc hfit
  simp only [writeLoop, translateByte_eq_sequenceFor hc, hne, if_false]
  rw [tryWrite_fits hfit]

theorem writeLoop_rejected {c : Byte} (rest : List Byte) (i : Nat) {s : State} (hc : supported c = true)
    (hlong : freeCapacity s < (sequenceFor c).length) : writeLoop (c :: rest) i s = (i, s) := by
  simp [writeLoop, translateByte_eq_sequenceFor hc, tryWrite_rejected hlong]

theorem loopBusAnswers_skipped {c : Byte} (rest : List Byte) (s : State) (hc : supported c = false) :
    loopBusAnswers (c :: rest) s = loopBusAnswers rest s := by
  simp [loopBusAnswers, translateByte_of_not_supported hc]

theorem loopBusAnswers_admitted {c : Byte} (rest : List Byte) {s : State} (hc : supported c = true)
    (hfit : (sequenceFor c).length ≤ freeCapacity s) :
    loopBusAnswers (c :: rest) s =
      tryWrAnswer (sequenceFor c).length :: loopBusAnswers rest (admitBytes (sequenceFor c) s) := by
  have hne := tryWrite_sequenceFor_ne_zero hc hfit
  simp only [loopBusAnswers, translateByte_eq_sequenceFor hc, hne, if_false]
  rw [tryWrite_fits hfit]

theorem loopBusAnswers_rejected {c : Byte} (rest : List Byte) {s : State} (hc : supported c = true)
    (hlong : freeCapacity s < (sequenceFor c).length) : loopBusAnswers (c :: rest) s = [tryWrAnswer 0] := by
  simp [loopBusAnswers, translateByte_eq_sequenceFor hc, tryWrite_rejected hlong]

/-- The input cursor's start is only added. -/
theorem writeLoop_start (input : List Byte) (i : Nat) (s : State) :
    writeLoop input i s = ((writeLoop input 0 s).1 + i, (writeLoop input 0 s).2) := by
  induction input generalizing i s with
  | nil => simp [writeLoop]
  | cons c rest ih =>
    rcases byte_cases c s with hc | ⟨hc, hfit⟩ | ⟨hc, hlong⟩
    · simp only [writeLoop_skipped rest _ s hc, ih (i + 1) s, ih (0 + 1) s]
      rw [Nat.zero_add, Nat.add_assoc, Nat.add_comm 1 i]
    · simp only [writeLoop_admitted rest _ hc hfit, ih (i + 1), ih (0 + 1)]
      rw [Nat.zero_add, Nat.add_assoc, Nat.add_comm 1 i]
    · simp only [writeLoop_rejected rest _ hc hlong, Nat.zero_add]

/-- The loop over an input from `s` consumes `n` bytes and ends in `t`, its TRYWRs answered `onI` on port `I`. -/
inductive Loops : List Byte → State → Nat → State → List Response → Prop where
  | nil (s : State) : Loops [] s 0 s []
  | skipped {c : Byte} {rest : List Byte} {s t : State} {n : Nat} {onI : List Response} (hc : supported c = false)
    (h : Loops rest s n t onI) : Loops (c :: rest) s (n + 1) t onI
  | admitted {c : Byte} {rest : List Byte} {s t : State} {n : Nat} {onI : List Response} (hc : supported c = true)
    (hfit : (sequenceFor c).length ≤ freeCapacity s) (h : Loops rest (admitBytes (sequenceFor c) s) n t onI) :
    Loops (c :: rest) s (n + 1) t (tryWrAnswer (sequenceFor c).length :: onI)
  | rejected {c : Byte} {rest : List Byte} {s : State} (hc : supported c = true)
    (hlong : freeCapacity s < (sequenceFor c).length) : Loops (c :: rest) s 0 s [tryWrAnswer 0]

theorem writeLoop_loops (input : List Byte) (s : State) :
    Loops input s (writeLoop input 0 s).1 (writeLoop input 0 s).2 (loopBusAnswers input s) := by
  induction input generalizing s with
  | nil => exact .nil s
  | cons c rest ih =>
    rcases byte_cases c s with hc | ⟨hc, hfit⟩ | ⟨hc, hlong⟩
    · rw [writeLoop_skipped rest 0 s hc, writeLoop_start, loopBusAnswers_skipped rest s hc]
      exact .skipped hc (ih s)
    · rw [writeLoop_admitted rest 0 hc hfit, writeLoop_start, loopBusAnswers_admitted rest hc hfit]
      exact .admitted hc hfit (ih _)
    · rw [writeLoop_rejected rest 0 hc hlong, loopBusAnswers_rejected rest hc hlong]
      exact .rejected hc hlong

theorem Loops.writeLoop_eq {input : List Byte} {s t : State} {n : Nat} {onI : List Response}
    (h : Loops input s n t onI) : writeLoop input 0 s = (n, t) := by
  induction h with
  | nil s => rfl
  | skipped hc h ih => rw [writeLoop_skipped _ _ _ hc, writeLoop_start, ih]
  | admitted hc hfit h ih => rw [writeLoop_admitted _ _ hc hfit, writeLoop_start, ih]
  | rejected hc hlong => exact writeLoop_rejected _ _ hc hlong

/-! ### What the loop consumes (42_encoder_service.md R164, R165) -/

theorem encodeText_take_cons (c : Byte) (rest : List Byte) (n : Nat) :
    encodeText ((c :: rest).take (n + 1)) = sequenceFor c ++ encodeText (rest.take n) := by
  rw [List.take_succ_cons, encodeText_cons]

theorem Loops.consumed_le {input : List Byte} {s t : State} {n : Nat} {onI : List Response}
    (h : Loops input s n t onI) : n ≤ input.length := by
  induction h with
  | nil s => exact Nat.le_refl 0
  | skipped hc h ih => exact Nat.succ_le_succ ih
  | admitted hc hfit h ih => exact Nat.succ_le_succ ih
  | rejected hc hlong => exact Nat.zero_le _

/-- A loop that does not consume all stops at a byte whose sequence does not fit. -/
theorem Loops.stops_at_rejected {input : List Byte} {s t : State} {n : Nat} {onI : List Response}
    (h : Loops input s n t onI) (hn : n < input.length) :
    ∃ c seq, input[n]? = some c ∧ translateByte c = some seq ∧ freeCapacity t < seq.length := by
  induction h with
  | nil s => exact absurd hn (Nat.not_lt_zero 0)
  | skipped hc h ih => exact ih (Nat.lt_of_succ_lt_succ hn)
  | admitted hc hfit h ih => exact ih (Nat.lt_of_succ_lt_succ hn)
  | @rejected c rest s hc hlong => exact ⟨c, sequenceFor c, rfl, translateByte_eq_sequenceFor hc, hlong⟩

theorem Loops.occupancy {input : List Byte} {s t : State} {n : Nat} {onI : List Response}
    (h : Loops input s n t onI) : t.occupancy = s.occupancy + (encodeText (input.take n)).length := by
  induction h with
  | nil s => rfl
  | skipped hc h ih => rw [encodeText_take_cons, sequenceFor_of_not_supported hc, List.nil_append, ih]
  | admitted hc hfit h ih => rw [encodeText_take_cons, List.length_append, ih, admit_occupancy, Nat.add_assoc]
  | rejected hc hlong => rfl

/-- Settles O35, by the three facts about a loop. -/
theorem consumedCountStopsAtTheRejectedByte : Obligations.ConsumedCountStopsAtTheRejectedByte := fun input s =>
  have h := writeLoop_loops input s
  ⟨h.consumed_le, h.stops_at_rejected, h.occupancy⟩

/-- A loop that consumes nothing has nothing to look at, or rejects its first byte. -/
theorem Loops.consumed_eq_zero_iff {input : List Byte} {s t : State} {n : Nat} {onI : List Response}
    (h : Loops input s n t onI) : n = 0 ↔ input = [] ∨ ∃ c rest, input = c :: rest ∧ supported c = true ∧
      s.capacity - s.occupancy < (sequenceFor c).length := by
  cases h with
  | nil s => exact ⟨fun _ => .inl rfl, fun _ => rfl⟩
  | @skipped c rest s t n onI hc h =>
    refine ⟨nofun, ?_⟩
    rintro (hnil | ⟨_, _, heq, hsup, -⟩)
    · cases hnil
    · cases heq
      rw [hc] at hsup
      cases hsup
  | admitted hc hfit h =>
    refine ⟨nofun, ?_⟩
    rintro (hnil | ⟨_, _, heq, -, hlong⟩)
    · cases hnil
    · cases heq
      exact absurd hfit (Nat.not_le.2 hlong)
  | rejected hc hlong => exact ⟨fun _ => .inr ⟨_, _, rfl, hc, hlong⟩, fun _ => rfl⟩

theorem Loops.unchanged {input : List Byte} {s t : State} {n : Nat} {onI : List Response}
    (h : Loops input s n t onI) (hn : n = 0) : t = s := by
  cases h with
  | nil s => rfl
  | skipped hc h => cases hn
  | admitted hc hfit h => cases hn
  | rejected hc hlong => rfl

theorem writeCondition_eq_noProgress_iff (n : Nat) : writeCondition n = some .noProgress ↔ n = 0 := by
  simp [writeCondition]

theorem statusOf_writeCondition_eq_noProgress_iff (n : Nat) :
    statusOf (writeCondition n) = .noProgress ↔ n = 0 := by
  simp [statusOf_writeCondition]

/-- Settles O36, by the loop's first byte. -/
theorem noProgressExactlyWhenNothingIsConsumed : Obligations.NoProgressExactlyWhenNothingIsConsumed := fun input s =>
  have h := writeLoop_loops input s
  ⟨h.consumed_eq_zero_iff, writeCondition_eq_noProgress_iff _, statusOf_writeCondition_eq_noProgress_iff _,
    h.unchanged⟩

/-! ### What the loop appends (42_encoder_service.md R170) -/

theorem Loops.registers {input : List Byte} {s t : State} {n : Nat} {onI : List Response}
    (h : Loops input s n t onI) (hr : RegistersInRange s) (hc : CursorsConsistent s) :
    RegistersInRange t ∧ CursorsConsistent t := by
  induction h with
  | nil s => exact ⟨hr, hc⟩
  | skipped hsup h ih => exact ih hr hc
  | admitted hsup hfit h ih => exact ih (admitBytes_registersInRange hr hfit) (admitBytes_cursorsConsistent _ hc)
  | rejected hsup hlong => exact ⟨hr, hc⟩

theorem Loops.queue_eq {input : List Byte} {s t : State} {n : Nat} {onI : List Response}
    (h : Loops input s n t onI) (hr : RegistersInRange s) (hc : CursorsConsistent s) :
    queue t = queue s ++ encodeText (input.take n) := by
  induction h with
  | nil s => exact (List.append_nil _).symm
  | skipped hsup h ih =>
    rw [encodeText_take_cons, sequenceFor_of_not_supported hsup, List.nil_append, ih hr hc]
  | admitted hsup hfit h ih =>
    rw [encodeText_take_cons, ih (admitBytes_registersInRange hr hfit) (admitBytes_cursorsConsistent _ hc),
      queue_admit hr hc hfit, List.append_assoc]
  | rejected hsup hlong => exact (List.append_nil _).symm

/-- Settles O37: each admission appends, and a loop that consumes all has taken all. -/
theorem writeAppendsTheEncodedText : Obligations.WriteAppendsTheEncodedText := by
  intro input s hr hc
  have h := writeLoop_loops input s
  have hq := h.queue_eq hr hc
  refine ⟨hq, fun hall => ?_, h.registers hr hc⟩
  rw [hq, hall, List.take_length]

/-! ### Two chunks, unsupported bytes, and an empty buffer (42_encoder_service.md R169, 70_reset_and_hazards.md R229) -/

/-- A loop that consumes all of its input goes on with what follows. -/
theorem Loops.append {a b : List Byte} {s t u : State} {n m : Nat} {onA onB : List Response}
    (ha : Loops a s n t onA) (hb : Loops b t m u onB) (hall : n = a.length) :
    Loops (a ++ b) s (n + m) u (onA ++ onB) := by
  induction ha with
  | nil s => rwa [Nat.zero_add]
  | skipped hc h ih =>
    rw [Nat.add_right_comm]
    exact .skipped hc (ih hb (Nat.succ.inj hall))
  | admitted hc hfit h ih =>
    rw [Nat.add_right_comm]
    exact .admitted hc hfit (ih hb (Nat.succ.inj hall))
  | rejected hc hlong => cases hall

/-- Settles O38: the loop over both goes on where the loop over the first ends. -/
theorem chunkedWritesAgree : Obligations.ChunkedWritesAgree := by
  intro a b s hall
  have h := ((writeLoop_loops a s).append (writeLoop_loops b _) hall).writeLoop_eq
  rw [h, hall]
  exact ⟨rfl, rfl⟩

theorem writeLoop_of_unsupported {input : List Byte} (s : State) (h : ∀ c ∈ input, supported c = false) :
    writeLoop input 0 s = (input.length, s) := by
  induction input with
  | nil => rfl
  | cons c rest ih =>
    rw [writeLoop_skipped rest 0 s (h c List.mem_cons_self), writeLoop_start,
      ih fun x hx => h x (List.mem_cons_of_mem c hx), List.length_cons]

theorem not_supported_space : supported 0x20#8 = false := rfl

/-- Settles O39: a skipped byte is consumed and leaves the state; the space is unsupported. -/
theorem unsupportedBytesAreSilent : Obligations.UnsupportedBytesAreSilent := by
  refine ⟨fun input s => writeLoop_of_unsupported s, fun a b => ?_⟩
  rw [encodeText_append, encodeText_append, encodeText_cons, sequenceFor_of_not_supported not_supported_space,
    List.nil_append]

/-- Settles O40: no sequence is longer than `LMAX`, and `LMAX` fits a legal capacity. -/
theorem emptyBufferAdmitsAnyCharacter : Obligations.EmptyBufferAdmitsAnyCharacter := by
  intro c s ⟨_, _, hlongest⟩ hc hempty
  have hfit : (sequenceFor c).length ≤ freeCapacity s := by
    rw [freeCapacity, hempty, Nat.sub_zero]
    exact (length_sequenceFor_le c).trans hlongest
  rw [writeLoop_admitted [] 0 hc hfit]
  exact ⟨rfl, rfl⟩

end Sys2Proof.Machine
end

section
/-! A WRITE run alone (42_encoder_service.md R162, 70_reset_and_hazards.md R232): the producer's turns do the whole
loop, by induction on the bytes left, each turn one iteration. -/

namespace Sys2Proof.Machine

/-! ### The loop reads and writes the ring buffer alone -/

theorem Loops.congr {input : List Byte} {s t r : State} {n : Nat} {onI : List Response} (h : Loops input s n t onI)
    (hr : SameRing s r) : ∃ u, Loops input r n u onI ∧ SameRing t u := by
  induction h generalizing r with
  | nil s => exact ⟨r, .nil r, hr⟩
  | skipped hc h ih =>
    obtain ⟨u, hu, hsame⟩ := ih hr
    exact ⟨u, .skipped hc hu, hsame⟩
  | admitted hc hfit h ih =>
    obtain ⟨u, hu, hsame⟩ := ih (hr.admitBytes _)
    exact ⟨u, .admitted hc (by rwa [hr.freeCapacity]) hu, hsame⟩
  | rejected hc hlong => exact ⟨r, .rejected hc (by rwa [hr.freeCapacity]), hr⟩

/-- The loop never moves `readCursor`, and never changes `N`. -/
theorem Loops.readCursor_capacity {input : List Byte} {s t : State} {n : Nat} {onI : List Response}
    (h : Loops input s n t onI) : t.readCursor = s.readCursor ∧ t.capacity = s.capacity := by
  induction h with
  | nil s => exact ⟨rfl, rfl⟩
  | skipped hc h ih => exact ih
  | admitted hc hfit h ih => exact ih
  | rejected hc hlong => exact ⟨rfl, rfl⟩

/-! ### What the turns of a WRITE leave -/

/-- The producer has the next `k` turns, and nothing waits at port `P`. -/
structure Ready (k : Nat) (s : State) : Prop where
  alive : s.alive = true
  reached : reached s .producer = true
  silent : (s.port .producer).inward = []
  script : s.script = List.replicate k (.turn .producer)

/-- The state left by a WRITE begun in `s` that has consumed `n` bytes in all, when its loop ends in the ring buffer of
`l` with the answers `onI` on port `I`, and no turn is left. -/
structure Wrote (n : Nat) (onI : List Response) (s l t : State) : Prop where
  ring : SameRing l t
  writing : t.writing = none
  alive : t.alive = s.alive
  wiring : t.wiring = s.wiring
  script : t.script = []
  freeChoices : t.freeChoices = s.freeChoices
  answered : Answered [⟨if n = 0 then .noProgress else .ok, n, []⟩] [] onI s t

/-- Two states with the same streams, lifetime, configuration and free choices. -/
structure SameStreams (s r : State) : Prop where
  alive : r.alive = s.alive
  wiring : r.wiring = s.wiring
  freeChoices : r.freeChoices = s.freeChoices
  port : ∀ q, r.port q = s.port q

theorem Wrote.of_sameStreams {n : Nat} {onI : List Response} {s r l l' t : State} (h : Wrote n onI r l' t)
    (hs : SameStreams s r) (hl : SameRing l l') : Wrote n onI s l t :=
  ⟨hl.trans h.ring, h.writing, h.alive.trans hs.alive, h.wiring.trans hs.wiring, h.script,
    h.freeChoices.trans hs.freeChoices, fun q => by rw [← hs.port q]; exact h.answered q⟩

/-- A WRITE that goes on after the answer of a TRYWR on port `I`. -/
theorem Wrote.of_busAnswer {n : Nat} {onI : List Response} {r : Response} {s u l l' t : State}
    (h : Wrote n onI (respondOn .bus r u) l' t) (hs : SameStreams s u) (hl : SameRing l l') :
    Wrote n (r :: onI) s l t := by
  refine ⟨hl.trans h.ring, h.writing, ?_, ?_, h.script, ?_, fun q => ?_⟩
  · rw [h.alive, respondOn_alive, hs.alive]
  · rw [h.wiring, respondOn_wiring, hs.wiring]
  · rw [h.freeChoices, respondOn_freeChoices, hs.freeChoices]
  · obtain ⟨hin, hout⟩ := h.answered q
    rw [hin, hout, respondOn_inward, hs.port]
    cases q with
    | producer => rw [respondOn_port_other _ _ (by decide), hs.port]; exact ⟨rfl, rfl⟩
    | consumer => rw [respondOn_port_other _ _ (by decide), hs.port]; exact ⟨rfl, rfl⟩
    | bus => simp [hs.port]

/-- Turns of the producer with nothing to do are used up. -/
theorem run_idle {k : Nat} {s : State} (h : Ready k s) (hw : s.writing = none) :
    runSteps k s = .next (s.withScript []) := by
  induction k generalizing s with
  | zero =>
    have hs : s.withScript [] = s := by
      rw [show ([] : List Event) = s.script from h.script.symm]
      rfl
    rw [hs, runSteps]
  | succ k ih =>
    have hstep := step_turn_incomplete h.alive h.script h.reached (fun _ => hw) (by rw [h.silent]; rfl)
    rw [runSteps_succ hstep]
    exact ih ⟨h.alive, h.reached, h.silent, rfl⟩ hw

theorem finishWrite_ready {k : Nat} {s : State} (n : Nat) (h : Ready k s) : Ready k (finishWrite n s) :=
  ⟨h.alive, h.reached, h.silent, h.script⟩

/-- A WRITE that ends: its answer, and the turns that are left. -/
theorem run_finishWrite {k : Nat} {s : State} (n : Nat) (h : Ready k s) :
    ∃ t, runSteps k (finishWrite n s) = .next t ∧ Wrote n [] s s t := by
  refine ⟨_, run_idle (finishWrite_ready n h) (finishWrite_writing n s), ?_⟩
  obtain ⟨-, hans⟩ := finishWrite_writeEnds n (answered_of_port_eq (s := s) fun _ => rfl)
  exact ⟨⟨rfl, rfl, rfl, rfl, rfl⟩, rfl, rfl, rfl, rfl, rfl, hans⟩

theorem respondOn_bus_ready {k : Nat} {s : State} (r : Response) (h : Ready k s) : Ready k (respondOn .bus r s) :=
  ⟨h.alive, h.reached, h.silent, h.script⟩

theorem admitBytes_ready {k : Nat} {s : State} (seq : List Byte) (h : Ready k s) : Ready k (admitBytes seq s) :=
  ⟨h.alive, h.reached, h.silent, h.script⟩

theorem admitBytes_sameStreams (seq : List Byte) (s : State) : SameStreams s (admitBytes seq s) :=
  ⟨rfl, rfl, rfl, admit_port seq s⟩

/-- The turns that `k` bytes have left do the loop over them, once the WRITE has moved on to them. -/
def RunsRest (input more : List Byte) (cursor : Nat) : Prop :=
  ∀ (s l : State) (n : Nat) (onI : List Response), Ready more.length s → Loops more s n l onI →
    ∃ t, runSteps more.length (continueWrite input cursor s) = .next t ∧ Wrote (n + cursor) onI s l t

/-- One iteration, and then the turns that the bytes behind it have left. -/
theorem run_writeIteration {w : WriteProgress} {c : Byte} {more : List Byte} {s l : State} {n : Nat}
    {onI : List Response} (hc : w.input[w.cursor]? = some c) (hmore : RunsRest w.input more (w.cursor + 1))
    (h : Ready more.length s) (hl : Loops (c :: more) s n l onI) :
    ∃ t, runSteps more.length (writeIteration w s) = .next t ∧ Wrote (n + w.cursor) onI s l t := by
  cases hl with
  | @skipped _ _ _ _ n _ hsup hl =>
    rw [writeIteration_skipped s hc hsup, Nat.add_right_comm, Nat.add_assoc]
    exact hmore s l n onI h hl
  | @admitted _ _ _ _ n onI hsup hfit hl =>
    rw [writeIteration_admitted hc hsup hfit, Nat.add_right_comm, Nat.add_assoc]
    obtain ⟨l', hl', hsame⟩ := hl.congr (respondOn_sameRing .bus (tryWrAnswer (sequenceFor c).length) _)
    obtain ⟨t, hrun, hwrote⟩ := hmore _ l' n onI (respondOn_bus_ready _ (admitBytes_ready _ h)) hl'
    exact ⟨t, hrun, hwrote.of_busAnswer (admitBytes_sameStreams _ s) hsame⟩
  | rejected hsup hlong =>
    rw [writeIteration_rejected hc hsup hlong, Nat.zero_add]
    obtain ⟨t, hrun, hwrote⟩ := run_finishWrite w.cursor (respondOn_bus_ready (tryWrAnswer 0) h)
    exact ⟨t, hrun, hwrote.of_busAnswer ⟨rfl, rfl, rfl, fun _ => rfl⟩ (respondOn_sameRing _ _ s)⟩

/-- The state in which the producer's turn takes the iteration of `w`, `k` turns of the producer to come. -/
def iterating (w : WriteProgress) (k : Nat) (s : State) : State :=
  ({ s with writing := some w }.withScript (List.replicate k (.turn .producer))).withActivePort .producer

theorem iterating_sameRing (w : WriteProgress) (k : Nat) (s : State) : SameRing s (iterating w k s) :=
  ⟨rfl, rfl, rfl, rfl, rfl⟩

theorem iterating_sameStreams (w : WriteProgress) (k : Nat) (s : State) : SameStreams s (iterating w k s) :=
  ⟨rfl, rfl, rfl, fun q => by cases q <;> rfl⟩

theorem iterating_ready {j k : Nat} {s : State} (w : WriteProgress) (h : Ready j s) : Ready k (iterating w k s) :=
  ⟨h.alive, h.reached, h.silent, rfl⟩

/-- The producer's next turn inside a WRITE, with nothing waiting behind it. -/
theorem step_writing {k : Nat} {s : State} (w : WriteProgress) (h : Ready (k + 1) s) :
    step { s with writing := some w } = .next (writeIteration w (iterating w k s)) := by
  have hrun : runTurn .producer ({ s with writing := some w }.withScript (List.replicate k (.turn .producer))) =
      .next (writeIteration w (iterating w k s)) := runTurn_write rfl
  have hin : ((writeIteration w (iterating w k s)).port .producer).inward = [] :=
    (iterates_inward (writeIteration_iterates w _) .producer).trans h.silent
  have hstep := step_turn (s := { s with writing := some w }) h.alive h.script h.reached
  rw [hstep, takeTurn_of_runTurn hrun, settled_of_incomplete (by rw [hin]; rfl)]

/-- A position inside the input looks at the first of the bytes left, and the next one at the rest. -/
theorem getElem?_of_drop_eq_cons {input more : List Byte} {cursor : Nat} {c : Byte}
    (h : input.drop cursor = c :: more) :
    cursor < input.length ∧ input[cursor]? = some c ∧ input.drop (cursor + 1) = more := by
  have hlt : cursor < input.length := by
    by_contra hge
    rw [List.drop_eq_nil_of_le (Nat.not_lt.1 hge)] at h
    cases h
  rw [List.drop_eq_getElem_cons hlt] at h
  obtain ⟨hc, hrest⟩ := List.cons.inj h
  exact ⟨hlt, List.getElem?_eq_some_iff.2 ⟨hlt, hc⟩, hrest⟩

theorem runsRest_of_drop {input more : List Byte} {cursor : Nat} (hdrop : input.drop cursor = more) :
    RunsRest input more cursor := by
  induction more generalizing cursor with
  | nil =>
    intro s l n onI h hl
    cases hl
    have hend : ¬cursor < input.length := Nat.not_lt.2 (List.drop_eq_nil_iff.1 hdrop)
    rw [continueWrite, if_neg hend, Nat.zero_add]
    exact run_finishWrite cursor h
  | cons c more ih =>
    intro s l n onI h hl
    obtain ⟨hlt, hc, hrest⟩ := getElem?_of_drop_eq_cons hdrop
    obtain ⟨l', hl', hsame⟩ := hl.congr (iterating_sameRing ⟨input, cursor⟩ more.length s)
    obtain ⟨t, hrun, hwrote⟩ := run_writeIteration (w := ⟨input, cursor⟩) hc (ih hrest) (iterating_ready _ h) hl'
    rw [continueWrite, if_pos hlt]
    exact ⟨t, (runSteps_succ (step_writing _ h)).trans hrun,
      hwrote.of_sameStreams (iterating_sameStreams _ _ s) hsame⟩

/-! ### From the waiting command on -/

/-- The turn that decodes a WRITE which waits alone is its first iteration. -/
theorem step_waiting_write {s : State} {input : List Byte} {events : List Event} (ha : s.alive = true)
    (hr : reached s .producer = true) (hw : s.writing = none) (hs : s.script = .turn .producer :: events)
    (hlen : input.length ≤ 255) (hin : (s.port .producer).inward = encode (.write input)) :
    step s = .next (writeIteration ⟨input, 0⟩ (fetched .producer [] (s.withScript events))) := by
  have hi : (Instr.write input).wellFormed = true := (fitsByte_iff _).2 hlen
  have hd : decode ((s.withScript events).port .producer).inward = .command (.write input) [] := by
    rw [withScript_port, hin, decode_encode hi]
  have hrun : runTurn .producer (s.withScript events) =
      .next (writeIteration ⟨input, 0⟩ (fetched .producer [] (s.withScript events))) :=
    (runTurn_command (s := s.withScript events) (fun _ => hw) rfl hd).trans
      (exec_write_producer input rfl (by simpa using hw))
  have hin' := iterates_inward (writeIteration_iterates ⟨input, 0⟩ (fetched .producer [] (s.withScript events)))
    .producer
  rw [fetched_port, if_pos rfl] at hin'
  rw [step_turn ha hs hr, takeTurn_of_runTurn hrun, settled_of_incomplete (by rw [hin']; rfl)]

/-- The turns of a WRITE which waits alone do its whole loop. -/
theorem run_waiting_write {s : State} {input : List Byte} (ha : s.alive = true) (hr : reached s .producer = true)
    (hw : s.writing = none) (hs : s.script = List.replicate input.length (.turn .producer)) (hlen : input.length ≤ 255)
    (hne : input ≠ []) (hin : (s.port .producer).inward = encode (.write input)) {l : State} {n : Nat}
    {onI : List Response} (hl : Loops input s n l onI) :
    ∃ t l', runSteps input.length s = .next t ∧ SameRing l l' ∧ Wrote n onI (fetched .producer [] s) l' t := by
  cases input with
  | nil => exact absurd rfl hne
  | cons c more =>
    have hstep := step_waiting_write ha hr hw hs hlen hin
    have hready : Ready more.length
        (fetched .producer [] (s.withScript (List.replicate more.length (.turn .producer)))) :=
      ⟨ha, hr, rfl, rfl⟩
    obtain ⟨l', hl', hsame⟩ := hl.congr ((withScript_sameMachine s _).toSameRing.trans
      (fetched_sameRing .producer [] (s.withScript (List.replicate more.length (.turn .producer)))))
    obtain ⟨t, hrun, hwrote⟩ := run_writeIteration (w := ⟨c :: more, 0⟩) rfl (runsRest_of_drop rfl) hready hl'
    exact ⟨t, l', (runSteps_succ hstep).trans hrun, hsame,
      hwrote.of_sameStreams ⟨rfl, rfl, rfl, fun q => by cases q <;> rfl⟩ (.refl l')⟩

/-- `r` is `s` as the WRITE begins, its bytes taken from port `P`. -/
structure BeginsAs (s r : State) : Prop where
  alive : r.alive = true
  wiring : r.wiring = s.wiring
  freeChoices : r.freeChoices = s.freeChoices
  silent : (r.port .producer).inward = []
  inward : ∀ q, q ≠ .producer → (r.port q).inward = (s.port q).inward
  outward : ∀ q, (r.port q).outward = (s.port q).outward

/-- What the turns leave is what the statement of a WRITE run alone asks for. -/
theorem wroteAlone_of_wrote {s r l' t : State} {input : List Byte} (hr : BeginsAs s r)
    (hl : SameRing (writeLoop input 0 s).2 l')
    (h : Wrote (writeLoop input 0 s).1 (loopBusAnswers input s) r l' t) : WroteAlone input s t := by
  have hring := hl.trans h.ring
  obtain ⟨hrc, hn⟩ := (writeLoop_loops input s).readCursor_capacity
  obtain ⟨hinP, houtP⟩ := h.answered .producer
  obtain ⟨hinC, houtC⟩ := h.answered .consumer
  obtain ⟨hinI, houtI⟩ := h.answered .bus
  rw [hr.outward] at houtP houtC houtI
  refine ⟨hring.storage, hring.readCursor.trans hrc, hring.writeCursor, hring.occupancy, h.writing,
    hring.capacity.trans hn, h.alive.trans hr.alive, h.wiring.trans hr.wiring, h.script,
    h.freeChoices.trans hr.freeChoices, hinP.trans hr.silent, houtP, ?_, hinI.trans (hr.inward _ (by decide)), houtI⟩
  exact portStreams_ext (hinC.trans (hr.inward _ (by decide))) (houtC.trans (List.append_nil _))

/-- A WRITE that waits whole. -/
theorem run_waiting_write_alone {s : State} {input : List Byte} (ha : s.alive = true)
    (hr : reached s .producer = true) (hw : s.writing = none) (hlen : input.length ≤ 255) (hne : input ≠ [])
    (hin : s.portP.inward = encode (.write input)) :
    ∃ t, runSteps input.length (producerTurns input.length s) = .next t ∧ WroteAlone input s t := by
  obtain ⟨l, hl, hsame⟩ := (writeLoop_loops input s).congr (withScript_sameMachine s _).toSameRing
  obtain ⟨t, l', hrun, hsame', hwrote⟩ := run_waiting_write (s := producerTurns input.length s) ha hr hw rfl hlen hne
    hin hl
  refine ⟨t, hrun, wroteAlone_of_wrote ?_ (hsame.trans hsame') hwrote⟩
  exact ⟨ha, rfl, rfl, rfl, fun q hq => by rw [fetched_port_other _ _ hq]; exact congrArg _ (withScript_port s _ q),
    fun q => by rw [fetched_outward]; exact congrArg _ (withScript_port s _ q)⟩

/-- The state after the arrival of a WRITE of more than no byte, with a turn of the producer to come for each. -/
def writeArrived (input : List Byte) (s : State) : State :=
  arriveAt .producer (encode (.write input)) (s.withScript (List.replicate input.length (.turn .producer)))

/-- A WRITE that arrives at a free port: an empty one is answered by the arrival, another waits for the turns. -/
theorem run_arriving_write_alone {s : State} {input : List Byte} (ha : s.alive = true)
    (hr : reached s .producer = true) (hw : s.writing = none) (hlen : input.length ≤ 255)
    (hin : s.portP.inward = []) :
    ∃ u t, step (s.withScript
        (.arrive .producer (encode (.write input)) :: List.replicate input.length (.turn .producer))) = .next u ∧
      u.script = List.replicate input.length (.turn .producer) ∧ runSteps input.length u = .next t ∧
      WroteAlone input s t := by
  by_cases hne : input = []
  · subst hne
    refine ⟨_, _, step_arrive_empty_write _ ha hr hw hin, rfl, rfl, ?_⟩
    refine wroteAlone_of_wrote (r := s.withScript []) (l' := s.withScript [])
      ⟨ha, rfl, rfl, hin, fun q _ => by rw [withScript_port], fun q => by rw [withScript_port]⟩
      (withScript_sameMachine s []).toSameRing
      ⟨respondOn_sameRing _ _ _, hw, rfl, rfl, rfl, rfl, (answered_of_port_eq fun _ => rfl).producer _⟩
  · have hbytes : ((writeArrived input s).port .producer).inward = encode (.write input) :=
      arriveAt_inward_of_nil _ hin
    have hi : (Instr.write input).wellFormed = true := (fitsByte_iff _).2 hlen
    have hstep := step_arrive (s := s.withScript
      (.arrive .producer (encode (.write input)) :: List.replicate input.length (.turn .producer))) ha rfl hr
    rw [withScript_withScript, ← writeArrived, settled_of_encode hi (fun h => hne (Instr.write.inj h)) hbytes] at hstep
    obtain ⟨l, hl, hsame⟩ := (writeLoop_loops input s).congr ((withScript_sameMachine s _).toSameRing.trans
      (arriveAt_sameRing .producer (encode (.write input)) _))
    obtain ⟨t, l', hrun, hsame', hwrote⟩ :=
      run_waiting_write (s := writeArrived input s) ha hr hw rfl hlen hne hbytes hl
    refine ⟨_, t, hstep, rfl, hrun, wroteAlone_of_wrote ?_ (hsame.trans hsame') hwrote⟩
    refine ⟨ha, rfl, rfl, rfl, fun q hq => ?_, fun q => ?_⟩
    · rw [fetched_port_other _ _ hq, writeArrived, arriveAt_port_other _ _ hq, withScript_port]
    · rw [fetched_outward, writeArrived, arriveAt_outward, withScript_port]

/-- Settles O34, by induction on the bytes left (`runsRest_of_drop`), from the arrival or from the waiting command. -/
theorem writeAloneRunsItsWholeLoop : Obligations.WriteAloneRunsItsWholeLoop :=
  fun _ _ ha hr hw hlen => ⟨run_arriving_write_alone ha hr hw hlen, fun hin hne =>
    run_waiting_write_alone ha hr hw hlen hne hin⟩

end Sys2Proof.Machine
end

section
/-! The pseudo-instruction DRAIN (30_encoding.md R91), the ring kept by two counters (10_state.md R37, 20_memory.md
R64), and the register states that ring operations reach (test vector D34). -/

namespace Sys2Proof.Machine

/-! ### DRAIN (30_encoding.md R91) -/

theorem drain_of_readCount_eq_zero {s : State} (n : Nat) (h : readCount 255 s = 0) :
    drain (n + 1) s = ringRead 255 s := by
  rw [drain, if_pos h]

theorem drain_of_readCount_ne_zero {s : State} (n : Nat) (h : readCount 255 s ≠ 0) :
    drain (n + 1) s = ((ringRead 255 s).1 ++ (drain n (ringRead 255 s).2).1, (drain n (ringRead 255 s).2).2) := by
  rw [drain, if_neg h]

theorem ringRead_registersInRange {s : State} (m : Nat) (hr : RegistersInRange s) :
    RegistersInRange (ringRead m s).2 :=
  consume_registersInRange _ hr

/-- A read splits the queue into what it returns and what it leaves. -/
theorem ringRead_append_queue (m : Nat) {s : State} (hr : RegistersInRange s) :
    (ringRead m s).1 ++ queue (ringRead m s).2 = queue s := by
  obtain ⟨hrc, -, -⟩ := hr
  rw [ringRead_eq_take m s hrc, ringRead_snd, queue_consume, List.take_append_drop]

theorem drain_append_queue (n : Nat) {s : State} (hr : RegistersInRange s) :
    (drain n s).1 ++ queue (drain n s).2 = queue s := by
  induction n generalizing s with
  | zero => rfl
  | succ n ih =>
    by_cases hk : readCount 255 s = 0
    · rw [drain_of_readCount_eq_zero n hk, ringRead_append_queue 255 hr]
    · rw [drain_of_readCount_ne_zero n hk, List.append_assoc, ih (ringRead_registersInRange 255 hr),
        ringRead_append_queue 255 hr]

theorem ringRead_of_empty {s : State} (m : Nat) (h : s.occupancy = 0) :
    (ringRead m s).1 = [] ∧ (ringRead m s).2.occupancy = 0 := by
  have hk : readCount m s = 0 := readCount_of_isEmpty (isEmpty_iff.2 h) m
  refine ⟨List.eq_nil_of_length_eq_zero (by rw [length_ringRead, hk]), ?_⟩
  rw [ringRead_snd, consume_occupancy, h, Nat.zero_sub]

theorem drain_of_empty {s : State} (n : Nat) (h : s.occupancy = 0) : drain (n + 1) s = ringRead 255 s :=
  drain_of_readCount_eq_zero n (readCount_of_isEmpty (isEmpty_iff.2 h) 255)

theorem drain_keeps_empty {s : State} (n : Nat) (h : s.occupancy = 0) : (drain n s).2.occupancy = 0 := by
  obtain ⟨-, hocc⟩ := ringRead_of_empty 255 h
  cases n with
  | zero => exact h
  | succ n => rwa [drain_of_empty n h]

/-- A read that could return a byte and does not finds the buffer empty. -/
theorem occupancy_eq_zero_of_readCount {s : State} (hr : RegistersInRange s) (h : readCount 255 s = 0) :
    s.occupancy = 0 := by
  obtain ⟨hrc, -, -⟩ := hr
  by_contra hocc
  exact Nat.ne_of_gt (readCount_pos (by decide) (Nat.pos_of_ne_zero hocc) hrc) h

/-- Two reads of at least `N` bytes empty the buffer: what RBRD does on port `I`, without its answers. -/
theorem ringRead_ringRead_occupancy {s : State} {m : Nat} (hr : RegistersInRange s) (hm : s.capacity ≤ m) :
    (ringRead m (ringRead m s).2).2.occupancy = 0 := by
  have h := busRbRd_busRbRd_occupancy hr hm hm
  rw [busRbRd_snd_eq_respondOn m s, busRbRd_occupancy] at h
  exact h

theorem drain_two_occupancy {s : State} (n : Nat) (hn : s.capacity ≤ 255) (hr : RegistersInRange s) :
    (drain (n + 2) s).2.occupancy = 0 := by
  by_cases h₁ : readCount 255 s = 0
  · exact drain_keeps_empty _ (occupancy_eq_zero_of_readCount hr h₁)
  · have hr' := ringRead_registersInRange 255 hr
    rw [drain_of_readCount_ne_zero _ h₁]
    by_cases h₂ : readCount 255 (ringRead 255 s).2 = 0
    · exact drain_keeps_empty _ (occupancy_eq_zero_of_readCount hr' h₂)
    · rw [drain_of_readCount_ne_zero _ h₂]
      exact drain_keeps_empty _ (ringRead_ringRead_occupancy hr hn)

/-- Once the buffer is empty, one more read ends it, however many are allowed. -/
theorem drain_stops {s : State} {n : Nat} (k : Nat) (h : (drain n s).2.occupancy = 0) :
    drain (n + 1 + k) s = drain (n + 1) s := by
  induction n generalizing s with
  | zero =>
    have hempty : s.occupancy = 0 := h
    rw [Nat.add_right_comm, drain_of_empty _ hempty, drain_of_empty _ hempty]
  | succ n ih =>
    rw [Nat.add_right_comm (n + 1)]
    by_cases hk : readCount 255 s = 0
    · rw [drain_of_readCount_eq_zero _ hk, drain_of_readCount_eq_zero _ hk]
    · rw [drain_of_readCount_ne_zero _ hk] at h
      have hrest := ih h
      rw [Nat.add_right_comm n] at hrest
      rw [drain_of_readCount_ne_zero _ hk, drain_of_readCount_ne_zero _ hk, Nat.add_right_comm n, hrest]

theorem drain_fst_eq_queue {s : State} (n : Nat) (hr : RegistersInRange s) (h : (drain n s).2.occupancy = 0) :
    (drain n s).1 = queue s := by
  rw [← drain_append_queue n hr, queue_eq_nil_iff.2 h, List.append_nil]

/-- Settles O31: two reads empty the buffer, and what they return with what they leave is `Q`. -/
theorem drainReturnsTheQueueInThreeReads : Obligations.DrainReturnsTheQueueInThreeReads := by
  intro s ⟨_, hn, _⟩ hr
  have h₂ : (drain 2 s).2.occupancy = 0 := drain_two_occupancy 0 hn hr
  have h₃ : (drain 3 s).2.occupancy = 0 := drain_two_occupancy 1 hn hr
  obtain ⟨hnothing, -⟩ := ringRead_of_empty 255 h₂
  exact ⟨drain_fst_eq_queue 2 hr h₂, h₂, hnothing, drain_fst_eq_queue 3 hr h₃, h₃, fun k => drain_stops k h₂⟩

/-! ### Two unbounded counters (10_state.md R37) -/

theorem tryWrite_counterView {b : CounterRing} (s : State) (seq : List Byte) (h : b.totalRead ≤ b.totalWritten) :
    tryWrite seq (counterView b s) =
      ((counterTryWrite s.capacity seq b).1, counterView (counterTryWrite s.capacity seq b).2 s) := by
  have hfree : freeCapacity (counterView b s) = s.capacity - counterOccupancy b := rfl
  unfold tryWrite counterTryWrite
  rw [hfree]
  split
  · rfl
  · have hocc : b.totalWritten - b.totalRead + seq.length = b.totalWritten + seq.length - b.totalRead :=
      (Nat.sub_add_comm h).symm
    simp [admitBytes, counterView, counterOccupancy, advanceCursor, hocc]

theorem ringRead_counterView (b : CounterRing) (s : State) (m : Nat) :
    ringRead m (counterView b s) = ((counterRead s.capacity m b).1, counterView (counterRead s.capacity m b).2 s) := by
  have hk : readCount m (counterView b s) = counterReadCount s.capacity m b := rfl
  rw [ringRead, hk]
  simp [counterRead, consume, counterView, counterOccupancy, advanceCursor, Nat.sub_sub]

/-- The bound on the two counters (10_state.md R37). -/
def CountersBounded (n : Nat) (b : CounterRing) : Prop :=
  b.totalRead ≤ b.totalWritten ∧ b.totalWritten ≤ b.totalRead + n

theorem counterTryWrite_bounded {n : Nat} {b : CounterRing} (seq : List Byte) (h : CountersBounded n b) :
    CountersBounded n (counterTryWrite n seq b).2 := by
  obtain ⟨hle, hbound⟩ := h
  unfold counterTryWrite counterOccupancy
  split
  · exact ⟨hle, hbound⟩
  · next hfit => exact ⟨hle.trans (Nat.le_add_right _ _), by dsimp only; omega⟩

theorem counterRead_bounded {n : Nat} {b : CounterRing} (m : Nat) (h : CountersBounded n b) :
    CountersBounded n (counterRead n m b).2 := by
  obtain ⟨hle, hbound⟩ := h
  have hk : counterReadCount n m b ≤ b.totalWritten - b.totalRead :=
    (Nat.min_le_right _ _).trans (Nat.min_le_left _ _)
  simp only [CountersBounded, counterRead]
  omega

theorem counterTryWrite_totalRead (n : Nat) (seq : List Byte) (b : CounterRing) :
    (counterTryWrite n seq b).2.totalRead = b.totalRead := by
  unfold counterTryWrite
  split <;> rfl

/-- Subtraction modulo `2 ^ W` gives the difference when that is below `2 ^ W` (20_memory.md R64). -/
theorem wrappedOccupancy_eq {width : Nat} {b : CounterRing} (h : b.totalRead ≤ b.totalWritten)
    (hlt : b.totalWritten - b.totalRead < 2 ^ width) : wrappedOccupancy width b = counterOccupancy b := by
  have hsum : BitVec.ofNat width b.totalWritten =
      BitVec.ofNat width (b.totalWritten - b.totalRead) + BitVec.ofNat width b.totalRead := by
    rw [← BitVec.ofNat_add, Nat.sub_add_cancel h]
  rw [wrappedOccupancy, hsum, BitVec.add_sub_cancel, BitVec.toNat_ofNat, Nat.mod_eq_of_lt hlt, counterOccupancy]

/-- Settles O58: each operation on the counters is the record's on what they stand for. -/
theorem countersAgreeWithTheRecord : Obligations.CountersAgreeWithTheRecord := by
  intro b s hle hbound
  have hb : CountersBounded s.capacity b := ⟨hle, hbound⟩
  exact ⟨fun seq => tryWrite_counterView s seq hle, ringRead_counterView b s,
    fun seq => ⟨counterTryWrite_totalRead _ seq b, counterTryWrite_bounded seq hb⟩,
    fun m => ⟨rfl, counterRead_bounded m hb⟩, fun width hlt => wrappedOccupancy_eq hle (by omega)⟩

/-! ### Two counters of a finite width (10_state.md R37) -/

/-- An addition that stays below `2 ^ W` adds. -/
theorem toNat_add_ofNat {width : Nat} {x : BitVec width} {k : Nat} (h : x.toNat + k < 2 ^ width) :
    (x + BitVec.ofNat width k).toNat = x.toNat + k := by
  rw [BitVec.toNat_add, BitVec.toNat_ofNat, Nat.add_mod_mod, Nat.mod_eq_of_lt h]

/-- A subtraction of no more than there is subtracts. -/
theorem toNat_sub_ofNat {width : Nat} {x : BitVec width} {k : Nat} (h : k ≤ x.toNat) :
    (x - BitVec.ofNat width k).toNat = x.toNat - k := by
  have hk : (BitVec.ofNat width k).toNat = k := by
    rw [BitVec.toNat_ofNat, Nat.mod_eq_of_lt (h.trans_lt x.isLt)]
  rw [BitVec.toNat_sub_of_le (by rw [BitVec.le_def, hk]; exact h), hk]

theorem wrappedTryWrite_occupancy {width n : Nat} {b : WrappedRing width} {seq : List Byte} (hn : n < 2 ^ width)
    (hb : b.occupancy ≤ n) (hfit : seq.length ≤ n - b.occupancy) :
    (wrappedTryWrite n seq b).2.occupancy = b.occupancy + seq.length := by
  have hadd : b.totalWritten + BitVec.ofNat width seq.length - b.totalRead =
      b.totalWritten - b.totalRead + BitVec.ofNat width seq.length := by
    rw [BitVec.sub_eq_add_neg, BitVec.sub_eq_add_neg, BitVec.add_assoc, BitVec.add_assoc,
      BitVec.add_comm (BitVec.ofNat width seq.length)]
  have hsum : b.occupancy + seq.length < 2 ^ width := by omega
  rw [wrappedTryWrite, if_neg (Nat.not_lt.2 hfit), WrappedRing.occupancy]
  exact (congrArg BitVec.toNat hadd).trans (toNat_add_ofNat hsum)

theorem wrappedReadCount_le {width : Nat} (n m : Nat) (b : WrappedRing width) :
    wrappedReadCount n m b ≤ b.occupancy :=
  (Nat.min_le_right _ _).trans (Nat.min_le_left _ _)

theorem wrappedRead_occupancy {width : Nat} (n m : Nat) (b : WrappedRing width) :
    (wrappedRead n m b).2.occupancy = b.occupancy - wrappedReadCount n m b := by
  have hsub : b.totalWritten - (b.totalRead + BitVec.ofNat width (wrappedReadCount n m b)) =
      b.totalWritten - b.totalRead - BitVec.ofNat width (wrappedReadCount n m b) := by
    rw [BitVec.sub_sub]
  exact (congrArg BitVec.toNat hsub).trans (toNat_sub_ofNat (wrappedReadCount_le n m b))

theorem tryWrite_wrappedView {width : Nat} {b : WrappedRing width} {s : State} (hn : s.capacity < 2 ^ width)
    (hb : b.occupancy ≤ s.capacity) (seq : List Byte) :
    tryWrite seq (wrappedView b s) =
        ((wrappedTryWrite s.capacity seq b).1, wrappedView (wrappedTryWrite s.capacity seq b).2 s) ∧
      (wrappedTryWrite s.capacity seq b).2.totalRead = b.totalRead ∧
      (wrappedTryWrite s.capacity seq b).2.readCursor = b.readCursor ∧
      (wrappedTryWrite s.capacity seq b).2.occupancy ≤ s.capacity := by
  have hfree : freeCapacity (wrappedView b s) = s.capacity - b.occupancy := rfl
  rcases Nat.lt_or_ge (s.capacity - b.occupancy) seq.length with hlong | hfit
  · rw [tryWrite_rejected (hfree.trans_lt hlong), wrappedTryWrite, if_pos hlong]
    exact ⟨rfl, rfl, rfl, hb⟩
  · have hocc := wrappedTryWrite_occupancy hn hb hfit
    rw [tryWrite_fits (hfit.trans_eq hfree.symm)]
    rw [wrappedTryWrite, if_neg (Nat.not_lt.2 hfit)] at hocc ⊢
    refine ⟨?_, rfl, rfl, ?_⟩
    · simp only [wrappedView, hocc]
      rfl
    · rw [hocc]
      omega

theorem ringRead_wrappedView {width : Nat} {b : WrappedRing width} {s : State} (hb : b.occupancy ≤ s.capacity)
    (m : Nat) :
    ringRead m (wrappedView b s) =
        ((wrappedRead s.capacity m b).1, wrappedView (wrappedRead s.capacity m b).2 s) ∧
      (wrappedRead s.capacity m b).2.totalWritten = b.totalWritten ∧
      (wrappedRead s.capacity m b).2.writeCursor = b.writeCursor ∧
      (wrappedRead s.capacity m b).2.occupancy ≤ s.capacity := by
  have hocc := wrappedRead_occupancy s.capacity m b
  refine ⟨?_, rfl, rfl, ?_⟩
  · simp only [wrappedView, hocc]
    rfl
  · rw [hocc]
    exact (Nat.sub_le _ _).trans hb

/-- A cursor read off a counter survives every wrap exactly where a wrap is a whole number of turns. -/
theorem toNat_ofNat_mod_iff (width n : Nat) :
    (∀ total : Nat, (BitVec.ofNat width total).toNat % n = total % n) ↔ n ∣ 2 ^ width := by
  refine ⟨fun h => ?_, fun h total => ?_⟩
  · have hwrap := h (2 ^ width)
    rw [BitVec.toNat_ofNat, Nat.mod_self, Nat.zero_mod] at hwrap
    exact Nat.dvd_of_mod_eq_zero hwrap.symm
  · rw [BitVec.toNat_ofNat, Nat.mod_mod_of_dvd _ h]

/-- Settles O60: the occupancy of the finite counters moves as the record's does. -/
theorem finiteCountersAgreeWithTheRecord : Obligations.FiniteCountersAgreeWithTheRecord :=
  ⟨fun _ _ _ hn hb => ⟨tryWrite_wrappedView hn hb, ringRead_wrappedView hb⟩, toNat_ofNat_mod_iff⟩

/-! ### Every register state that meets the invariants is reached (test vector D34) -/

/-- `rc` bytes written and read back, then `occ` bytes written. -/
def reaching (rc occ : Nat) : List RingOp :=
  [.tryWr (List.replicate rc 0x2E#8), .rbRd rc, .tryWr (List.replicate occ 0x2E#8)]

theorem afterRingOp_tryWr_fits {seq : List Byte} {s : State} (h : seq.length ≤ freeCapacity s) :
    afterRingOp (.tryWr seq) s = admitBytes seq s := by
  rw [afterRingOp, tryWrite_fits h]

theorem afterRingOp_rbRd (m : Nat) (s : State) : afterRingOp (.rbRd m) s = consume (readCount m s) s := rfl

/-- From reset on, a read of what was written takes all of it, up to index `rc`. -/
theorem ringRun_reaching (w : Wiring) {n rc occ : Nat} (hrc : rc < n) (hocc : occ ≤ n) :
    (ringRun (reaching rc occ) (State.resetWith w n)).2.2 =
      admitBytes (List.replicate occ 0x2E#8)
        (consume rc (admitBytes (List.replicate rc 0x2E#8) (State.resetWith w n))) := by
  have hfirst : (List.replicate rc (0x2E#8 : Byte)).length ≤ freeCapacity (State.resetWith w n) := by
    simpa [freeCapacity] using hrc.le
  have hread : readCount rc (admitBytes (List.replicate rc 0x2E#8) (State.resetWith w n)) = rc := by
    simp [readCount, hrc.le]
  have hsecond : (List.replicate occ (0x2E#8 : Byte)).length ≤
      freeCapacity (consume rc (admitBytes (List.replicate rc 0x2E#8) (State.resetWith w n))) := by
    simpa [freeCapacity] using hocc
  simp only [reaching, ringRun]
  rw [afterRingOp_tryWr_fits hfirst, afterRingOp_rbRd, hread, afterRingOp_tryWr_fits hsecond]

/-- Settles O59, by the sequence `reaching`. -/
theorem everyConsistentRegisterStateIsReached : Obligations.EveryConsistentRegisterStateIsReached := by
  intro w n rc occ hrc hocc
  refine ⟨reaching rc occ, ?_⟩
  rw [ringRun_reaching w hrc hocc]
  simp [advanceCursor, Nat.mod_eq_of_lt hrc]

end Sys2Proof.Machine
end
